-- ==== Sys2Proof/Word.lean ====
section
/-! DEFINITION. The word types: every register, address and immediate is 64 bits wide (00_scope R6, R10), the addressable unit is a byte (R6). -/

namespace Sys2Proof

/-- One byte of a device or of an instruction (00_scope R6). -/
abbrev Byte := BitVec 8

/-- A register value, an address or a staged result: an unsigned 64-bit number (00_scope R10). -/
abbrev Word := BitVec 64

end Sys2Proof
end

