-- ==== Sys2Proof/Syntax.lean ====
section
/-! DEFINITION. The instruction set as syntax: registers, widths, and one constructor of `Instr` per row of spec/opcode_table.json. -/

namespace Sys2Proof

/-- The fifteen registers (10_state R20, R21), in the index order of rule R21. -/
inductive Reg where
  | rm0 | rm1 | rm2 | rm3
  | rs0 | rs1 | rs2 | rs3
  | rip | rdc | rdr | rpf | rtx | rlm | rhm
deriving DecidableEq, Repr

/-- A 4-bit register field of an instruction: a register, or `none` for the unassigned value 15 (10_state R22, 30_encoding R111, R124). -/
abbrev RegField := Option Reg

/-- The width code of an opcode byte (30_encoding R102). -/
inductive Width where
  | w8 | w16 | w32 | w64
deriving DecidableEq, Repr

/-- Width code to byte length, the table 1, 2, 4, 8 (30_encoding R102). -/
def Width.bytes : Width → Nat
  | .w8 => 1
  | .w16 => 2
  | .w32 => 4
  | .w64 => 8

/-- The width in bits (00_scope R11). -/
def Width.bits (w : Width) : Nat := 8 * w.bytes

/-- The instructions. `w` is the declared width, `a` the high-nibble and `b` the low-nibble register field, `imm` the
immediate as an unsigned number. Fields an instruction ignores (30_encoding R112) are not kept. -/
inductive Instr where
  /-- NOP (40_step_nop_halt R150): any of the 32 bytes of category 000. -/
  | nop
  /-- HALT (R151): the byte 0xFF. -/
  | halt
  /-- NOT (44_bitwise R221). -/
  | bitNot (w : Width) (a : RegField)
  /-- AND (R222). -/
  | bitAnd (w : Width) (a b : RegField)
  /-- OR (R223). -/
  | bitOr (w : Width) (a b : RegField)
  /-- XOR (R224). -/
  | bitXor (w : Width) (a b : RegField)
  /-- PUSHS (42_stack R191): push register a on the fixed stack. -/
  | pushs (w : Width) (a : RegField)
  /-- POPS (R192): pop the fixed stack into register a. -/
  | pops (w : Width) (a : RegField)
  /-- PUSH (R193): push register a on the stack of pointer b. -/
  | push (w : Width) (a b : RegField)
  /-- POP (R194): pop the stack of pointer b into register a. -/
  | pop (w : Width) (a b : RegField)
  /-- INC (46_short_incdec R251). -/
  | inc (r : RegField)
  /-- DEC (R252). -/
  | dec (r : RegField)
  /-- MOV.RR (41_move R171). -/
  | movRR (w : Width) (a b : RegField)
  /-- MOV.RM (R172): load from the address in register b. -/
  | movRM (w : Width) (a b : RegField)
  /-- MOV.MR (R173): store register b to the address in register a. -/
  | movMR (w : Width) (a b : RegField)
  /-- MOV.MM (R174): copy from the address in b to the address in a. -/
  | movMM (w : Width) (a b : RegField)
  /-- MOV.RI (R175). -/
  | movRI (w : Width) (a : RegField) (imm : Word)
  /-- MOV.MI (R176): store an immediate to the address in a. -/
  | movMI (w : Width) (a : RegField) (imm : Word)
  /-- MOV.RA (R177): load from an immediate address. -/
  | movRA (w : Width) (a : RegField) (imm : Word)
  /-- MOV.AR (R178): store register a to an immediate address. -/
  | movAR (w : Width) (a : RegField) (imm : Word)
  /-- ADD (45_arithmetic R237). -/
  | add (w : Width) (a b : RegField)
  /-- SUB (R238). -/
  | sub (w : Width) (a b : RegField)
  /-- MUL (R239). -/
  | mul (w : Width) (a b : RegField)
  /-- DIV (R240). -/
  | div (w : Width) (a b : RegField)
  /-- MOD (R241). -/
  | mod (w : Width) (a b : RegField)
  /-- JMP.I (43_jump R207). -/
  | jmpI (w : Width) (imm : Word)
  /-- JMP.R (R208). -/
  | jmpR (w : Width) (a : RegField)
  /-- JZ.I (R209). -/
  | jzI (w : Width) (a : RegField) (imm : Word)
  /-- JZ.R (R210): condition a, target b. -/
  | jzR (w : Width) (a b : RegField)
  /-- JNZ.I (R211). -/
  | jnzI (w : Width) (a : RegField) (imm : Word)
  /-- JNZ.R (R212): condition a, target b. -/
  | jnzR (w : Width) (a b : RegField)
  /-- RESERVED.BITWISE (40 R153): opcode bytes 0x30 to 0x3F, `sub` the low two bits of the sub-instruction. -/
  | reservedBitwise (sub : BitVec 2) (w : Width)
  /-- RESERVED.STACK (R153): opcode bytes 0x50 to 0x5F. -/
  | reservedStack (sub : BitVec 2) (w : Width)
  /-- RESERVED.ARITH_B4 (R153): opcode bytes 0xB4 to 0xB7. -/
  | reservedArithB4 (w : Width)
  /-- RESERVED.ARITH_B8 (R153): opcode bytes 0xB8 to 0xBF. -/
  | reservedArithB8 (sub : BitVec 1) (w : Width)
  /-- RESERVED.JUMP (R153): opcode bytes 0xC8 to 0xCF. -/
  | reservedJump (sub : BitVec 1) (w : Width)
  /-- RESERVED.CAT7 (R154): opcode bytes 0xE0 to 0xFE. -/
  | reservedCat7 (sub : BitVec 3) (w : Width)
  /-- RESERVED.INC15 (R155): the byte 0x6F. -/
  | reservedInc15
  /-- RESERVED.DEC15 (R155): the byte 0x7F. -/
  | reservedDec15
deriving DecidableEq, Repr

end Sys2Proof
end

