-- ==== Sys2Proof/WellFormed.lean ====
section
/-! DEFINITION. Which instruction terms name an encoding of their own row: no used register field is 15, an immediate fits its declared width, and the reserved category holds no 0xFF. -/

namespace Sys2Proof

/-- The used register fields of an instruction (30_encoding R108); ignored fields are not kept in the syntax. -/
def Instr.usedFields : Instr → List RegField
  | .nop | .halt | .jmpI _ _ => []
  | .inc r | .dec r => [r]
  | .bitNot _ a | .pushs _ a | .pops _ a | .movRI _ a _ | .movMI _ a _ | .movRA _ a _ | .movAR _ a _
  | .jmpR _ a | .jzI _ a _ | .jnzI _ a _ => [a]
  | .bitAnd _ a b | .bitOr _ a b | .bitXor _ a b | .push _ a b | .pop _ a b
  | .movRR _ a b | .movRM _ a b | .movMR _ a b | .movMM _ a b
  | .add _ a b | .sub _ a b | .mul _ a b | .div _ a b | .mod _ a b
  | .jzR _ a b | .jnzR _ a b => [a, b]
  | .reservedBitwise _ _ | .reservedStack _ _ | .reservedArithB4 _ | .reservedArithB8 _ _ | .reservedJump _ _
  | .reservedCat7 _ _ | .reservedInc15 | .reservedDec15 => []

/-- `bad_reg` of the decoder block (30_encoding R135): a used field holds 15. -/
def Instr.badReg (i : Instr) : Bool := i.usedFields.any Option.isNone

/-- An immediate is an unsigned number of exactly the declared width (30_encoding R109). -/
def immFits (w : Width) (imm : Word) : Bool := decide (imm.toNat < 2 ^ w.bits)

/-- The immediate of an instruction fits its declared width (30_encoding R109). -/
def Instr.immOk : Instr → Bool
  | .movRI w _ imm | .movMI w _ imm | .movRA w _ imm | .movAR w _ imm | .jmpI w imm | .jzI w _ imm | .jnzI w _ imm => immFits w imm
  | .nop | .halt | .inc _ | .dec _ | .bitNot _ _ | .bitAnd _ _ _ | .bitOr _ _ _ | .bitXor _ _ _
  | .pushs _ _ | .pops _ _ | .push _ _ _ | .pop _ _ _ | .movRR _ _ _ | .movRM _ _ _ | .movMR _ _ _ | .movMM _ _ _
  | .add _ _ _ | .sub _ _ _ | .mul _ _ _ | .div _ _ _ | .mod _ _ _ | .jmpR _ _ | .jzR _ _ _ | .jnzR _ _ _
  | .reservedBitwise _ _ | .reservedStack _ _ | .reservedArithB4 _ | .reservedArithB8 _ _ | .reservedJump _ _
  | .reservedCat7 _ _ | .reservedInc15 | .reservedDec15 => true

/-- The term is not the reserved-category spelling of the byte 0xFF, which is HALT (30_encoding R101, R122). -/
def Instr.notHaltByte (i : Instr) : Bool := i != .reservedCat7 7 .w64

/-- A well-formed instruction: the term has an encoding that is its own. -/
def Instr.wellFormed (i : Instr) : Bool := !i.badReg && i.immOk && i.notHaltByte

end Sys2Proof
end

