-- ==== Sys2Proof/Decode.lean ====
section
/-! DEFINITION. The decoder (30_encoding R100 to R126, R135), total on any bytes and rejecting a truncated instruction by name; the encoder (R128, R130) after it; the spec's opcode table as data (R116); the host's reading of a table word. -/

namespace Sys2Proof

/-! ## Fields of the opcode byte and of the operand byte -/

/-- The category `op[7:5]` (30_encoding R100). -/
def catField (op : Byte) : BitVec 3 := op.extractLsb' 5 3

/-- The sub-instruction `op[4:2]` (R100). -/
def subField (op : Byte) : BitVec 3 := op.extractLsb' 2 3

/-- A 2-bit width code as a width (R102). -/
def Width.ofCode (c : BitVec 2) : Width :=
  match c with
  | 0 => .w8
  | 1 => .w16
  | 2 => .w32
  | 3 => .w64

/-- The 2-bit code of a width (R102). -/
def Width.code : Width → BitVec 2
  | .w8 => 0
  | .w16 => 1
  | .w32 => 2
  | .w64 => 3

/-- The width code `op[1:0]` (R100). -/
def widthField (op : Byte) : Width := Width.ofCode (op.extractLsb' 0 2)

/-- The registers in the source's order, which is the index order (10_state R21; 92 D1). -/
def Reg.all : List Reg :=
  [.rm0, .rm1, .rm2, .rm3, .rs0, .rs1, .rs2, .rs3, .rip, .rdc, .rdr, .rpf, .rtx, .rlm, .rhm]

/-- The register a 4-bit index names: its position in the list (10_state R21); 15 names none (R22). -/
def RegField.ofCode (c : BitVec 4) : RegField := Reg.all[c.toNat]?

/-- The 4-bit index of a register (10_state R21). -/
def Reg.code : Reg → BitVec 4
  | .rm0 => 0
  | .rm1 => 1
  | .rm2 => 2
  | .rm3 => 3
  | .rs0 => 4
  | .rs1 => 5
  | .rs2 => 6
  | .rs3 => 7
  | .rip => 8
  | .rdc => 9
  | .rdr => 10
  | .rpf => 11
  | .rtx => 12
  | .rlm => 13
  | .rhm => 14

/-- The 4-bit value of a register field (R111). -/
def RegField.code : RegField → BitVec 4
  | some r => r.code
  | none => 15

/-- Field `a`, the high nibble of the operand byte (R103). -/
def fieldA (operand : Byte) : RegField := RegField.ofCode (operand.extractLsb' 4 4)

/-- Field `b`, the low nibble of the operand byte (R103). -/
def fieldB (operand : Byte) : RegField := RegField.ofCode (operand.extractLsb' 0 4)

/-- The register field of a short-form opcode byte, `op[3:0]` (R107). -/
def shortField (op : Byte) : RegField := RegField.ofCode (op.extractLsb' 0 4)

/-! ## Bytes and numbers, most significant byte first (30_encoding R109, 20_memory R65) -/

/-- Append one byte below an accumulated big-endian number: `(v << 8) | byte` (20_memory R61). -/
def appendByte (acc : Word) (b : Byte) : Word := (acc <<< 8) ||| b.setWidth 64

/-- The number some bytes spell, the first the most significant. -/
def beWord (bs : List Byte) : Word := bs.foldl appendByte 0

/-- Byte `k` of a number, byte 0 the least significant: `(v >> 8k) & 0xFF` (20_memory R64). -/
def byteOf (v : Word) (k : Nat) : Byte := (v >>> (8 * k)).setWidth 8

/-- The low `n` bytes of a number, most significant first. -/
def beBytes : Nat → Word → List Byte
  | 0, _ => []
  | k + 1, v => byteOf v k :: beBytes k v

/-! ## The decoder block (30_encoding R135) -/

/-- HALT is recognised before category decode (R101). -/
def isHalt (op : Byte) : Bool := op == 0xFF

/-- An operand byte follows, except for categories 000, 011, 111 and the halt sentinel (R103, R135). -/
def hasOperand (op : Byte) : Bool :=
  !isHalt op && catField op != 0b000 && catField op != 0b011 && catField op != 0b111

/-- An immediate of the declared width follows the operand byte (R104). -/
def hasImmediate (op : Byte) : Bool :=
  (catField op == 0b100 && (subField op).getLsbD 2)
    || (catField op == 0b110 && (subField op == 0b000 || subField op == 0b100 || subField op == 0b110))

/-- The length of an instruction, from its opcode byte alone (R104). -/
def lenOf (op : Byte) : Nat :=
  if isHalt op then 1
  else if hasOperand op then (if hasImmediate op then 2 + (widthField op).bytes else 2)
  else 1

/-- The Bitwise category (R113). -/
def decodeBitwise (sub : BitVec 3) (w : Width) (a b : RegField) : Instr :=
  match sub with
  | 0 => .bitNot w a
  | 1 => .bitAnd w a b
  | 2 => .bitOr w a b
  | 3 => .bitXor w a b
  | 4 => .reservedBitwise 0 w
  | 5 => .reservedBitwise 1 w
  | 6 => .reservedBitwise 2 w
  | 7 => .reservedBitwise 3 w

/-- The Stack category (R113). -/
def decodeStack (sub : BitVec 3) (w : Width) (a b : RegField) : Instr :=
  match sub with
  | 0 => .pushs w a
  | 1 => .pops w a
  | 2 => .push w a b
  | 3 => .pop w a b
  | 4 => .reservedStack 0 w
  | 5 => .reservedStack 1 w
  | 6 => .reservedStack 2 w
  | 7 => .reservedStack 3 w

/-- The Short form: bit 4 the mode, bits 3 to 0 the register (R107); index 15 is its own reserved row (R116, R124). -/
def decodeShort (op : Byte) : Instr :=
  match op.getLsbD 4, shortField op with
  | false, some r => .inc (some r)
  | false, none => .reservedInc15
  | true, some r => .dec (some r)
  | true, none => .reservedDec15

/-- The Move category (R113). -/
def decodeMove (sub : BitVec 3) (w : Width) (a b : RegField) (imm : Word) : Instr :=
  match sub with
  | 0 => .movRR w a b
  | 1 => .movRM w a b
  | 2 => .movMR w a b
  | 3 => .movMM w a b
  | 4 => .movRI w a imm
  | 5 => .movMI w a imm
  | 6 => .movRA w a imm
  | 7 => .movAR w a imm

/-- The Arithmetic category (R113), code 101 (90_conflicts C4). -/
def decodeArithmetic (sub : BitVec 3) (w : Width) (a b : RegField) : Instr :=
  match sub with
  | 0 => .add w a b
  | 1 => .sub w a b
  | 2 => .mul w a b
  | 3 => .div w a b
  | 4 => .mod w a b
  | 5 => .reservedArithB4 w
  | 6 => .reservedArithB8 0 w
  | 7 => .reservedArithB8 1 w

/-- The Jump category (R113). -/
def decodeJump (sub : BitVec 3) (w : Width) (a b : RegField) (imm : Word) : Instr :=
  match sub with
  | 0 => .jmpI w imm
  | 1 => .jmpR w a
  | 2 => .reservedJump 0 w
  | 3 => .reservedJump 1 w
  | 4 => .jzI w a imm
  | 5 => .jzR w a b
  | 6 => .jnzI w a imm
  | 7 => .jnzR w a b

/-- The instruction that an opcode byte, the operand byte and the immediate spell; what an encoding lacks is ignored. Dispatch is
by category then sub-instruction, after the halt test (40_step_nop_halt R141, R147). Total: every byte has a meaning (R126). -/
def decodeParts (op operand : Byte) (imm : Word) : Instr :=
  if isHalt op then .halt
  else
    match catField op with
    | 0 => .nop
    | 1 => decodeBitwise (subField op) (widthField op) (fieldA operand) (fieldB operand)
    | 2 => decodeStack (subField op) (widthField op) (fieldA operand) (fieldB operand)
    | 3 => decodeShort op
    | 4 => decodeMove (subField op) (widthField op) (fieldA operand) (fieldB operand) imm
    | 5 => decodeArithmetic (subField op) (widthField op) (fieldA operand) (fieldB operand)
    | 6 => decodeJump (subField op) (widthField op) (fieldA operand) (fieldB operand) imm
    | 7 => .reservedCat7 (subField op) (widthField op)

/-- Why a byte list is no instruction: it ends too early. (The machine's own fetch never runs out: a lane outside the storage
reads 0x00, 20_memory R63.) -/
inductive DecodeError where
  /-- No byte at all. -/
  | noOpcodeByte
  /-- The opcode byte needs an operand byte and none follows. -/
  | noOperandByte (op : Byte)
  /-- Fewer bytes follow than the immediate has. -/
  | shortImmediate (op : Byte)
deriving DecidableEq, Repr

/-- Decode the first instruction of a byte list and give the rest of the list. -/
def decode : List Byte → Except DecodeError (Instr × List Byte)
  | [] => .error .noOpcodeByte
  | op :: rest =>
    if hasOperand op then
      match rest with
      | [] => .error (.noOperandByte op)
      | operand :: tail =>
        if hasImmediate op then
          if tail.length < (widthField op).bytes then .error (.shortImmediate op)
          else .ok (decodeParts op operand (beWord (tail.take (widthField op).bytes)), tail.drop (widthField op).bytes)
        else .ok (decodeParts op operand 0, tail)
    else .ok (decodeParts op 0 0, rest)

/-! ## The encoder (30_encoding R128, R130), written from the opcode bytes of R114 -/

/-- An opcode byte of a sized row: the row's base byte plus the width code (R114). -/
def opByte (base : Byte) (w : Width) : Byte := base + w.code.setWidth 8

/-- The operand byte `(a << 4) | b`; an ignored field is written 0 (R112, R128). -/
def operandByte (a b : BitVec 4) : Byte := a ++ b

/-- Format R: opcode byte and operand byte (R105). -/
def formatR (base : Byte) (w : Width) (a b : BitVec 4) : List Byte := [opByte base w, operandByte a b]

/-- Format I: opcode byte, operand byte, and the immediate truncated to the declared width, most significant byte first
(R106, R132). -/
def formatI (base : Byte) (w : Width) (a : BitVec 4) (imm : Word) : List Byte :=
  formatR base w a 0 ++ beBytes w.bytes imm

/-- The bytes of an instruction (R128). A reserved row has no assembler form: its ignored operand byte is written 0, as R112
writes every ignored field (log 11). -/
def encode : Instr → List Byte
  | .nop => [0x00]
  | .halt => [0xFF]
  | .bitNot w a => formatR 0x20 w a.code 0
  | .bitAnd w a b => formatR 0x24 w a.code b.code
  | .bitOr w a b => formatR 0x28 w a.code b.code
  | .bitXor w a b => formatR 0x2C w a.code b.code
  | .pushs w a => formatR 0x40 w a.code 0
  | .pops w a => formatR 0x44 w a.code 0
  | .push w a b => formatR 0x48 w a.code b.code
  | .pop w a b => formatR 0x4C w a.code b.code
  | .inc r => [0x60 + r.code.setWidth 8]
  | .dec r => [0x70 + r.code.setWidth 8]
  | .movRR w a b => formatR 0x80 w a.code b.code
  | .movRM w a b => formatR 0x84 w a.code b.code
  | .movMR w a b => formatR 0x88 w a.code b.code
  | .movMM w a b => formatR 0x8C w a.code b.code
  | .movRI w a imm => formatI 0x90 w a.code imm
  | .movMI w a imm => formatI 0x94 w a.code imm
  | .movRA w a imm => formatI 0x98 w a.code imm
  | .movAR w a imm => formatI 0x9C w a.code imm
  | .add w a b => formatR 0xA0 w a.code b.code
  | .sub w a b => formatR 0xA4 w a.code b.code
  | .mul w a b => formatR 0xA8 w a.code b.code
  | .div w a b => formatR 0xAC w a.code b.code
  | .mod w a b => formatR 0xB0 w a.code b.code
  | .jmpI w imm => formatI 0xC0 w 0 imm
  | .jmpR w a => formatR 0xC4 w a.code 0
  | .jzI w a imm => formatI 0xD0 w a.code imm
  | .jzR w a b => formatR 0xD4 w a.code b.code
  | .jnzI w a imm => formatI 0xD8 w a.code imm
  | .jnzR w a b => formatR 0xDC w a.code b.code
  | .reservedBitwise sub w => formatR (0x30 + (sub.setWidth 8 <<< 2)) w 0 0
  | .reservedStack sub w => formatR (0x50 + (sub.setWidth 8 <<< 2)) w 0 0
  | .reservedArithB4 w => formatR 0xB4 w 0 0
  | .reservedArithB8 sub w => formatR (0xB8 + (sub.setWidth 8 <<< 2)) w 0 0
  | .reservedJump sub w => formatR (0xC8 + (sub.setWidth 8 <<< 2)) w 0 0
  | .reservedCat7 sub w => [opByte (0xE0 + (sub.setWidth 8 <<< 2)) w]
  | .reservedInc15 => [0x6F]
  | .reservedDec15 => [0x7F]

/-- The length in bytes of an instruction (R104, R105). -/
def Instr.len : Instr → Nat
  | .nop | .halt | .inc _ | .dec _ | .reservedCat7 _ _ | .reservedInc15 | .reservedDec15 => 1
  | .bitNot _ _ | .bitAnd _ _ _ | .bitOr _ _ _ | .bitXor _ _ _ | .pushs _ _ | .pops _ _ | .push _ _ _ | .pop _ _ _
  | .movRR _ _ _ | .movRM _ _ _ | .movMR _ _ _ | .movMM _ _ _
  | .add _ _ _ | .sub _ _ _ | .mul _ _ _ | .div _ _ _ | .mod _ _ _ | .jmpR _ _ | .jzR _ _ _ | .jnzR _ _ _
  | .reservedBitwise _ _ | .reservedStack _ _ | .reservedArithB4 _ | .reservedArithB8 _ _ | .reservedJump _ _ => 2
  | .movRI w _ _ | .movMI w _ _ | .movRA w _ _ | .movAR w _ _ | .jmpI w _ | .jzI w _ _ | .jnzI w _ _ => 2 + w.bytes

/-- How far a step moves RIP past the instruction's own bytes: its length, but the halt sentinel leaves RIP where it is
(10_state R29, 40_step_nop_halt R151). -/
def Instr.advance (i : Instr) : Nat := if i = .halt then 0 else i.len

/-! ## The opcode table as data (30_encoding R116) -/

/-- The 39 rows of spec/opcode_table.json. -/
inductive Row where
  | nop | halt | not | and | or | xor | pushs | pops | push | pop | inc | dec
  | movRR | movRM | movMR | movMM | movRI | movMI | movRA | movAR
  | add | sub | mul | div | mod | jmpI | jmpR | jzI | jzR | jnzI | jnzR
  | reservedBitwise | reservedStack | reservedArithB4 | reservedArithB8 | reservedJump | reservedCat7
  | reservedInc15 | reservedDec15
deriving DecidableEq, Repr

/-- The row an instruction belongs to. -/
def Instr.row : Instr → Row
  | .nop => .nop
  | .halt => .halt
  | .bitNot _ _ => .not
  | .bitAnd _ _ _ => .and
  | .bitOr _ _ _ => .or
  | .bitXor _ _ _ => .xor
  | .pushs _ _ => .pushs
  | .pops _ _ => .pops
  | .push _ _ _ => .push
  | .pop _ _ _ => .pop
  | .inc _ => .inc
  | .dec _ => .dec
  | .movRR _ _ _ => .movRR
  | .movRM _ _ _ => .movRM
  | .movMR _ _ _ => .movMR
  | .movMM _ _ _ => .movMM
  | .movRI _ _ _ => .movRI
  | .movMI _ _ _ => .movMI
  | .movRA _ _ _ => .movRA
  | .movAR _ _ _ => .movAR
  | .add _ _ _ => .add
  | .sub _ _ _ => .sub
  | .mul _ _ _ => .mul
  | .div _ _ _ => .div
  | .mod _ _ _ => .mod
  | .jmpI _ _ => .jmpI
  | .jmpR _ _ => .jmpR
  | .jzI _ _ _ => .jzI
  | .jzR _ _ _ => .jzR
  | .jnzI _ _ _ => .jnzI
  | .jnzR _ _ _ => .jnzR
  | .reservedBitwise _ _ => .reservedBitwise
  | .reservedStack _ _ => .reservedStack
  | .reservedArithB4 _ => .reservedArithB4
  | .reservedArithB8 _ _ => .reservedArithB8
  | .reservedJump _ _ => .reservedJump
  | .reservedCat7 _ _ => .reservedCat7
  | .reservedInc15 => .reservedInc15
  | .reservedDec15 => .reservedDec15

/-- One row of the table: `match` (here `pattern`) and `mask` over the opcode byte, and the row it names. -/
structure TableRow where
  pattern : Byte
  mask : Byte
  row : Row
deriving DecidableEq, Repr

/-- "a row matches when `(op & mask) == match`" (R116). -/
def TableRow.covers (r : TableRow) (op : Byte) : Bool := op &&& r.mask == r.pattern

/-- The number of 1 bits of a row's mask; where two rows match, the larger wins (R116). -/
def TableRow.weight (r : TableRow) : Nat := ((List.range 8).filter r.mask.getLsbD).length

/-- The no-op, halt, bitwise, stack and short-form rows. -/
def tableLow : List TableRow :=
  [⟨0x00, 0xE0, .nop⟩, ⟨0xFF, 0xFF, .halt⟩, ⟨0x20, 0xFC, .not⟩, ⟨0x24, 0xFC, .and⟩, ⟨0x28, 0xFC, .or⟩, ⟨0x2C, 0xFC, .xor⟩,
   ⟨0x40, 0xFC, .pushs⟩, ⟨0x44, 0xFC, .pops⟩, ⟨0x48, 0xFC, .push⟩, ⟨0x4C, 0xFC, .pop⟩, ⟨0x60, 0xF0, .inc⟩, ⟨0x70, 0xF0, .dec⟩]

/-- The move, arithmetic and jump rows. -/
def tableHigh : List TableRow :=
  [⟨0x80, 0xFC, .movRR⟩, ⟨0x84, 0xFC, .movRM⟩, ⟨0x88, 0xFC, .movMR⟩, ⟨0x8C, 0xFC, .movMM⟩,
   ⟨0x90, 0xFC, .movRI⟩, ⟨0x94, 0xFC, .movMI⟩, ⟨0x98, 0xFC, .movRA⟩, ⟨0x9C, 0xFC, .movAR⟩,
   ⟨0xA0, 0xFC, .add⟩, ⟨0xA4, 0xFC, .sub⟩, ⟨0xA8, 0xFC, .mul⟩, ⟨0xAC, 0xFC, .div⟩, ⟨0xB0, 0xFC, .mod⟩,
   ⟨0xC0, 0xFC, .jmpI⟩, ⟨0xC4, 0xFC, .jmpR⟩, ⟨0xD0, 0xFC, .jzI⟩, ⟨0xD4, 0xFC, .jzR⟩, ⟨0xD8, 0xFC, .jnzI⟩, ⟨0xDC, 0xFC, .jnzR⟩]

/-- The reserved rows. -/
def tableReserved : List TableRow :=
  [⟨0x30, 0xF0, .reservedBitwise⟩, ⟨0x50, 0xF0, .reservedStack⟩, ⟨0xB4, 0xFC, .reservedArithB4⟩, ⟨0xB8, 0xF8, .reservedArithB8⟩,
   ⟨0xC8, 0xF8, .reservedJump⟩, ⟨0xE0, 0xE0, .reservedCat7⟩, ⟨0x6F, 0xFF, .reservedInc15⟩, ⟨0x7F, 0xFF, .reservedDec15⟩]

/-- The opcode table of R116: 31 instruction rows and 8 reserved rows. -/
def opcodeTable : List TableRow := tableLow ++ tableHigh ++ tableReserved

/-! ## The host's words -/

/-- The ten bytes an instruction can have, spelled by a word of the opcode table. The table's `fixed` and `fields` read a
row's pattern as ONE number whose bit 0 is its least significant bit (98_reader), so the opcode byte is the most significant of
the `nbits / 8` bytes, at the lowest address; the bytes after them are 0 (log 8). -/
def tableBytes (nbits w : Nat) : List Byte :=
  (List.range 10).map fun k => if k < nbits / 8 then BitVec.ofNat 8 (w >>> (8 * (nbits / 8 - 1 - k))) else 0

/-- The instruction the decoder reads from a word of the opcode table. -/
def decodeTableWord (nbits w : Nat) : Option Instr :=
  match decode (tableBytes nbits w) with
  | .ok (i, _) => some i
  | .error _ => none

end Sys2Proof
end

