-- ==== Sys2Proof/Machine/Operands.lean ====
section
/-! DEFINITION. Operand values: the low bytes of a word, extension, sub-width writes, and the sub-width views of a register cell (00_scope R11 to R13, 10_state R24 to R26). -/

namespace Sys2Proof.Machine

/-- `mask(n) = 2^(8n) - 1` (00_scope R11). -/
def mask (w : Width) : Word := BitVec.ofNat 64 (2 ^ w.bits - 1)

/-- `low(v, n)`, the low `n` bytes of a word (R11); also the zero extension of an `n`-byte value (R12). -/
def low (w : Width) (v : Word) : Word := v &&& mask w

/-- `sext_64(v, n)`: two's-complement sign extension of the low `n` bytes to 64 bits (R12). -/
def sext (w : Width) (v : Word) : Word := (v.setWidth w.bits).signExtend 64

/-- The value a register holds after the sub-width write `WriteLow` of `v` over `old`: the low `n` bytes are `v`'s, the bits
above keep their value (R13). -/
def mergeLow (w : Width) (old v : Word) : Word := (old &&& ~~~(mask w)) ||| (v &&& mask w)

/-- The operand width as a number to move a pointer by (42_stack R190). -/
def widthStep (w : Width) : Word := BitVec.ofNat 64 w.bytes

/-- The seven views of a register cell (10_state R24, R25): the low view of each width, and the high views, which no
instruction uses and whose position directly above the low view is the spec's decision D3. -/
inductive View where
  | low (w : Width)
  | high8 | high16 | high32
deriving DecidableEq, Repr

/-- The lowest bit of a view (R24, R25). -/
def View.shift : View → Nat
  | .low _ => 0
  | .high8 => 8
  | .high16 => 16
  | .high32 => 32

/-- The width of a view in bits (R24, R25). -/
def View.bits : View → Nat
  | .low w => w.bits
  | .high8 => 8
  | .high16 => 16
  | .high32 => 32

/-- The mask of a view in place. -/
def View.mask (u : View) : Word := BitVec.ofNat 64 (2 ^ u.bits - 1) <<< u.shift

/-- A read through a view (R24, R25). -/
def View.read (u : View) (v : Word) : Word := (v &&& u.mask) >>> u.shift

/-- A register cell after a write of `v` through a view (R24, R25): the bits outside the view keep their value (R26). -/
def View.write (u : View) (old v : Word) : Word := (old &&& ~~~u.mask) ||| ((v <<< u.shift) &&& u.mask)

end Sys2Proof.Machine
end

