-- ==== Sys2Proof/Machine/Flags.lean ====
section
/-! DEFINITION. Flags: single bits of a register addressed by index (10_state R27), the three bits the engine writes in RPF (R31), and the Overflow condition (45_arithmetic R232). -/

namespace Sys2Proof.Machine

/-- Bit 0 of RPF, Interrupt: the undefined-opcode and division latch (10_state R31). -/
def flagI : Nat := 0

/-- Bit 1 of RPF, Overflow (R31). -/
def flagO : Nat := 1

/-- Bit 31 of RPF, Completed (R31). -/
def flagC : Nat := 31

/-- Reading flag `k` of a register value (R27). -/
def getFlag (v : Word) (k : Nat) : Bool := v.getLsbD k

/-- Writing flag `k` of a register value (R27): `(x & ~(1 << k)) | (f << k)`. -/
def putFlag (v : Word) (k : Nat) (f : Bool) : Word :=
  (v &&& ~~~((1 : Word) <<< k)) ||| ((BitVec.ofBool f).setWidth 64 <<< k)

/-- Overflow of an exact result at a declared width (45_arithmetic R232): "the result requires more bits than the operation's
declared width". That a negative difference overflows is the spec's decision D14. -/
def overflows (w : Width) (r : Int) : Bool := decide (r < 0) || decide ((2 ^ w.bits : Int) ≤ r)

end Sys2Proof.Machine
end

