-- ==== Sys2Proof/Machine/Alu.lean ====
section
/-! DEFINITION. The combinational ALU block (45_arithmetic R230): operation, width and two operands to the low 64 bits of the result, overflow, and divisor-is-zero. -/

namespace Sys2Proof.Machine

/-- The operations of the ALU (45_arithmetic R230); `target` is the adder of jump targets (43_jump R201). -/
inductive AluOp where
  | add | sub | mul | div | mod
  | not | and | or | xor
  | inc | dec
  | target
deriving DecidableEq, Repr

/-- The outputs of the ALU (R230). -/
structure AluOut where
  /-- `R[63:0]`: the low 64 bits of the result. -/
  result : Word
  /-- `ovf`: the result does not fit the declared width (R232). -/
  ovf : Bool
  /-- `dz`: DIV or MOD with a zero divisor (R236). -/
  dz : Bool
deriving DecidableEq, Repr

/-- The exact mathematical result on unsigned operands (45_arithmetic R231, R232, R235; 44_bitwise R220; 46 R250; 43 R201). Where
`dz` is set no instruction uses it. -/
def AluOp.exact (op : AluOp) (w : Width) (x y : Word) : Int :=
  match op with
  | .add => (x.toNat : Int) + y.toNat
  | .sub => (x.toNat : Int) - y.toNat
  | .mul => (x.toNat : Int) * y.toNat
  | .div => ((x.toNat / y.toNat : Nat) : Int)
  | .mod => ((x.toNat % y.toNat : Nat) : Int)
  | .not => (~~~x).toNat
  | .and => (x &&& y).toNat
  | .or => (x ||| y).toNat
  | .xor => (x ^^^ y).toNat
  | .inc => (x.toNat : Int) + 1
  | .dec => (x.toNat : Int) - 1
  | .target => (x.toNat : Int) + (sext w y).toInt

/-- The ALU divides by the second operand. -/
def AluOp.divides : AluOp → Bool
  | .div | .mod => true
  | .add | .sub | .mul | .not | .and | .or | .xor | .inc | .dec | .target => false

/-- The ALU block (R230): it has no state. -/
def alu (op : AluOp) (w : Width) (x y : Word) : AluOut :=
  { result := BitVec.ofInt 64 (op.exact w x y)
    ovf := overflows w (op.exact w x y)
    dz := op.divides && y == 0 }

end Sys2Proof.Machine
end

