-- ==== Sys2Proof/Config.lean ====
section
/-! DEFINITION. What an instance of the block fixes (00_scope R7). KIND, CAP and the initial contents stand in each installed device; FIXED_SP stands here. -/

namespace Sys2Proof

/-- The parameters of the machine that belong to no device (00_scope R7): FIXED_SP, "register index 0..14". It is carried in
State so that every statement holds for every instance, and no step changes it (log 1). -/
structure Config where
  /-- The stack-pointer register of PUSHS and POPS (42_stack R190). -/
  fixedSp : Reg
deriving DecidableEq, Repr

/-- The instance with the spec's default, FIXED_SP = 4 = RS0 (00_scope R7; 92 D4, the spec's own decision). -/
def Config.reference : Config := { fixedSp := .rs0 }

end Sys2Proof
end

