-- ==== Sys2Proof/Machine/State.lean ====
section
/-! DEFINITION. The state of the machine (10_state, all of it), the reasons a step can stop, and the state after reset. -/

namespace Sys2Proof.Machine

/-- The register file: fifteen 64-bit cells (10_state R20, R21). -/
structure RegFile where
  /-- General purpose, index 0 (R41). -/
  rm0 : Word
  /-- General purpose, index 1. -/
  rm1 : Word
  /-- General purpose, index 2. -/
  rm2 : Word
  /-- General purpose, index 3. -/
  rm3 : Word
  /-- Stack/auxiliary, index 4; FIXED_SP by default (R40). -/
  rs0 : Word
  /-- Stack/auxiliary, index 5. -/
  rs1 : Word
  /-- Stack/auxiliary, index 6. -/
  rs2 : Word
  /-- Stack/auxiliary, index 7. -/
  rs3 : Word
  /-- Instruction pointer, index 8: a byte address in the command device (R28). -/
  rip : Word
  /-- Command-device selector, index 9 (R37). -/
  rdc : Word
  /-- Data-device selector, index 10 (R38). -/
  rdr : Word
  /-- Processor flags, index 11: bit 0 Interrupt, bit 1 Overflow, bit 31 Completed, the rest plain storage (R31, R35). -/
  rpf : Word
  /-- Tick counter, index 12: steps begun (R39). -/
  rtx : Word
  /-- Reserved memory-protection bound, index 13: plain storage (R42). -/
  rlm : Word
  /-- Reserved memory-protection bound, index 14: plain storage (R42). -/
  rhm : Word
deriving DecidableEq, Repr

/-- Every register zero: "all zeroed at construction" (10_state R48), and the register file's bulk reset (R47). -/
def RegFile.zero : RegFile :=
  { rm0 := 0, rm1 := 0, rm2 := 0, rm3 := 0, rs0 := 0, rs1 := 0, rs2 := 0, rs3 := 0,
    rip := 0, rdc := 0, rdr := 0, rpf := 0, rtx := 0, rlm := 0, rhm := 0 }

/-- The two kinds of device (00_scope R7, 20_memory R60); an I/O endpoint is not defined (R70). -/
inductive Kind where
  /-- Writable storage. -/
  | memory
  /-- Read-only storage: every write is dropped and latches (R64). -/
  | constantMemory
deriving DecidableEq, Repr

/-- The bytes of one device: (address, byte) pairs, addresses strictly rising, no entry equal to what an unlisted backed
address reads as (0x00). -/
abbrev Memory := List Host.Cell

/-- One installed device. KIND and CAP are its parameters (00_scope R7), STORE and FAULT its state (10_state R44, R45). -/
structure Device where
  /-- KIND(d): writable or read-only. -/
  kind : Kind
  /-- CAP(d): capacity in bytes; indices 0 to `cap - 1` hold storage (20_memory R71). -/
  cap : Nat
  /-- STORE(d): the backing bytes. -/
  store : Memory
  /-- FAULT(d): the device's own sticky fault latch, 0 or 1, never cleared by the engine (10_state R45). -/
  fault : Bool
deriving DecidableEq, Repr

/-- DEVICE_MAP (00_scope R7, 20_memory R78): device ids to devices, ids strictly rising. -/
abbrev DeviceMap := List (Nat × Device)

/-- The whole machine. -/
structure State where
  /-- The register file (10_state R20). -/
  regs : RegFile
  /-- The scratch bus register: written where the spec names the staging, read by no instruction before it is written (R43). -/
  bus : Word
  /-- DEVICE_MAP and, under each id, the device's state (R44); which ids, kinds and capacities there are never changes in a step. -/
  devices : DeviceMap
  /-- The instance's remaining parameter FIXED_SP (00_scope R7), which no step changes (log 1). -/
  cfg : Config
deriving DecidableEq, Repr

/-- Which selector names a device: RDC the command device, RDR the data device (20_memory R74). -/
inductive Bus where
  | command
  | data
deriving DecidableEq, Repr

/-- Why the machine stops with a fault. The hardware itself has no such stop (60_exceptions R260, R269). -/
inductive Fault where
  /-- `UnmappedDevice` (20_memory R75, 60_exceptions R276): no device is installed under the id that RDC (or RDR) holds when the
  step begins. Raised by the fetch of a step, and by a data access run outside a step. The spec gives such a step no
  behaviour; SAFE: the model stops where the hardware has no described outcome. -/
  | unmappedDevice (bus : Bus) (id : Nat)
deriving DecidableEq, Repr

/-- Why an instruction has no meaning. -/
inductive Refusal where
  /-- An instruction not modelled yet, by its mnemonic. Raised by no arm of `exec`: every row of the table has its meaning. SAFE. -/
  | notModelled (mnemonic : String)
deriving DecidableEq, Repr

/-- The outcome of an instruction or of a step. -/
abbrev Result := Host.Outcome State Fault Refusal

/-- The machine as constructed (10_state R48, 70_reset R290): registers and BUS zero, the given instance and devices. -/
def State.construct (cfg : Config) (devices : DeviceMap) : State :=
  { regs := RegFile.zero, bus := 0, devices := devices, cfg := cfg }

/-- The machine right after reset (10_state R48, 70_reset R291): every register 0, BUS 0, the default FIXED_SP, and no device
installed, the spec's default DEVICE_MAP ("none", 00_scope R7; log 2). The host installs the devices before the first step. -/
def State.reset : State := State.construct Config.reference []

end Sys2Proof.Machine
end

