-- ==== Sys2Proof/Machine/Memory.lean ====
section
/-! DEFINITION. Device storage and device access: the canonical byte store, DevRead and DevWrite with the inclusive gate (20_memory R60 to R66), and the device map. -/

namespace Sys2Proof.Machine

/-- What a backed address that no cell lists reads as: Memory is "zero-initialized" (10_state R44); of a ConstantMemory's supplied
content the zero bytes are the ones not listed (log 7). -/
def blank : Byte := 0x00

/-- The byte of a store at an address. -/
def Memory.read : Memory → Nat → Byte
  | [], _ => blank
  | (k, b) :: rest, a => if k = a then b else Memory.read rest a

/-- Put a cell in front of a store, unless the byte is what an unlisted address reads as. -/
def Memory.cons (a : Nat) (b : Byte) (m : Memory) : Memory := if b = blank then m else (a, b) :: m

/-- Write one byte, keeping the canonical form. -/
def Memory.write : Memory → Nat → Byte → Memory
  | [], a, b => Memory.cons a b []
  | (k, c) :: rest, a, b =>
    if a < k then Memory.cons a b ((k, c) :: rest)
    else if a = k then Memory.cons a b rest
    else (k, c) :: Memory.write rest a b

/-- The canonical form: addresses strictly rising, no cell equal to what an unlisted address reads as. -/
def Memory.wf : Memory → Bool
  | [] => true
  | [(_, b)] => b != blank
  | (k, b) :: (k', b') :: rest => b != blank && decide (k < k') && Memory.wf ((k', b') :: rest)

/-- Every listed address is below a bound. -/
def Memory.below (m : Memory) (cap : Nat) : Bool := m.all fun c => decide (c.1 < cap)

/-- A store holding given bytes from an address on. -/
def Memory.load : Memory → Nat → List Byte → Memory
  | m, _, [] => m
  | m, a, b :: bs => Memory.load (Memory.write m a b) (a + 1) bs

/-! ## One device -/

/-- A constructed Memory: zero bytes, no fault (10_state R48). -/
def Device.ofCapacity (cap : Nat) : Device := { kind := .memory, cap := cap, store := [], fault := false }

/-- A constructed ConstantMemory: the supplied content, whose length is the capacity (00_scope R7, 10_state R44). -/
def Device.ofContent (content : List Byte) : Device :=
  { kind := .constantMemory, cap := content.length, store := Memory.load [] 0 content, fault := false }

/-- `FAULT(d) <- 1` (10_state R45). -/
def Device.latch (d : Device) : Device := { d with fault := true }

/-- Read lane `idx` of an access (20_memory R61, R63): outside the backing storage 0x00, and the latch is set (D18). -/
def Device.readLane (d : Device) (idx : Nat) : Byte × Device :=
  if idx < d.cap then (Memory.read d.store idx, d) else (0x00, d.latch)

/-- The lane loop of DevRead (R61): `n` lanes from `idx` on, appended below `acc`. -/
def Device.readLanes (d : Device) (idx : Nat) : Nat → Word → Word × Device
  | 0, acc => (acc, d)
  | n + 1, acc => (d.readLane idx).2.readLanes (idx + 1) n (appendByte acc (d.readLane idx).1)

/-- `DevRead(d, addr, n)` (20_memory R61, R62): the gate compares the first address only, with `>`. -/
def Device.read (d : Device) (addr : Word) (w : Width) : Word × Device :=
  if d.cap < addr.toNat then (0, d.latch) else d.readLanes addr.toNat w.bytes 0

/-- Write lane `idx` of an access (R64, R63): outside the backing storage the byte is dropped and the latch set (D18). -/
def Device.writeLane (d : Device) (idx : Nat) (b : Byte) : Device :=
  if idx < d.cap then { d with store := Memory.write d.store idx b } else d.latch

/-- The lane loop of DevWrite (R64): lane 0 is the most significant of the `n` bytes. -/
def Device.writeLanes (d : Device) (idx : Nat) : Nat → Word → Device
  | 0, _ => d
  | n + 1, v => (d.writeLane idx (byteOf v n)).writeLanes (idx + 1) n v

/-- `DevWrite(d, addr, n, v)` (R64): the kind is checked first, whatever the address, then the gate. -/
def Device.write (d : Device) (addr : Word) (w : Width) (v : Word) : Device :=
  if d.kind = .constantMemory then d.latch
  else if d.cap < addr.toNat then d.latch
  else d.writeLanes addr.toNat w.bytes v

/-- A well-formed device: CAP below 2^64 (00_scope R7, D29) and a canonical store within it. -/
def Device.wf (d : Device) : Bool := decide (d.cap < 2 ^ 64) && Memory.wf d.store && Memory.below d.store d.cap

/-! ## The device map -/

/-- `DEVICE_MAP(id)`: the device installed under an id, if any (00_scope R7). -/
def DeviceMap.find (m : DeviceMap) (id : Nat) : Option Device :=
  match m with
  | [] => none
  | (k, d) :: rest => if k = id then some d else DeviceMap.find rest id

/-- The map after the device under an installed id has changed its state; no id is added. -/
def DeviceMap.update (m : DeviceMap) (id : Nat) (d : Device) : DeviceMap :=
  match m with
  | [] => []
  | (k, e) :: rest => if k = id then (k, d) :: rest else (k, e) :: DeviceMap.update rest id d

/-- Install a device under an id: "duplicate ids overwrite" (20_memory R78). -/
def DeviceMap.insert (m : DeviceMap) (id : Nat) (d : Device) : DeviceMap :=
  match m with
  | [] => [(id, d)]
  | (k, e) :: rest =>
    if id < k then (id, d) :: (k, e) :: rest
    else if id = k then (id, d) :: rest
    else (k, e) :: DeviceMap.insert rest id d

/-- Ids strictly rising. -/
def DeviceMap.rising : DeviceMap → Bool
  | [] => true
  | [_] => true
  | (k, _) :: (k', d') :: rest => decide (k < k') && DeviceMap.rising ((k', d') :: rest)

/-- A well-formed map: ids strictly rising and below 2^64 (00_scope R7), every device well-formed. -/
def DeviceMap.wf (m : DeviceMap) : Bool :=
  DeviceMap.rising m && m.all fun e => decide (e.1 < 2 ^ 64) && e.2.wf

/-- A well-formed state: its device map is. (Every value of a register, of BUS and of FIXED_SP is legal.) -/
def State.wf (s : State) : Bool := DeviceMap.wf s.devices

end Sys2Proof.Machine
end

