-- ==== Sys2Proof/Machine/Ops.lean ====
section
/-! DEFINITION. The named operations the meanings share: register access, the flags of RPF, raising UndefinedOpcode and DivideByZero, data accesses through the data device, stack moves and jump targets. -/

namespace Sys2Proof.Machine

/-! ## Registers (10_state R20, R23) -/

/-- `x[i]`. -/
def RegFile.get (f : RegFile) : Reg → Word
  | .rm0 => f.rm0
  | .rm1 => f.rm1
  | .rm2 => f.rm2
  | .rm3 => f.rm3
  | .rs0 => f.rs0
  | .rs1 => f.rs1
  | .rs2 => f.rs2
  | .rs3 => f.rs3
  | .rip => f.rip
  | .rdc => f.rdc
  | .rdr => f.rdr
  | .rpf => f.rpf
  | .rtx => f.rtx
  | .rlm => f.rlm
  | .rhm => f.rhm

/-- `x[i] <- v`. -/
def RegFile.set (f : RegFile) (r : Reg) (v : Word) : RegFile :=
  match r with
  | .rm0 => { f with rm0 := v }
  | .rm1 => { f with rm1 := v }
  | .rm2 => { f with rm2 := v }
  | .rm3 => { f with rm3 := v }
  | .rs0 => { f with rs0 := v }
  | .rs1 => { f with rs1 := v }
  | .rs2 => { f with rs2 := v }
  | .rs3 => { f with rs3 := v }
  | .rip => { f with rip := v }
  | .rdc => { f with rdc := v }
  | .rdr => { f with rdr := v }
  | .rpf => { f with rpf := v }
  | .rtx => { f with rtx := v }
  | .rlm => { f with rlm := v }
  | .rhm => { f with rhm := v }

/-- Read all 64 bits of a register (00_scope R13). -/
def State.get (s : State) (r : Reg) : Word := s.regs.get r

/-- Write all 64 bits of a register (00_scope R13). -/
def State.set (s : State) (r : Reg) (v : Word) : State := { s with regs := s.regs.set r v }

/-- `WriteLow(i, n, v)`: replace the low `n` bytes of a register (00_scope R13). -/
def State.writeLow (s : State) (r : Reg) (w : Width) (v : Word) : State := s.set r (mergeLow w (s.get r) v)

/-- `BUS <- v` (10_state R43). -/
def State.setBus (s : State) (v : Word) : State := { s with bus := v }

/-! ## Flags of RPF (10_state R31) -/

/-- Flag `k` of RPF. -/
def State.flag (s : State) (k : Nat) : Bool := getFlag (s.get .rpf) k

/-- Write flag `k` of RPF, that bit alone (R27). -/
def State.setFlag (s : State) (k : Nat) (f : Bool) : State := s.set .rpf (putFlag (s.get .rpf) k f)

/-! ## The machine's exceptions (00_scope R15, 60_exceptions R260): a latch, and execution goes on. There is no trap entry (R269)
and no return from one (R270). -/

/-- `raise`: `RPF.I <- 1`, and the instruction has no further effect; what the step did before stays (00_scope R15). -/
def State.raise (s : State) : State := s.setFlag flagI true

/-- `raise UndefinedOpcode` (60_exceptions R261). -/
def raiseUndefinedOpcode (s : State) : Result := .next s.raise

/-- `raise DivideByZero`: the same latch (45_arithmetic R236, 60 R262; the spec's decision D15). -/
def raiseDivideByZero (s : State) : Result := .next s.raise

/-- Use the register of a field; 15 in a used field raises UndefinedOpcode and nothing else happens (40 R155). -/
def onReg (a : RegField) (s : State) (k : Reg → Result) : Result :=
  match a with
  | some r => k r
  | none => raiseUndefinedOpcode s

/-- Use the registers of both fields. -/
def onRegs (a b : RegField) (s : State) (k : Reg → Reg → Result) : Result :=
  onReg a s fun ra => onReg b s fun rb => k ra rb

/-! ## Devices (20_memory R74) -/

/-- The id of the command device: all 64 bits of RDC (10_state R37, D20). -/
def State.cmdId (s : State) : Nat := (s.get .rdc).toNat

/-- The id of the data device: all 64 bits of RDR (R38, D20). -/
def State.datId (s : State) : Nat := (s.get .rdr).toNat

/-- The device under an id. -/
def State.device (s : State) (id : Nat) : Option Device := s.devices.find id

/-- The state after the device under an id has changed. -/
def State.putDevice (s : State) (id : Nat) (d : Device) : State := { s with devices := s.devices.update id d }

/-- `MemRead(addr, n)` on the data device `dat` of the step, then the rest of the instruction. The device is the one RDR named on
entry, whatever register has been written since (R74; log 6). -/
def loadThen (s : State) (dat : Nat) (addr : Word) (w : Width) (k : Word → State → Result) : Result :=
  match s.device dat with
  | none => .fault (.unmappedDevice .data dat)
  | some d => k (d.read addr w).1 (s.putDevice dat (d.read addr w).2)

/-- `MemWrite(addr, n, v)` on the data device `dat` of the step, then the rest of the instruction. -/
def storeThen (s : State) (dat : Nat) (addr : Word) (w : Width) (v : Word) (k : State → Result) : Result :=
  match s.device dat with
  | none => .fault (.unmappedDevice .data dat)
  | some d => k (s.putDevice dat (d.write addr w v))

/-- Load `n` bytes into the low bytes of a register (41_move R172, R177). -/
def loadReg (r : Reg) (addr : Word) (w : Width) (s : State) : Result :=
  loadThen s s.datId addr w fun v t => .next (t.writeLow r w v)

/-- Store `n` bytes; no register changes (41_move R173, R176, R178). -/
def storeValue (addr : Word) (w : Width) (v : Word) (s : State) : Result :=
  storeThen s s.datId addr w (low w v) .next

/-! ## The stack (42_stack R190): write then increment, decrement then read -/

/-- Push the low `n` bytes of `src` on the stack of pointer `sp` (R191, R193). -/
def pushReg (src sp : Reg) (w : Width) (s : State) : Result :=
  storeThen s s.datId (s.get sp) w (low w (s.get src)) fun t => .next (t.set sp (s.get sp + widthStep w))

/-- Pop the stack of pointer `sp` into the low `n` bytes of `dst`; the destination write is last (R192, R194). Where `sp` and `dst`
are RDC and RIP both are written, as R194 says and 10_state R23 lets no field refuse; how that stands beside 70_reset R305 is
log 15. -/
def popReg (dst sp : Reg) (w : Width) (s : State) : Result :=
  loadThen (s.set sp (s.get sp - widthStep w)) s.datId (s.get sp - widthStep w) w fun v t => .next (t.writeLow dst w v)

/-! ## Jumps (43_jump R201, R205) -/

/-- The address of the instruction's opcode byte, from the advanced RIP: `x[8] - len` (R201). -/
def State.start (s : State) (len : Nat) : Word := s.get .rip - BitVec.ofNat 64 len

/-- The relative target of an `n`-byte offset (R201): the ALU's target adder. -/
def relativeTarget (start : Word) (w : Width) (off : Word) : Word := (alu .target w start off).result

/-- The target of an immediate form, relative at every width (R205); its length is `2 + n`. -/
def immTarget (w : Width) (imm : Word) (s : State) : Word := relativeTarget (s.start (2 + w.bytes)) w imm

/-- The target of a register form: absolute at width 64, relative below (R205); its length is 2. -/
def regTarget (w : Width) (t : Reg) (s : State) : Word :=
  if w = .w64 then s.get t else relativeTarget (s.start 2) w (low w (s.get t))

/-- `pc <- target`. -/
def State.jump (s : State) (target : Word) : State := s.set .rip target

/-! ## ALU write-back -/

/-- A bitwise operation (44_bitwise R220): the 64-bit result on BUS, its low `n` bytes to the left operand; no flag. -/
def bitwiseOp (op : AluOp) (w : Width) (a b : Reg) (s : State) : State :=
  (s.setBus (alu op w (s.get a) (s.get b)).result).writeLow a w (alu op w (s.get a) (s.get b)).result

/-- An arithmetic operation that reaches its computation (45_arithmetic R233): BUS, then RPF.O, then the result. -/
def arithmeticOp (op : AluOp) (w : Width) (a b : Reg) (s : State) : State :=
  ((s.setBus (alu op w (s.get a) (s.get b)).result).setFlag flagO (alu op w (s.get a) (s.get b)).ovf).writeLow a w
    (alu op w (s.get a) (s.get b)).result

/-- A dividing operation (R236): a zero divisor raises DivideByZero, and nothing else happens. -/
def dividingOp (op : AluOp) (w : Width) (a b : Reg) (s : State) : Result :=
  if (alu op w (s.get a) (s.get b)).dz then raiseDivideByZero s else .next (arithmeticOp op w a b s)

end Sys2Proof.Machine
end

