-- ==== Sys2Proof/Machine/Arithmetic.lean ====
section
/-! DEFINITION. The Arithmetic family (45_arithmetic): unsigned full-width operands, exact result, RPF.O at the declared width, low bytes written. -/

namespace Sys2Proof.Machine

/-- ADD (45 R237). -/
def execAdd (w : Width) (a b : RegField) (s : State) : Result :=
  onRegs a b s fun ra rb => .next (arithmeticOp .add w ra rb s)

/-- SUB (45 R238). -/
def execSub (w : Width) (a b : RegField) (s : State) : Result :=
  onRegs a b s fun ra rb => .next (arithmeticOp .sub w ra rb s)

/-- MUL (45 R239). -/
def execMul (w : Width) (a b : RegField) (s : State) : Result :=
  onRegs a b s fun ra rb => .next (arithmeticOp .mul w ra rb s)

/-- DIV (45 R240): a zero divisor raises DivideByZero (R236). -/
def execDiv (w : Width) (a b : RegField) (s : State) : Result :=
  onRegs a b s fun ra rb => dividingOp .div w ra rb s

/-- MOD (45 R241): a zero divisor raises DivideByZero (R236). -/
def execMod (w : Width) (a b : RegField) (s : State) : Result :=
  onRegs a b s fun ra rb => dividingOp .mod w ra rb s

end Sys2Proof.Machine
end

