-- ==== Sys2Proof/Machine/Bitwise.lean ====
section
/-! DEFINITION. The Bitwise family (44_bitwise): computed on all 64 bits through BUS, written at the declared width, no flag. -/

namespace Sys2Proof.Machine

/-- NOT (44 R221): the complement of the one operand. -/
def execNot (w : Width) (a : RegField) (s : State) : Result :=
  onReg a s fun ra => .next (bitwiseOp .not w ra ra s)

/-- AND (44 R222). -/
def execAnd (w : Width) (a b : RegField) (s : State) : Result :=
  onRegs a b s fun ra rb => .next (bitwiseOp .and w ra rb s)

/-- OR (44 R223). -/
def execOr (w : Width) (a b : RegField) (s : State) : Result :=
  onRegs a b s fun ra rb => .next (bitwiseOp .or w ra rb s)

/-- XOR (44 R224). -/
def execXor (w : Width) (a b : RegField) (s : State) : Result :=
  onRegs a b s fun ra rb => .next (bitwiseOp .xor w ra rb s)

end Sys2Proof.Machine
end

