-- ==== Sys2Proof/Machine/Jump.lean ====
section
/-! DEFINITION. The Jump family (43_jump): start-relative targets, absolute at width 64 in the register forms, all 64 bits of the condition tested, no flag, no data access. -/

namespace Sys2Proof.Machine

/-- JMP.I (43 R207). -/
def execJmpI (w : Width) (imm : Word) (s : State) : Result := .next (s.jump (immTarget w imm s))

/-- JMP.R (43 R208). -/
def execJmpR (w : Width) (a : RegField) (s : State) : Result :=
  onReg a s fun ra => .next (s.jump (regTarget w ra s))

/-- JZ.I (43 R209): untaken, RIP stays past the whole instruction (R204). -/
def execJzI (w : Width) (a : RegField) (imm : Word) (s : State) : Result :=
  onReg a s fun ra => .next (if s.get ra = 0 then s.jump (immTarget w imm s) else s)

/-- JZ.R (43 R210): condition a, target b. -/
def execJzR (w : Width) (a b : RegField) (s : State) : Result :=
  onRegs a b s fun ra rb => .next (if s.get ra = 0 then s.jump (regTarget w rb s) else s)

/-- JNZ.I (43 R211). -/
def execJnzI (w : Width) (a : RegField) (imm : Word) (s : State) : Result :=
  onReg a s fun ra => .next (if s.get ra = 0 then s else s.jump (immTarget w imm s))

/-- JNZ.R (43 R212): condition a, target b. -/
def execJnzR (w : Width) (a b : RegField) (s : State) : Result :=
  onRegs a b s fun ra rb => .next (if s.get ra = 0 then s else s.jump (regTarget w rb s))

end Sys2Proof.Machine
end

