-- ==== Sys2Proof/Machine/Move.lean ====
section
/-! DEFINITION. The Move family (41_move). Register addresses use all 64 bits, immediate addresses are zero-extended (R170). -/

namespace Sys2Proof.Machine

/-- MOV.RR (41 R171). -/
def execMovRR (w : Width) (a b : RegField) (s : State) : Result :=
  onRegs a b s fun ra rb => .next (s.writeLow ra w (low w (s.get rb)))

/-- MOV.RM (41 R172): load from `[x[b]]`. -/
def execMovRM (w : Width) (a b : RegField) (s : State) : Result :=
  onRegs a b s fun ra rb => loadReg ra (s.get rb) w s

/-- MOV.MR (41 R173): store `x[b]` to `[x[a]]`. -/
def execMovMR (w : Width) (a b : RegField) (s : State) : Result :=
  onRegs a b s fun ra rb => storeValue (s.get ra) w (s.get rb) s

/-- MOV.MM (41 R174): read `[x[b]]` into BUS, then write BUS to `[x[a]]`, both on the step's data device. -/
def execMovMM (w : Width) (a b : RegField) (s : State) : Result :=
  onRegs a b s fun ra rb =>
    loadThen s s.datId (s.get rb) w fun v t => storeThen (t.setBus v) s.datId (s.get ra) w (low w v) .next

/-- MOV.RI (41 R175). -/
def execMovRI (w : Width) (a : RegField) (imm : Word) (s : State) : Result :=
  onReg a s fun ra => .next (s.writeLow ra w imm)

/-- MOV.MI (41 R176): store the immediate to `[x[a]]`. -/
def execMovMI (w : Width) (a : RegField) (imm : Word) (s : State) : Result :=
  onReg a s fun ra => storeValue (s.get ra) w imm s

/-- MOV.RA (41 R177): load from the zero-extended immediate address. -/
def execMovRA (w : Width) (a : RegField) (imm : Word) (s : State) : Result :=
  onReg a s fun ra => loadReg ra (low w imm) w s

/-- MOV.AR (41 R178): store `x[a]` to the zero-extended immediate address. -/
def execMovAR (w : Width) (a : RegField) (imm : Word) (s : State) : Result :=
  onReg a s fun ra => storeValue (low w imm) w (s.get ra) s

end Sys2Proof.Machine
end

