-- ==== Sys2Proof/Machine/NopHalt.lean ====
section
/-! DEFINITION. NOP and HALT (40_step_nop_halt R150 to R152). -/

namespace Sys2Proof.Machine

/-- NOP (40 R150): no further effect. -/
def execNop (s : State) : Result := .next s

/-- HALT (40 R151): `RPF.C <- 1`; the step has not advanced RIP. The engine does not stop (R144, R152). -/
def execHalt (s : State) : Result := .next (s.setFlag flagC true)

end Sys2Proof.Machine
end

