-- ==== Sys2Proof/Machine/Reserved.lean ====
section
/-! DEFINITION. The reserved encodings (40_step_nop_halt R153 to R155): each raises UndefinedOpcode, and the step has consumed the bytes its length gives. -/

namespace Sys2Proof.Machine

/-- RESERVED.BITWISE (40 R153). -/
def execReservedBitwise (s : State) : Result := raiseUndefinedOpcode s

/-- RESERVED.STACK (40 R153). -/
def execReservedStack (s : State) : Result := raiseUndefinedOpcode s

/-- RESERVED.ARITH_B4 (40 R153). -/
def execReservedArithB4 (s : State) : Result := raiseUndefinedOpcode s

/-- RESERVED.ARITH_B8 (40 R153). -/
def execReservedArithB8 (s : State) : Result := raiseUndefinedOpcode s

/-- RESERVED.JUMP (40 R153). -/
def execReservedJump (s : State) : Result := raiseUndefinedOpcode s

/-- RESERVED.CAT7 (40 R154). -/
def execReservedCat7 (s : State) : Result := raiseUndefinedOpcode s

/-- RESERVED.INC15 (40 R155). -/
def execReservedInc15 (s : State) : Result := raiseUndefinedOpcode s

/-- RESERVED.DEC15 (40 R155). -/
def execReservedDec15 (s : State) : Result := raiseUndefinedOpcode s

end Sys2Proof.Machine
end

