-- ==== Sys2Proof/Machine/ShortForm.lean ====
section
/-! DEFINITION. The Short form (46_short_incdec): INC and DEC on all 64 bits, modulo 2^64, no flag. -/

namespace Sys2Proof.Machine

/-- INC (46 R251). -/
def execInc (r : RegField) (s : State) : Result :=
  onReg r s fun rr => .next (s.set rr (alu .inc .w64 (s.get rr) 0).result)

/-- DEC (46 R252). -/
def execDec (r : RegField) (s : State) : Result :=
  onReg r s fun rr => .next (s.set rr (alu .dec .w64 (s.get rr) 0).result)

end Sys2Proof.Machine
end

