-- ==== Sys2Proof/Machine/Stack.lean ====
section
/-! DEFINITION. The Stack family (42_stack): the fixed forms use FIXED_SP, the explicit forms the register of field b. -/

namespace Sys2Proof.Machine

/-- PUSHS (42 R191). -/
def execPushs (w : Width) (a : RegField) (s : State) : Result :=
  onReg a s fun ra => pushReg ra s.cfg.fixedSp w s

/-- POPS (42 R192). -/
def execPops (w : Width) (a : RegField) (s : State) : Result :=
  onReg a s fun ra => popReg ra s.cfg.fixedSp w s

/-- PUSH (42 R193). -/
def execPush (w : Width) (a b : RegField) (s : State) : Result :=
  onRegs a b s fun ra rb => pushReg ra rb w s

/-- POP (42 R194). -/
def execPop (w : Width) (a b : RegField) (s : State) : Result :=
  onRegs a b s fun ra rb => popReg ra rb w s

end Sys2Proof.Machine
end

