-- ==== Sys2Proof/Machine/Dispatch.lean ====
section
/-! DEFINITION. One arm per instruction: what each does to the state "on entry" (40_step_nop_halt, head of the file): RTX incremented, all its bytes fetched, RIP past them. -/

namespace Sys2Proof.Machine

def exec (i : Instr) (s : State) : Host.Outcome State Fault Refusal :=
  match i with
  | .nop => Sys2Proof.Machine.execNop s
  | .halt => Sys2Proof.Machine.execHalt s
  | .bitNot w a => Sys2Proof.Machine.execNot w a s
  | .bitAnd w a b => Sys2Proof.Machine.execAnd w a b s
  | .bitOr w a b => Sys2Proof.Machine.execOr w a b s
  | .bitXor w a b => Sys2Proof.Machine.execXor w a b s
  | .pushs w a => Sys2Proof.Machine.execPushs w a s
  | .pops w a => Sys2Proof.Machine.execPops w a s
  | .push w a b => Sys2Proof.Machine.execPush w a b s
  | .pop w a b => Sys2Proof.Machine.execPop w a b s
  | .inc r => Sys2Proof.Machine.execInc r s
  | .dec r => Sys2Proof.Machine.execDec r s
  | .movRR w a b => Sys2Proof.Machine.execMovRR w a b s
  | .movRM w a b => Sys2Proof.Machine.execMovRM w a b s
  | .movMR w a b => Sys2Proof.Machine.execMovMR w a b s
  | .movMM w a b => Sys2Proof.Machine.execMovMM w a b s
  | .movRI w a imm => Sys2Proof.Machine.execMovRI w a imm s
  | .movMI w a imm => Sys2Proof.Machine.execMovMI w a imm s
  | .movRA w a imm => Sys2Proof.Machine.execMovRA w a imm s
  | .movAR w a imm => Sys2Proof.Machine.execMovAR w a imm s
  | .add w a b => Sys2Proof.Machine.execAdd w a b s
  | .sub w a b => Sys2Proof.Machine.execSub w a b s
  | .mul w a b => Sys2Proof.Machine.execMul w a b s
  | .div w a b => Sys2Proof.Machine.execDiv w a b s
  | .mod w a b => Sys2Proof.Machine.execMod w a b s
  | .jmpI w imm => Sys2Proof.Machine.execJmpI w imm s
  | .jmpR w a => Sys2Proof.Machine.execJmpR w a s
  | .jzI w a imm => Sys2Proof.Machine.execJzI w a imm s
  | .jzR w a b => Sys2Proof.Machine.execJzR w a b s
  | .jnzI w a imm => Sys2Proof.Machine.execJnzI w a imm s
  | .jnzR w a b => Sys2Proof.Machine.execJnzR w a b s
  | .reservedBitwise _ _ => Sys2Proof.Machine.execReservedBitwise s
  | .reservedStack _ _ => Sys2Proof.Machine.execReservedStack s
  | .reservedArithB4 _ => Sys2Proof.Machine.execReservedArithB4 s
  | .reservedArithB8 _ _ => Sys2Proof.Machine.execReservedArithB8 s
  | .reservedJump _ _ => Sys2Proof.Machine.execReservedJump s
  | .reservedCat7 _ _ => Sys2Proof.Machine.execReservedCat7 s
  | .reservedInc15 => Sys2Proof.Machine.execReservedInc15 s
  | .reservedDec15 => Sys2Proof.Machine.execReservedDec15 s

end Sys2Proof.Machine
end

