-- ==== Sys2Proof/Machine/Fetch.lean ====
section
/-! DEFINITION. The common part of a step (40_step_nop_halt R141 lines 1 to 20): the tick, the two devices, the fetches, RIP over the bytes fetched, decoding. -/

namespace Sys2Proof.Machine

/-- Line 1: "Increment RTX (tick counter) unconditionally" (10_state R39). -/
def State.tick (s : State) : State := s.set .rtx (s.get .rtx + 1)

/-- RIP over `n` fetched bytes, modulo 2^64 (10_state R29). -/
def State.advanceRip (s : State) (n : Nat) : State := s.set .rip (s.get .rip + BitVec.ofNat 64 n)

/-- One fetch from the command device at the current RIP: the value, and the device with its latch (00_scope R14). -/
def fetchFrom (cmd : Device) (s : State) (w : Width) : Word × Device := cmd.read (s.get .rip) w

/-- The opcode byte of a one-byte fetch. -/
def toByte (v : Word) : Byte := v.setWidth 8

/-- Lines 19 and 20: the immediate, where the form has one; the instruction, and the state its effect runs in. `cmd` is the
command device as the fetches so far have left it. -/
def fetchImmediate (cmd : Device) (op operand : Byte) (s : State) : Instr × State :=
  if hasImmediate op then
    (decodeParts op operand (fetchFrom cmd s (widthField op)).1,
      (s.putDevice s.cmdId (fetchFrom cmd s (widthField op)).2).advanceRip (widthField op).bytes)
  else (decodeParts op operand 0, s.putDevice s.cmdId cmd)

/-- Lines 8 to 18: past the opcode byte, and the operand byte where the category has one. -/
def fetchOperand (cmd : Device) (op : Byte) (s : State) : Instr × State :=
  if hasOperand op then
    fetchImmediate (fetchFrom cmd s .w8).2 op (toByte (fetchFrom cmd s .w8).1) (s.advanceRip 1)
  else (decodeParts op 0 0, s.putDevice s.cmdId cmd)

/-- Lines 3 to 20: the opcode byte; the halt sentinel leaves RIP where it is (40 R151). -/
def fetchOpcode (cmd : Device) (s : State) : Instr × State :=
  if isHalt (toByte (fetchFrom cmd s .w8).1) then (.halt, s.putDevice s.cmdId (fetchFrom cmd s .w8).2)
  else fetchOperand (fetchFrom cmd s .w8).2 (toByte (fetchFrom cmd s .w8).1) (s.advanceRip 1)

/-- Lines 1 to 20: the instruction of the step and the state its effect runs in, or the model's one fault: a step needs a
device under RDC and under RDR (20_memory R75, 60 R276). -/
def State.fetch (s : State) : Except Fault (Instr × State) :=
  match s.device s.cmdId, s.device s.datId with
  | none, _ => .error (.unmappedDevice .command s.cmdId)
  | some _, none => .error (.unmappedDevice .data s.datId)
  | some cmd, some _ => .ok (fetchOpcode cmd s.tick)

/-- Room for the ten bytes an instruction can have, from an address on, in the device the host loads (70_reset R297). -/
def Device.withBytes (d : Device) (addr : Nat) (bs : List Byte) : Device :=
  { d with cap := max d.cap (addr + bs.length), store := Memory.load d.store addr bs }

/-- The device a load goes to: the installed one, or a Memory the host installs for it. -/
def State.loadTarget (s : State) (id : Nat) : Device := (s.device id).getD (Device.ofCapacity 0)

/-- Install an empty Memory under an id that has no device (20_memory R75: the step needs one). -/
def State.ensureDevice (s : State) (id : Nat) : State :=
  match s.device id with
  | some _ => s
  | none => { s with devices := s.devices.insert id (Device.ofCapacity 0) }

/-- The host's load of a program's bytes at RIP in the command device, with a device under RDR as well (log 3). -/
def State.withCode (s : State) (bs : List Byte) : State :=
  let t : State := { s with devices := s.devices.insert s.cmdId ((s.loadTarget s.cmdId).withBytes (s.get .rip).toNat bs) }
  t.ensureDevice t.datId

end Sys2Proof.Machine
end

