-- ==== Sys2Proof/Machine/Step.lean ====
section
/-! DEFINITION. One step (40_step_nop_halt R141): fetch, then the instruction's effect. The engine looks at no flag and at no latch first (R144). -/

namespace Sys2Proof.Machine

/-- One invocation of `step()` (40 R140, R141). -/
def step (s : State) : Host.Outcome State Fault Refusal :=
  match s.fetch with
  | .error f => .fault f
  | .ok (i, t) => exec i t

/-- The state with an instruction word of the opcode table where the step fetches next: its bytes at RIP in the command
device. Where RDC or RDR names no device, a Memory is installed there, and the device is given room for the bytes: the
machine is loaded by its host before the first step (70_reset R297, R300; log 3). -/
def State.withFetchWord (s : State) (nbits w : Nat) : State := s.withCode (tableBytes nbits w)

end Sys2Proof.Machine
end

