-- ==== Sys2Proof/Machine/Fsm.lean ====
section
/-! DEFINITION. The step as the finite-state machine of 40_step_nop_halt R142: one phase at a time, the step-local values in the phase. Only its IDLE-to-IDLE runs are visible; they are the step (log 12). -/

namespace Sys2Proof.Machine

/-- The phases of R142, each with the step-local values (00_scope R16) it needs. -/
inductive Phase where
  /-- Waits for the host's `step` request. -/
  | idle
  /-- Lines 1 to 3. -/
  | tick
  /-- Line 4. -/
  | fetchOp
  /-- Lines 6 and 7. -/
  | halt
  /-- Lines 8 to 15. -/
  | decode (op : Byte)
  /-- Lines 16 to 18. -/
  | fetchOperand (op : Byte)
  /-- Line 20. -/
  | fetchImm (op operand : Byte)
  /-- Lines 21 and 22. -/
  | check (i : Instr)
  /-- Line 23. -/
  | exec (i : Instr)
deriving DecidableEq, Repr

/-- A phase and the machine's state in it. -/
abbrev PhaseResult := Host.Outcome (Phase × State) Fault Refusal

/-- A reserved sub-instruction of the Bitwise, Stack, Arithmetic or Jump category (30_encoding R121). -/
def reservedSub (op : Byte) : Bool :=
  ((catField op == 0b001 || catField op == 0b010) && (subField op).getLsbD 2)
    || (catField op == 0b101 && decide (5 ≤ (subField op).toNat))
    || (catField op == 0b110 && (subField op == 0b010 || subField op == 0b011))

/-- One fetch of a phase: the command device at the current RIP. -/
def phaseFetch (s : State) (w : Width) (k : Word → State → PhaseResult) : PhaseResult :=
  match s.device s.cmdId with
  | none => .fault (.unmappedDevice .command s.cmdId)
  | some cmd => k (fetchFrom cmd s w).1 (s.putDevice s.cmdId (fetchFrom cmd s w).2)

/-- DECODE, by category: NOP and the reserved category end the step, the short form executes, the others fetch on. -/
def decodePhase (op : Byte) (s : State) : PhaseResult :=
  if catField op = 0b000 then .next (.idle, s)
  else if catField op = 0b011 then
    (if shortField op = none then .next (.idle, s.raise) else .next (.exec (decodeParts op 0 0), s))
  else if catField op = 0b111 then .next (.idle, s.raise)
  else .next (.fetchOperand op, s)

/-- EXEC: the effect of the instruction, then IDLE. -/
def execPhase (i : Instr) (s : State) : PhaseResult :=
  match Sys2Proof.Machine.exec i s with
  | .next t => .next (.idle, t)
  | .fault f => .fault f
  | .refused r => .refused r

/-- One phase transition (R142). -/
def phaseStep (p : Phase) (s : State) : PhaseResult :=
  match p with
  | .idle => .next (.tick, s)
  | .tick =>
    match s.device s.cmdId, s.device s.datId with
    | none, _ => .fault (.unmappedDevice .command s.cmdId)
    | some _, none => .fault (.unmappedDevice .data s.datId)
    | some _, some _ => .next (.fetchOp, s.tick)
  | .fetchOp => phaseFetch s .w8 fun v t => .next (if isHalt (toByte v) then .halt else .decode (toByte v), t)
  | .halt => .next (.idle, s.setFlag flagC true)
  | .decode op => decodePhase op (s.advanceRip 1)
  | .fetchOperand op =>
    phaseFetch s .w8 fun v t =>
      if reservedSub op then .next (.idle, (t.advanceRip 1).raise)
      else if hasImmediate op then .next (.fetchImm op (toByte v), t.advanceRip 1)
      else .next (.check (decodeParts op (toByte v) 0), t.advanceRip 1)
  | .fetchImm op operand =>
    phaseFetch s (widthField op) fun v t => .next (.check (decodeParts op operand v), t.advanceRip (widthField op).bytes)
  | .check i => if i.badReg then .next (.idle, s.raise) else .next (.exec i, s)
  | .exec i => execPhase i s

/-- At most `k` phase transitions, stopping when the machine is back in IDLE. -/
def phaseRun : Nat → Phase → State → PhaseResult
  | 0, p, s => .next (p, s)
  | k + 1, p, s =>
    match phaseStep p s with
    | .next (.idle, t) => .next (.idle, t)
    | .next (q, t) => phaseRun k q t
    | .fault f => .fault f
    | .refused r => .refused r

end Sys2Proof.Machine
end

