-- ==== Sys2Proof/Machine/HostPort.lean ====
section
/-! DEFINITION. The host's side (10_state R47, 20_memory R78, 70_reset R290 to R300): what it may do before the first step and between steps, and what it observes. None of it is part of a step. -/

namespace Sys2Proof.Machine

/-- The register names (10_state R21), for diagnostics only. -/
def Reg.name : Reg → String
  | .rm0 => "RM0"
  | .rm1 => "RM1"
  | .rm2 => "RM2"
  | .rm3 => "RM3"
  | .rs0 => "RS0"
  | .rs1 => "RS1"
  | .rs2 => "RS2"
  | .rs3 => "RS3"
  | .rip => "RIP"
  | .rdc => "RDC"
  | .rdr => "RDR"
  | .rpf => "RPF"
  | .rtx => "RTX"
  | .rlm => "RLM"
  | .rhm => "RHM"

/-- "snapshot of all names/values for diagnostics" (R47): a read with no side effect. -/
def State.snapshot (s : State) : List (String × Word) := Reg.all.map fun r => (Reg.name r, s.get r)

/-- The register file's "bulk reset to zero" (70_reset R290, R291): the fifteen registers only; device contents, latches and BUS
survive it. The host may invoke it between steps. -/
def State.bulkReset (s : State) : State := { s with regs := RegFile.zero }

/-- Install a device before the first step (20_memory R78): a duplicate id overwrites; an id or a capacity outside the ranges of
00_scope R7 is refused. -/
def State.install (s : State) (id : Nat) (d : Device) : Option State :=
  if id < 2 ^ 64 ∧ d.cap < 2 ^ 64 then some { s with devices := s.devices.insert id d } else none

/-- Load bytes into an installed Memory before the first step (70_reset R297); bytes that do not fit are refused. -/
def State.loadBytes (s : State) (id addr : Nat) (bs : List Byte) : Option State :=
  match s.device id with
  | some d =>
    if d.kind = .memory ∧ addr + bs.length ≤ d.cap then some (s.putDevice id { d with store := Memory.load d.store addr bs })
    else none
  | none => none

/-- Prime a register before the first step (70_reset R297, R300). -/
def State.prime (s : State) (r : Reg) (v : Word) : State := s.set r v

/-- Completion as the host observes it (40 R148, 70_reset R298). -/
def State.completed (s : State) : Bool := s.flag flagC

/-- What the host may do once the run has begun (70_reset R297; 92 D30): step, or bulk reset. Pacing changes nothing. -/
inductive HostMove where
  | step
  | bulkReset
deriving DecidableEq, Repr

/-- One host move. -/
def hostMove (m : HostMove) (s : State) : Result :=
  match m with
  | .step => Sys2Proof.Machine.step s
  | .bulkReset => .next s.bulkReset

/-- A run as the host drives it (40 R148, 70_reset R299): at most `k` steps, stopping at the first step boundary with RPF.C set. The
boundary before the first step does not count: a run begun with RPF.C = 1, primed or resumed after HALT, takes a step before
the test (DESIGN CHOICE, log 16). -/
def runToHalt : Nat → State → Result
  | 0, s => .next s
  | k + 1, s =>
    match Sys2Proof.Machine.step s with
    | .next t => if t.completed then .next t else runToHalt k t
    | .fault f => .fault f
    | .refused r => .refused r

end Sys2Proof.Machine
end

