-- ==== Sys2Proof/Safety.lean ====
section
/-! DEFINITION. The terms claims use: what of the machine can be observed, when a step is safe, what an instruction may write, and big-endian and sub-width values said in arithmetic. -/

namespace Sys2Proof.Machine

/-! ## Observing the devices -/

/-- The byte at an address of an installed device, if the address is backed (20_memory R71). -/
def State.byteAt (s : State) (id a : Nat) : Option Byte :=
  match s.device id with
  | some d => if a < d.cap then some (Memory.read d.store a) else none
  | none => none

/-- KIND of the device under an id. -/
def State.kindAt (s : State) (id : Nat) : Option Kind := (s.device id).map Device.kind

/-- CAP of the device under an id. -/
def State.capAt (s : State) (id : Nat) : Option Nat := (s.device id).map Device.cap

/-- FAULT of the device under an id (10_state R45). -/
def State.faultAt (s : State) (id : Nat) : Option Bool := (s.device id).map Device.fault

/-- The `n` bytes from an address on, 0x00 where there is no storage (20_memory R63). -/
def State.lanes (s : State) (id a n : Nat) : List Byte := (List.range n).map fun k => (s.byteAt id (a + k)).getD 0x00

/-- An access of `n` bytes at `a` leaves the storage of a device of capacity `cap` (20_memory R63): this is when it faults. -/
def outside (cap a n : Nat) : Bool := decide (cap < a + n)

/-- The address byte `k` of an instruction is fetched at (40 R145): the opcode byte at RIP, the operand byte at RIP + 1 and the
immediate's access at RIP + 2, both modulo 2^64; the lanes of that one access do not wrap. -/
def fetchAddr (rip : Word) : Nat → Nat
  | 0 => rip.toNat
  | 1 => (rip.toNat + 1) % 2 ^ 64
  | k + 2 => (rip.toNat + 2) % 2 ^ 64 + k

/-- The ten bytes the fetches of a step can reach, in the order of the instruction; 0x00 where there is no storage. -/
def State.fetchBytes (s : State) : List Byte :=
  (List.range 10).map fun k => (s.byteAt s.cmdId (fetchAddr (s.get .rip) k)).getD 0x00

/-- One of the first `n` bytes of an instruction at `rip` is outside the storage of a device of capacity `cap`. -/
def fetchOutsideAny (cap : Nat) (rip : Word) (n : Nat) : Bool := (List.range n).any fun k => decide (cap ≤ fetchAddr rip k)

/-! ## Safe steps and runs -/

/-- The precondition of a step (20_memory R75): a device is installed under RDC and under RDR. -/
def State.mapped (s : State) : Bool := (s.device s.cmdId).isSome && (s.device s.datId).isSome

/-- A safe step: it has a next state. -/
def safeStep (s : State) : Prop := ∃ t, step s = .next t

/-- The state an instruction's effect runs in when all its bytes are backed (40 R141, R146): RTX counted, RIP past the instruction. -/
def State.entered (s : State) (i : Instr) : State := s.tick.advanceRip i.advance

/-! ## What an instruction may write -/

end Sys2Proof.Machine

namespace Sys2Proof

open Sys2Proof.Machine

/-- The registers an instruction's fields or its addressing write: destinations, stack pointers, RIP for a jump. RPF's flags
are said by the claims that name them. -/
def Instr.dests (cfg : Config) : Instr → List Reg
  | .bitNot _ a | .bitAnd _ a _ | .bitOr _ a _ | .bitXor _ a _ | .add _ a _ | .sub _ a _ | .mul _ a _ | .div _ a _ | .mod _ a _
  | .movRR _ a _ | .movRM _ a _ | .movRI _ a _ | .movRA _ a _ | .inc a | .dec a => a.toList
  | .pushs _ _ => [cfg.fixedSp]
  | .pops _ a => cfg.fixedSp :: a.toList
  | .push _ _ b => b.toList
  | .pop _ a b => a.toList ++ b.toList
  | .jmpI _ _ | .jmpR _ _ | .jzI _ _ _ | .jzR _ _ _ | .jnzI _ _ _ | .jnzR _ _ _ => [.rip]
  | .nop | .halt | .movMR _ _ _ | .movMM _ _ _ | .movMI _ _ _ | .movAR _ _ _
  | .reservedBitwise _ _ | .reservedStack _ _ | .reservedArithB4 _ | .reservedArithB8 _ _ | .reservedJump _ _
  | .reservedCat7 _ _ | .reservedInc15 | .reservedDec15 => []

/-- An instruction of the Arithmetic category, the only writers of RPF.O (10_state R33). -/
def Instr.arithmetic (i : Instr) : Bool := [Row.add, .sub, .mul, .div, .mod].contains i.row

/-- A reserved row of the opcode table (30_encoding R121, R122, R124). -/
def Instr.reserved (i : Instr) : Bool :=
  [Row.reservedBitwise, .reservedStack, .reservedArithB4, .reservedArithB8, .reservedJump, .reservedCat7, .reservedInc15,
    .reservedDec15].contains i.row

/-- DIV or MOD with a zero divisor in this state (45_arithmetic R236). -/
def Instr.dividesByZero (i : Instr) (s : State) : Bool :=
  [Row.div, .mod].contains i.row && i.usedFields.getLast?.any fun b => b.any fun rb => s.get rb == 0

/-- The instruction raises UndefinedOpcode or DivideByZero in this state (60_exceptions R261, R262). -/
def Instr.raises (i : Instr) (s : State) : Bool := i.reserved || i.badReg || i.dividesByZero s

/-- Where an instruction stores: the address it computes and the width, in the state its effect runs in; nothing for a form
that stores nothing, or that a 15 in a used field turns into a reserved encoding. -/
def Instr.storeSpan (i : Instr) (s : State) : Option (Word × Width) :=
  match i with
  | .movMR w a b | .movMM w a b => a.bind fun ra => b.map fun _ => (s.get ra, w)
  | .movMI w a _ => a.map fun ra => (s.get ra, w)
  | .movAR w a imm => a.map fun _ => (low w imm, w)
  | .pushs w a => a.map fun _ => (s.get s.cfg.fixedSp, w)
  | .push w a b => a.bind fun _ => b.map fun rb => (s.get rb, w)
  | .nop | .halt | .inc _ | .dec _ | .bitNot _ _ | .bitAnd _ _ _ | .bitOr _ _ _ | .bitXor _ _ _ | .pops _ _ | .pop _ _ _
  | .movRR _ _ _ | .movRM _ _ _ | .movRI _ _ _ | .movRA _ _ _
  | .add _ _ _ | .sub _ _ _ | .mul _ _ _ | .div _ _ _ | .mod _ _ _
  | .jmpI _ _ | .jmpR _ _ | .jzI _ _ _ | .jzR _ _ _ | .jnzI _ _ _ | .jnzR _ _ _
  | .reservedBitwise _ _ | .reservedStack _ _ | .reservedArithB4 _ | .reservedArithB8 _ _ | .reservedJump _ _
  | .reservedCat7 _ _ | .reservedInc15 | .reservedDec15 => none

/-- Address `x` of device `id` is one of the bytes the instruction stores to. -/
def Instr.storesTo (i : Instr) (s : State) (id x : Nat) : Prop :=
  ∃ (addr : Word) (w : Width), i.storeSpan s = some (addr, w) ∧ id = s.datId ∧ addr.toNat ≤ x ∧ x < addr.toNat + w.bytes

end Sys2Proof

namespace Sys2Proof.Machine

/-- The two states agree but for the listed registers and BUS, which the spec leaves unspecified where it is not staged
(10_state R43; log 4). -/
def OnlyRegs (s t : State) (rs : List Reg) : Prop :=
  (∀ r, r ∉ rs → t.get r = s.get r) ∧ t.devices = s.devices ∧ t.cfg = s.cfg

/-- As `OnlyRegs`, where of the devices only the data device's latch may differ, and holds `latch`: what a load leaves
(20_memory R61: "A read never changes STORE(d)"). -/
def OnlyRegsAndLatch (s t : State) (rs : List Reg) (latch : Bool) : Prop :=
  (∀ r, r ∉ rs → t.get r = s.get r) ∧ t.cfg = s.cfg
    ∧ (∀ id x, t.byteAt id x = s.byteAt id x)
    ∧ (∀ id, t.kindAt id = s.kindAt id ∧ t.capAt id = s.capAt id)
    ∧ (∀ id, id ≠ s.datId → t.faultAt id = s.faultAt id)
    ∧ t.faultAt s.datId = some latch

/-- RPF differs in flag `k` alone, which holds `f`. -/
def OnlyFlag (s t : State) (k : Nat) (f : Bool) : Prop :=
  t.flag k = f ∧ ∀ j, j ≠ k → t.flag j = s.flag j

/-! ## Values said in arithmetic -/

/-- `new` is `old` with its low `n` bytes replaced by those of the number `v` (in two's complement where `v` is negative). -/
def LowReplaced (w : Width) (old new : Word) (v : Int) : Prop :=
  (new.toNat : Int) % 2 ^ w.bits = v % 2 ^ w.bits ∧ new.toNat / 2 ^ w.bits = old.toNat / 2 ^ w.bits

/-- The number that bytes spell, the first the most significant. -/
def beNat (bs : List Byte) : Nat := bs.foldl (fun acc b => acc * 256 + b.toNat) 0

/-- The two's-complement value of the low `n` bytes of a number (30_encoding R110). -/
def signedLow (w : Width) (v : Word) : Int :=
  if v.toNat % 2 ^ w.bits < 2 ^ (w.bits - 1) then ((v.toNat % 2 ^ w.bits : Nat) : Int)
  else ((v.toNat % 2 ^ w.bits : Nat) : Int) - 2 ^ w.bits

/-- A store of the low `n` bytes of `v` at `a` on the data device, from `s` to `t`, which leaves the data device's latch `latch`
(20_memory R64): a Memory takes the lanes that are backed, most significant byte first, a ConstantMemory takes none; every
other byte of every device, every kind, capacity and other latch is as before. -/
def Stored (s t : State) (a : Nat) (w : Width) (v : Nat) (latch : Bool) : Prop :=
  (∀ k, k < w.bytes → s.kindAt s.datId = some .memory → (s.byteAt s.datId (a + k)).isSome →
      t.byteAt s.datId (a + k) = some (BitVec.ofNat 8 (v / 256 ^ (w.bytes - 1 - k))))
    ∧ (∀ id x, ¬(id = s.datId ∧ a ≤ x ∧ x < a + w.bytes ∧ s.kindAt id = some .memory) → t.byteAt id x = s.byteAt id x)
    ∧ (∀ id, t.kindAt id = s.kindAt id ∧ t.capAt id = s.capAt id)
    ∧ (∀ id, id ≠ s.datId → t.faultAt id = s.faultAt id)
    ∧ t.faultAt s.datId = some latch

/-- The latch a store of `n` bytes at `a` leaves on a device whose latch was `before` (20_memory R63, R64). -/
def storeLatch (d : Device) (before : Bool) (a n : Nat) : Bool :=
  before || decide (d.kind = .constantMemory) || outside d.cap a n

/-- A conditional jump whose test fails in this state (43_jump R203, R204): JZ on a register that is not zero, JNZ on one that is. -/
def NotTaken (w : Width) (a b : Reg) (imm : Word) (i : Instr) (s : State) : Prop :=
  (i = .jzI w (some a) imm ∨ i = .jzR w (some a) (some b)) ∧ s.get a ≠ 0
    ∨ (i = .jnzI w (some a) imm ∨ i = .jnzR w (some a) (some b)) ∧ s.get a = 0

/-! ## What is hidden from programs -/

/-- The state with every device latch cleared: what a program can depend on of the devices (10_state R45). -/
def State.withoutLatches (s : State) : State := { s with devices := s.devices.map fun e => (e.1, { e.2 with fault := false }) }

/-- The state with BUS cleared: its value at a step boundary influences nothing (10_state R43). -/
def State.withoutBus (s : State) : State := { s with bus := 0 }

/-- A step's outcome seen through a projection of the state. -/
def mapNext (f : State → State) : Result → Result
  | .next t => .next (f t)
  | .fault e => .fault e
  | .refused e => .refused e

/-- Nothing of the devices but STORE and FAULT differs (10_state R44, R49): the same ids in the same order, each with its kind
and capacity; a ConstantMemory keeps its content; a set latch stays set. -/
def SameInstallation (s t : State) : Prop :=
  t.cfg = s.cfg
    ∧ t.devices.map (fun e => (e.1, e.2.kind, e.2.cap)) = s.devices.map (fun e => (e.1, e.2.kind, e.2.cap))
    ∧ (∀ id x, s.kindAt id = some .constantMemory → t.byteAt id x = s.byteAt id x)
    ∧ (∀ id, s.faultAt id = some true → t.faultAt id = some true)

end Sys2Proof.Machine
end

