-- ==== Sys2Proof/Certificates/Slice0/Obligations.lean ====
section
/-! DEFINITION. The statements for the provers. Each docstring says which rule of spec/ it formalises, and which clause rests on a decision the spec marks as its own (92_eei_decisions D n) or on a log entry. -/

open Sys2Proof Sys2Proof.Machine

/-! ## Encoding -/

/-- The encoder is the inverse of the decoder (30_encoding R130): with every operand at every value the encoding admits. -/
def Obligations.EncodeThenDecode : Prop :=
  ∀ (i : Instr) (rest : List Byte), i.wellFormed = true → decode (encode i ++ rest) = .ok (i, rest)

/-- The length of an instruction is 1, 2, 3, 4, 6 or 10 and a function of the opcode byte alone, the one 30_encoding R104 writes out:
`cat` is bits 7 to 5, `sub` bits 4 to 2 and `n` two to the power of bits 1 to 0 of the opcode byte. -/
def Obligations.LengthIsFixedByOpcode : Prop :=
  ∀ (op operand : Byte) (imm : Word) (cat sub n : Nat), cat = op.toNat / 32 → sub = op.toNat / 4 % 8 → n = 2 ^ (op.toNat % 4) →
    (decodeParts op operand imm).len =
        (if op = 0xFF then 1
        else if cat = 0 then 1
        else if cat = 3 then 1
        else if cat = 7 then 1
        else if cat = 4 ∧ 4 ≤ sub then 2 + n
        else if cat = 6 ∧ (sub = 0 ∨ sub = 4 ∨ sub = 6) then 2 + n
        else 2)
      ∧ (decodeParts op operand imm).len ∈ [1, 2, 3, 4, 6, 10]

/-- The decoder is total (30_encoding R126): ten bytes always hold an instruction, and exactly its length is consumed. -/
def Obligations.DecoderIsTotal : Prop :=
  ∀ bs : List Byte, 10 ≤ bs.length → ∃ i, decode bs = .ok (i, bs.drop i.len)

/-- The decoded row is the row of the opcode table that matches the opcode byte with the most mask bits, and no other matching row
has as many (30_encoding R116). -/
def Obligations.DecoderFollowsTable : Prop :=
  ∀ (op operand : Byte) (imm : Word), ∃ r ∈ opcodeTable,
    r.covers op = true ∧ r.row = (decodeParts op operand imm).row
      ∧ ∀ q ∈ opcodeTable, q.covers op = true → q ≠ r → q.weight < r.weight

/-- Ignored fields have no effect (30_encoding R112, the spec's decision D27): field b of the one-register forms; the whole
operand byte of JMP.I and of a reserved sub-instruction. -/
def Obligations.IgnoredFieldsHaveNoEffect : Prop :=
  ∀ (op x y : Byte) (imm : Word),
    ((decodeParts op x imm).row ∈ [Row.not, .pushs, .pops, .movRI, .movMI, .movRA, .movAR, .jmpR, .jzI, .jnzI] →
        x.extractLsb' 4 4 = y.extractLsb' 4 4 → decodeParts op x imm = decodeParts op y imm)
      ∧ ((decodeParts op x imm).row ∈
            [Row.jmpI, .reservedBitwise, .reservedStack, .reservedArithB4, .reservedArithB8, .reservedJump] →
          decodeParts op x imm = decodeParts op y imm)

/-- Some words written out from the spec's encodings (95_test_vectors) decode to the instructions they stand for. -/
def Obligations.SpecWordsDecode : Prop :=
  decode [0xA3, 0x01] = .ok (.add .w64 (some .rm0) (some .rm1), [])
    ∧ decode [0x91, 0x10, 0xAB, 0xCD] = .ok (.movRI .w16 (some .rm1) 0xABCD, [])
    ∧ decode [0xD8, 0x10, 0xFD] = .ok (.jnzI .w8 (some .rm1) 0xFD, [])
    ∧ decode [0x4D, 0x35] = .ok (.pop .w16 (some .rm3) (some .rs1), [])
    ∧ decode [0x7C] = .ok (.dec (some .rtx), [])
    ∧ decode [0xFF] = .ok (.halt, [])

/-! ## The step -/

/-- A step runs the decoded instruction (40_step_nop_halt R141): where the bytes at RIP in the command device are an instruction
(its ignored fields may hold anything), the step is that instruction's effect on the state with RTX counted and RIP past it. -/
def Obligations.StepRunsDecodedInstruction : Prop :=
  ∀ (s : State) (i : Instr) (bs : List Byte), s.wf = true → s.mapped = true → decode bs = .ok (i, []) →
    (∀ k, k < bs.length → s.byteAt s.cmdId ((s.get .rip).toNat + k) = bs[k]?) → step s = exec i (s.entered i)

/-- A step anywhere (40 R145, R156; 20_memory R63, the spec's decision D18): bytes outside the command device read 0x00 and set its
latch, and what they spell is executed. RIP is any value: the operand byte's address and the immediate's wrap modulo 2^64, the
lanes of the immediate's one access do not (R145; decisions D24 and D29). -/
def Obligations.FetchReadsZeroOutside : Prop :=
  ∀ (s : State) (d : Device), s.mapped = true → s.device s.cmdId = some d →
    ∃ i rest t, decode s.fetchBytes = .ok (i, rest) ∧ step s = exec i t
      ∧ (∀ r, t.get r = (s.entered i).get r) ∧ t.cfg = s.cfg
      ∧ (∀ id x, t.byteAt id x = s.byteAt id x)
      ∧ (∀ id, t.kindAt id = s.kindAt id ∧ t.capAt id = s.capAt id)
      ∧ (∀ id, id ≠ s.cmdId → t.faultAt id = s.faultAt id)
      ∧ t.faultAt s.cmdId = some (d.fault || fetchOutsideAny d.cap (s.get .rip) i.len)

/-- The bookkeeping of a step, whatever it fetches (40 R141, R146; 10_state R29, R39; the wrap modulo 2^64 is the spec's decision D24):
before the effect RTX has counted, RIP is past the instruction (HALT leaves it), every other register is as it was. -/
def Obligations.FetchBookkeeping : Prop :=
  ∀ (s t : State) (i : Instr), s.fetch = .ok (i, t) →
    t.get .rtx = s.get .rtx + 1 ∧ t.get .rip = s.get .rip + BitVec.ofNat 64 i.advance
      ∧ (∀ r, r ≠ .rtx → r ≠ .rip → t.get r = s.get r) ∧ t.cfg = s.cfg ∧ ∀ id x, t.byteAt id x = s.byteAt id x

/-- Every state that satisfies the precondition of a step has exactly one successor (40 R143). -/
def Obligations.MappedStepHasSuccessor : Prop :=
  ∀ s : State, s.mapped = true → ∃ t, step s = .next t ∧ ∀ u, step s = .next u → u = t

/-- A step whose precondition fails reports UnmappedDevice (20_memory R75, 60 R276; the spec's decision D19; log 5). -/
def Obligations.UnmappedStepFaults : Prop :=
  ∀ s : State,
    (s.device s.cmdId = none → step s = .fault (.unmappedDevice .command s.cmdId))
      ∧ (∀ d, s.device s.cmdId = some d → s.device s.datId = none → step s = .fault (.unmappedDevice .data s.datId))

/-- The step is the finite-state machine run from IDLE to IDLE (40 R142): eight phase transitions are enough for every step. That the
step has these phases is the spec's decision D23 (log 10); their type beside the step is the model's own choice (log 12, DESIGN
CHOICE). -/
def Obligations.PhasesRunTheStep : Prop :=
  ∀ s : State, phaseRun 8 .idle s =
    match step s with
    | .next t => .next (.idle, t)
    | .fault f => .fault f
    | .refused r => .refused r

/-! ## Invariants and whole-machine rules -/

/-- Every step keeps the canonical form: device ids rising and below 2^64, capacities below 2^64, stores sorted, without blank
cells, within the capacity (00_scope R7; log 7). -/
def Obligations.StepKeepsWellFormed : Prop :=
  ∀ s t : State, s.wf = true → step s = .next t → t.wf = true

/-- The state after reset has the canonical form. The form (log 7) and the empty device map of State.reset (log 2) are the model's
own choices, both DESIGN CHOICE, no rule of the spec; machines with devices are said by HostKeepsWellFormed. -/
def Obligations.ResetIsWellFormed : Prop := State.reset.wf = true

/-- What the host does keeps the canonical form (70_reset R297; 20_memory R78): from any device map in that form, construction does;
installing a well-formed device, loading bytes, priming a register and the bulk reset do. The form is log 7, the host's definitions
are logs 9 and 14: the model's own choices, DESIGN CHOICE. -/
def Obligations.HostKeepsWellFormed : Prop :=
  (∀ (cfg : Config) (m : DeviceMap), m.wf = true → (State.construct cfg m).wf = true)
    ∧ (∀ (s t : State) (id : Nat) (d : Device), s.wf = true → d.wf = true → s.install id d = some t → t.wf = true)
    ∧ (∀ (s t : State) (id addr : Nat) (bs : List Byte), s.wf = true → s.loadBytes id addr bs = some t →
        t.wf = true ∧ (∀ k, k < bs.length → t.byteAt id (addr + k) = bs[k]?)
          ∧ ∀ j x, ¬(j = id ∧ addr ≤ x ∧ x < addr + bs.length) → t.byteAt j x = s.byteAt j x)
    ∧ ∀ (s : State) (r : Reg) (v : Word), s.wf = true → (s.prime r v).wf = true ∧ s.bulkReset.wf = true

/-- No step changes what is installed (10_state R44, R45, R49; 20_memory R64, R78): ids, kinds and capacities, FIXED_SP, a
ConstantMemory's content; and no step clears a device latch. -/
def Obligations.StepKeepsInstallation : Prop :=
  ∀ s t : State, step s = .next t → SameInstallation s t

/-- Device latches are invisible to the machine (10_state R45, 60 R264): a step does the same, latches apart, whatever the latches hold. -/
def Obligations.LatchesAreInvisible : Prop :=
  ∀ s : State, mapNext State.withoutLatches (step s) = mapNext State.withoutLatches (step s.withoutLatches)

/-- BUS at a step boundary influences nothing (10_state R43): a step does the same, BUS apart, whatever BUS holds. -/
def Obligations.BusIsInvisible : Prop :=
  ∀ (s : State) (b : Word), mapNext State.withoutBus (step { s with bus := b }) = mapNext State.withoutBus (step s)

/-- The register frame, over all instructions: a register that is no destination, stack pointer or jump target of the instruction
keeps its value (10_state R21, R23, R37, R38). RPF is said by RpfBits. -/
def Obligations.RegisterFrame : Prop :=
  ∀ (i : Instr) (s t : State) (r : Reg), exec i s = .next t → r ∉ i.dests s.cfg → r ≠ .rpf → t.get r = s.get r

/-- RPF, over all instructions that do not name it as a destination (10_state R31 to R36, 60 R261): Interrupt is set exactly by a
reserved encoding, index 15 or a zero divisor, and never cleared; Completed is set exactly by HALT, and never cleared; Overflow is
written by the Arithmetic category alone; the other bits keep their value. (Index 15 and the zero divisor are the spec's decisions
D13 and D15, the writers of Overflow its decision D17.) -/
def Obligations.RpfBits : Prop :=
  ∀ (i : Instr) (s t : State), exec i s = .next t → Reg.rpf ∉ i.dests s.cfg →
    t.flag 0 = (s.flag 0 || i.raises s)
      ∧ t.flag 31 = (s.flag 31 || i == .halt)
      ∧ (i.arithmetic = false → t.flag 1 = s.flag 1)
      ∧ ∀ k, k ≠ 0 → k ≠ 1 → k ≠ 31 → t.flag k = s.flag k

/-- The memory frame, over all instructions: a byte of any device outside the bytes the instruction stores to, at the address it
computes, reads as before; only the data device's latch can change (20_memory R68, R64). What a form stores to, and at which
address, is 41_move R173, R174, R176 and R178 and 42_stack R191 and R193; the loads and register forms (41_move R171, R172,
R175, R177) store nothing. The width of an address is the spec's decision D9, of a stack pointer D8; FIXED_SP is D4. -/
def Obligations.MemoryFrame : Prop :=
  ∀ (i : Instr) (s t : State), exec i s = .next t →
    (∀ id x, ¬ i.storesTo s id x → t.byteAt id x = s.byteAt id x)
      ∧ ∀ id, id ≠ s.datId → t.faultAt id = s.faultAt id

/-! ## NOP, HALT, reserved encodings -/

/-- NOP (40 R150): any of the 32 bytes of category 000 ticks, moves RIP by one and does nothing else; its effect is no effect. -/
def Obligations.NopDoesNothing : Prop :=
  (∀ s : State, ∃ t, exec .nop s = .next t ∧ OnlyRegs s t [])
    ∧ ∀ (s : State) (op : Byte), s.wf = true → s.mapped = true → s.byteAt s.cmdId (s.get .rip).toNat = some op → op.toNat < 0x20 →
        ∃ t, step s = .next t ∧ OnlyRegs s t [.rtx, .rip]
          ∧ t.get .rtx = s.get .rtx + 1 ∧ t.get .rip = s.get .rip + 1

/-- HALT (40 R151): the byte 0xFF at RIP ticks, sets Completed alone, and leaves RIP where it is. -/
def Obligations.HaltSetsCompleted : Prop :=
  (∀ s : State, ∃ t, exec .halt s = .next t ∧ OnlyRegs s t [.rpf] ∧ OnlyFlag s t 31 true)
    ∧ ∀ s : State, s.wf = true → s.mapped = true → s.byteAt s.cmdId (s.get .rip).toNat = some 0xFF →
        ∃ t, step s = .next t ∧ OnlyRegs s t [.rtx, .rpf] ∧ OnlyFlag s t 31 true
          ∧ t.get .rtx = s.get .rtx + 1 ∧ t.get .rip = s.get .rip

/-- HALT is a fixed point except for RTX (40 R152; the spec's decision D26: the engine steps on). -/
def Obligations.HaltIsFixedPoint : Prop :=
  ∀ (s : State) (k : Nat), s.wf = true → s.mapped = true → s.byteAt s.cmdId (s.get .rip).toNat = some 0xFF → 0 < k →
    ∃ t, Sys2Proof.core.run k s = .next t ∧ OnlyRegs s t [.rtx, .rpf] ∧ OnlyFlag s t 31 true
      ∧ t.get .rtx = s.get .rtx + BitVec.ofNat 64 k

/-- Running off the command device (40 R156; 20_memory R63, decision D18): from RIP at or past the capacity every step is a NOP,
as long as RIP does not wrap; the command device's latch is set and nothing else changes: no other register, no byte, kind or
capacity of any device, no other latch, no parameter. -/
def Obligations.RunsOffAsNops : Prop :=
  ∀ (s : State) (c k : Nat), s.mapped = true → s.capAt s.cmdId = some c → c ≤ (s.get .rip).toNat →
    (s.get .rip).toNat + k ≤ 2 ^ 64 → 0 < k →
    ∃ t, Sys2Proof.core.run k s = .next t ∧ t.get .rip = s.get .rip + BitVec.ofNat 64 k
      ∧ t.get .rtx = s.get .rtx + BitVec.ofNat 64 k ∧ (∀ r, r ≠ .rip → r ≠ .rtx → t.get r = s.get r)
      ∧ t.faultAt s.cmdId = some true ∧ (∀ id, id ≠ s.cmdId → t.faultAt id = s.faultAt id)
      ∧ (∀ id x, t.byteAt id x = s.byteAt id x)
      ∧ (∀ id, t.kindAt id = s.kindAt id ∧ t.capAt id = s.capAt id) ∧ t.cfg = s.cfg

/-- A reserved row of the table latches Interrupt and does nothing else (40 R153, R154, R155; which encodings of category 111 and
of index 15 are reserved is the spec's decisions D12 and D13). -/
def Obligations.ReservedRowsLatch : Prop :=
  ∀ (i : Instr) (s : State), i.reserved = true →
    ∃ t, exec i s = .next t ∧ OnlyRegs s t [.rpf] ∧ OnlyFlag s t 0 true

/-- Index 15 in a used register field (40 R155, the spec's decision D13): any instruction then latches Interrupt and does nothing
else: no data access, no jump, no Overflow. -/
def Obligations.IndexFifteenLatches : Prop :=
  ∀ (i : Instr) (s : State), i.badReg = true →
    ∃ t, exec i s = .next t ∧ OnlyRegs s t [.rpf] ∧ OnlyFlag s t 0 true

/-! ## Move -/

/-- MOV.RR (41_move R171): the low bytes of the source register, nothing else. -/
def Obligations.MoveRegister : Prop :=
  ∀ (w : Width) (a b : Reg) (s : State), ∃ t, exec (.movRR w (some a) (some b)) s = .next t ∧ OnlyRegs s t [a]
    ∧ LowReplaced w (s.get a) (t.get a) (s.get b).toNat

/-- MOV.RI (41_move R175): the immediate, nothing else. -/
def Obligations.MoveImmediate : Prop :=
  ∀ (w : Width) (a : Reg) (imm : Word) (s : State), ∃ t, exec (.movRI w (some a) imm) s = .next t ∧ OnlyRegs s t [a]
    ∧ LowReplaced w (s.get a) (t.get a) imm.toNat

/-- MOV.RM and MOV.RA (41_move R172, R177): load big-endian from the address in b, or from the zero-extended immediate; a lane
outside the storage reads 0 and latches (20_memory R63, decision D18); the width of an address is decision D9. -/
def Obligations.Loads : Prop :=
  ∀ (w : Width) (a b : Reg) (imm : Word) (s : State) (d : Device) (i : Instr) (x : Nat), s.device s.datId = some d →
    (i = .movRM w (some a) (some b) ∧ x = (s.get b).toNat
      ∨ i = .movRA w (some a) imm ∧ x = imm.toNat % 2 ^ w.bits) →
    ∃ t, exec i s = .next t ∧ OnlyRegsAndLatch s t [a] (d.fault || outside d.cap x w.bytes)
      ∧ LowReplaced w (s.get a) (t.get a) (beNat (s.lanes s.datId x w.bytes))

/-- MOV.MR, MOV.MI and MOV.AR (41_move R173, R176, R178): store the low bytes big-endian; no register changes. (A lane outside the
storage is decision D18, the width of an address D9.) -/
def Obligations.Stores : Prop :=
  ∀ (w : Width) (a b : Reg) (imm : Word) (s : State) (d : Device) (i : Instr) (x v : Nat), s.wf = true → s.device s.datId = some d →
    (i = .movMR w (some a) (some b) ∧ x = (s.get a).toNat ∧ v = (s.get b).toNat
      ∨ i = .movMI w (some a) imm ∧ x = (s.get a).toNat ∧ v = imm.toNat
      ∨ i = .movAR w (some a) imm ∧ x = imm.toNat % 2 ^ w.bits ∧ v = (s.get a).toNat) →
    ∃ t, exec i s = .next t ∧ (∀ r, t.get r = s.get r) ∧ t.cfg = s.cfg
      ∧ Stored s t x w v (storeLatch d d.fault x w.bytes)

/-- MOV.MM (41_move R174): the source bytes, read before the write, to the destination; no register changes. (A lane outside the
storage is 20_memory R63, the spec's decision D18.) -/
def Obligations.MoveMemory : Prop :=
  ∀ (w : Width) (a b : Reg) (s : State) (d : Device), s.wf = true → s.device s.datId = some d →
    ∃ t, exec (.movMM w (some a) (some b)) s = .next t ∧ (∀ r, t.get r = s.get r) ∧ t.cfg = s.cfg
      ∧ Stored s t (s.get a).toNat w (beNat (s.lanes s.datId (s.get b).toNat w.bytes))
          (storeLatch d (d.fault || outside d.cap (s.get b).toNat w.bytes) (s.get a).toNat w.bytes)

/-! ## Stack -/

/-- PUSH and PUSHS (42_stack R191, R193): write the low bytes at the pointer, then move the pointer up by the width, modulo 2^64
(pointer width and device are the spec's decision D8, FIXED_SP D4, the roles of the fields D6). A lane outside the storage is dropped
and latches (20_memory R63, R64; the spec's decision D18; log 10). -/
def Obligations.PushWritesThenIncrements : Prop :=
  ∀ (w : Width) (a b : Reg) (s : State) (d : Device) (i : Instr), s.wf = true → s.device s.datId = some d →
    (i = .push w (some a) (some b) ∨ i = .pushs w (some a) ∧ b = s.cfg.fixedSp) →
    ∃ t, exec i s = .next t ∧ (∀ r, r ≠ b → t.get r = s.get r) ∧ t.cfg = s.cfg
      ∧ (t.get b).toNat = ((s.get b).toNat + w.bytes) % 2 ^ 64
      ∧ Stored s t (s.get b).toNat w (s.get a).toNat (storeLatch d d.fault (s.get b).toNat w.bytes)

/-- POP and POPS (42_stack R192, R194): move the pointer down by the width, read there, and write the low bytes of the destination
last, also where it is the pointer itself; the device is the one RDR named on entry (20_memory R74; log 6). The order of
decrement and read is the spec's decision D7; a lane outside the storage reads 0x00 and latches (20_memory R63; its decision D18;
log 10). The destination may be RIP and the pointer RDC, or the other way round: both are then written (log 15). -/
def Obligations.PopDecrementsThenReads : Prop :=
  ∀ (w : Width) (a b : Reg) (s : State) (d : Device) (i : Instr) (p : Word), s.device s.datId = some d →
    (i = .pop w (some a) (some b) ∨ i = .pops w (some a) ∧ b = s.cfg.fixedSp) →
    (p.toNat : Int) = ((s.get b).toNat - w.bytes : Int) % 2 ^ 64 →
    ∃ t, exec i s = .next t ∧ OnlyRegsAndLatch s t [a, b] (d.fault || outside d.cap p.toNat w.bytes)
      ∧ (a ≠ b → t.get b = p)
      ∧ LowReplaced w (if a = b then p else s.get a) (t.get a) (beNat (s.lanes s.datId p.toNat w.bytes))

/-- Push then pop (42_stack R195; §8 Scenario 3): of the same width and pointer, on a Memory with room, the pointer is restored and
the popped bytes are the pushed ones. Either may be the fixed-pointer form, where the pointer is FIXED_SP (decision D4). The pointer
is not RDR: pushing on RDR selects another device for the pop (20_memory R74); and it is not the register popped into, whose write
is last (R192, R194). -/
def Obligations.PushThenPopRestores : Prop :=
  ∀ (w : Width) (a b c : Reg) (s t u : State) (d : Device) (i j : Instr), s.wf = true → s.device s.datId = some d →
    d.kind = .memory → (s.get b).toNat + w.bytes ≤ d.cap → b ≠ .rdr → c ≠ b →
    (i = .push w (some a) (some b) ∨ i = .pushs w (some a) ∧ b = s.cfg.fixedSp) →
    (j = .pop w (some c) (some b) ∨ j = .pops w (some c) ∧ b = s.cfg.fixedSp) →
    exec i s = .next t → exec j t = .next u →
    u.get b = s.get b ∧ LowReplaced w (s.get c) (u.get c) (s.get a).toNat

/-- RIP and RDC in one instruction (70_reset R305, 42_stack R192, R194; log 15): the only effects that change both are the pops with
one of them as the pointer and the other as the destination, and the pointer is not the program's to choose: it moves down by the
width. So no instruction sets both to values of its own choice, which is how the model reads R305 beside R194 (DEDUCED). -/
def Obligations.RipAndRdcTogether : Prop :=
  ∀ (i : Instr) (s t : State), exec i s = .next t → t.get .rip ≠ s.get .rip → t.get .rdc ≠ s.get .rdc →
    ∃ (w : Width) (a b : Reg), (i = .pop w (some a) (some b) ∨ i = .pops w (some a) ∧ b = s.cfg.fixedSp)
      ∧ (a = .rip ∧ b = .rdc ∨ a = .rdc ∧ b = .rip)
      ∧ ((t.get b).toNat : Int) = ((s.get b).toNat - w.bytes : Int) % 2 ^ 64

/-! ## Jump -/

/-- The immediate jumps, taken (43_jump R201, R203, R205, R207, R209, R211): RIP becomes the address of the opcode byte plus the signed
offset, modulo 2^64; nothing else changes. (Condition register and wrap are the spec's decisions D10 and D11.) -/
def Obligations.ImmediateJumpsTaken : Prop :=
  ∀ (w : Width) (a : Reg) (imm start : Word) (s : State) (i : Instr), s.get .rip = start + BitVec.ofNat 64 (2 + w.bytes) →
    (i = .jmpI w imm ∨ i = .jzI w (some a) imm ∧ s.get a = 0 ∨ i = .jnzI w (some a) imm ∧ s.get a ≠ 0) →
    ∃ t, exec i s = .next t ∧ OnlyRegs s t [.rip]
      ∧ ((t.get .rip).toNat : Int) = (start.toNat + signedLow w imm) % 2 ^ 64

/-- The register jumps, taken (43_jump R205, R208, R210, R212): absolute at width 64, relative to the opcode byte below (the spec's
decision D10 for the fields and for which forms are absolute). -/
def Obligations.RegisterJumpsTaken : Prop :=
  ∀ (w : Width) (a b : Reg) (start : Word) (s : State) (i : Instr), s.get .rip = start + 2 →
    (i = .jmpR w (some b) ∨ i = .jzR w (some a) (some b) ∧ s.get a = 0 ∨ i = .jnzR w (some a) (some b) ∧ s.get a ≠ 0) →
    ∃ t, exec i s = .next t ∧ OnlyRegs s t [.rip]
      ∧ ((t.get .rip).toNat : Int) = if w = .w64 then ((s.get b).toNat : Int) else (start.toNat + signedLow w (s.get b)) % 2 ^ 64

/-- Untaken (43_jump R204): RIP keeps the value it has on entry and nothing else happens; in a step, RIP is then past all the
instruction's bytes, the immediate's included. The condition is read after the tick and the advance, so it may be RTX or RIP. That
field a holds the condition register, tested over its full 64 bits, is R203, the spec's decision D10 (log 10). -/
def Obligations.UntakenJumpsFallThrough : Prop :=
  ∀ (w : Width) (a b : Reg) (imm : Word) (i : Instr),
    (∀ s : State, NotTaken w a b imm i s → ∃ t, exec i s = .next t ∧ OnlyRegs s t [])
      ∧ ∀ (s : State) (bs : List Byte), s.wf = true → s.mapped = true → decode bs = .ok (i, []) →
          (∀ k, k < bs.length → s.byteAt s.cmdId ((s.get .rip).toNat + k) = bs[k]?) → NotTaken w a b imm i (s.entered i) →
          ∃ t, step s = .next t ∧ OnlyRegs s t [.rtx, .rip] ∧ t.get .rtx = s.get .rtx + 1
            ∧ t.get .rip = s.get .rip + BitVec.ofNat 64 bs.length
            ∧ (i = .jzI w (some a) imm ∨ i = .jnzI w (some a) imm → bs.length = 2 + w.bytes)

/-! ## Bitwise, arithmetic, INC and DEC -/

/-- NOT, AND, OR and XOR (44_bitwise R221 to R224): bit by bit, the low bytes to the left operand, the bits above kept. (That no flag
is written is the spec's decision D17.) -/
def Obligations.BitwiseResults : Prop :=
  ∀ (w : Width) (a b : Reg) (s : State) (i : Instr) (f : Bool → Bool → Bool),
    (i = .bitNot w (some a) ∧ f = (fun x _ => !x) ∨ i = .bitAnd w (some a) (some b) ∧ f = and
      ∨ i = .bitOr w (some a) (some b) ∧ f = or ∨ i = .bitXor w (some a) (some b) ∧ f = xor) →
    ∃ t, exec i s = .next t ∧ OnlyRegs s t [a]
      ∧ ∀ k, k < 64 → (t.get a).getLsbD k = if k < w.bits then f ((s.get a).getLsbD k) ((s.get b).getLsbD k) else (s.get a).getLsbD k

/-- ADD, SUB and MUL (45_arithmetic R231 to R233, R237 to R239): the exact result of the full unsigned operands, its low bytes to the
left operand, Overflow when it does not fit the declared width; no other flag. Where RPF is the left operand the result is
written last (the spec's decision D16); unsigned operands and overflow on a borrow are its decision D14. -/
def Obligations.AddSubMulResults : Prop :=
  ∀ (w : Width) (a b : Reg) (s : State) (i : Instr) (r : Int),
    (i = .add w (some a) (some b) ∧ r = (s.get a).toNat + (s.get b).toNat
      ∨ i = .sub w (some a) (some b) ∧ r = (s.get a).toNat - (s.get b).toNat
      ∨ i = .mul w (some a) (some b) ∧ r = (s.get a).toNat * (s.get b).toNat) →
    ∃ t, exec i s = .next t ∧ OnlyRegs s t [a, .rpf] ∧ LowReplaced w (s.get a) (t.get a) r
      ∧ (a ≠ .rpf → OnlyFlag s t 1 (decide (r < 0 ∨ 2 ^ w.bits ≤ r)))

/-- DIV and MOD with a divisor other than zero (45_arithmetic R235, R240, R241): floor quotient and remainder, written and flagged
as R232 and R233 say (decisions D14, D16). -/
def Obligations.DivModResults : Prop :=
  ∀ (w : Width) (a b : Reg) (s : State) (i : Instr) (r : Nat), s.get b ≠ 0 →
    (i = .div w (some a) (some b) ∧ r = (s.get a).toNat / (s.get b).toNat
      ∨ i = .mod w (some a) (some b) ∧ r = (s.get a).toNat % (s.get b).toNat) →
    ∃ t, exec i s = .next t ∧ OnlyRegs s t [a, .rpf] ∧ LowReplaced w (s.get a) (t.get a) r
      ∧ (a ≠ .rpf → OnlyFlag s t 1 (decide (2 ^ w.bits ≤ r)))

/-- DIV and MOD by zero (45_arithmetic R236, the spec's decision D15): Interrupt is latched, Overflow and the destination stay. -/
def Obligations.DivideByZeroLatches : Prop :=
  ∀ (w : Width) (a b : Reg) (s : State) (i : Instr), s.get b = 0 →
    (i = .div w (some a) (some b) ∨ i = .mod w (some a) (some b)) →
    ∃ t, exec i s = .next t ∧ OnlyRegs s t [.rpf] ∧ OnlyFlag s t 0 true

/-- INC and DEC (46 R251, R252): all 64 bits, modulo 2^64, no flag but where the register is RPF itself (decision D17). -/
def Obligations.IncDecResults : Prop :=
  ∀ (a : Reg) (s : State) (i : Instr) (r : Int),
    (i = .inc (some a) ∧ r = (s.get a).toNat + 1 ∨ i = .dec (some a) ∧ r = (s.get a).toNat - 1) →
    ∃ t, exec i s = .next t ∧ OnlyRegs s t [a] ∧ ((t.get a).toNat : Int) = r % 2 ^ 64

/-! ## Devices -/

/-- DevRead (20_memory R61 to R63): the value is the big-endian number of the lanes, 0x00 outside the storage; the latch is set exactly
when a lane is outside; nothing else of the device changes (lanes outside are the spec's decision D18). -/
def Obligations.DeviceReadValue : Prop :=
  ∀ (d : Device) (x : Word) (w : Width),
    (d.read x w).1.toNat =
        beNat ((List.range w.bytes).map fun k => if x.toNat + k < d.cap then Memory.read d.store (x.toNat + k) else 0x00)
      ∧ (d.read x w).2 = { d with fault := d.fault || outside d.cap x.toNat w.bytes }

/-- Big-endian (20_memory R65): the byte at the lowest address is the most significant, at every width on every device, in a read and
in a write. -/
def Obligations.BigEndianData : Prop :=
  ∀ (d : Device) (x : Word),
    (x.toNat + 1 ≤ d.cap → (d.read x .w8).1 = 0#56 ++ Memory.read d.store x.toNat)
      ∧ (x.toNat + 2 ≤ d.cap →
          (d.read x .w16).1 = 0#48 ++ (Memory.read d.store x.toNat ++ Memory.read d.store (x.toNat + 1)))
      ∧ (x.toNat + 4 ≤ d.cap →
          (d.read x .w32).1 = 0#32 ++ (Memory.read d.store x.toNat ++ Memory.read d.store (x.toNat + 1)
            ++ Memory.read d.store (x.toNat + 2) ++ Memory.read d.store (x.toNat + 3)))
      ∧ (x.toNat + 8 ≤ d.cap →
          (d.read x .w64).1 = Memory.read d.store x.toNat ++ Memory.read d.store (x.toNat + 1) ++ Memory.read d.store (x.toNat + 2)
            ++ Memory.read d.store (x.toNat + 3) ++ Memory.read d.store (x.toNat + 4) ++ Memory.read d.store (x.toNat + 5)
            ++ Memory.read d.store (x.toNat + 6) ++ Memory.read d.store (x.toNat + 7))
      ∧ ∀ (w : Width) (v : Word) (k : Nat), d.wf = true → d.kind = .memory → x.toNat + w.bytes ≤ d.cap → k < w.bytes →
          Memory.read (d.write x w v).store (x.toNat + k) = BitVec.ofNat 8 (v.toNat / 256 ^ (w.bytes - 1 - k))

/-- A ConstantMemory drops every write and latches, whatever the address (20_memory R64), and so does a Memory whose gate fails
(R62). -/
def Obligations.DroppedWrites : Prop :=
  ∀ (d : Device) (x : Word) (w : Width) (v : Word), d.kind = .constantMemory ∨ d.cap < x.toNat →
    (d.write x w v).store = d.store ∧ (d.write x w v).fault = true ∧ (d.write x w v).kind = d.kind ∧ (d.write x w v).cap = d.cap

/-- A read of what was written, on a Memory with room (20_memory R80, R66): the low bytes of the value, at any address, no latch. -/
def Obligations.DeviceReadsBackWrite : Prop :=
  ∀ (d : Device) (x : Word) (w : Width) (v : Word), d.wf = true → d.kind = .memory → x.toNat + w.bytes ≤ d.cap →
    ((d.write x w v).read x w).1.toNat = v.toNat % 2 ^ w.bits ∧ ((d.write x w v).read x w).2.fault = d.fault

/-! ## Registers, views, flags -/

/-- The view invariant (10_state R26): a write through a view leaves the bits outside its slice, and a read through the same view
gives the value truncated to the view's width. -/
def Obligations.ViewInvariant : Prop :=
  ∀ (u : View) (old v : Word),
    (∀ k, k < u.shift ∨ u.shift + u.bits ≤ k → (u.write old v).getLsbD k = old.getLsbD k)
      ∧ (u.read (u.write old v)).toNat = v.toNat % 2 ^ u.bits

/-- Flags are individual bits (10_state R27): writing flag k changes bit k alone, and reading it gives the bit written. -/
def Obligations.FlagAccess : Prop :=
  ∀ (v : Word) (k : Nat) (f : Bool), k < 64 →
    getFlag (putFlag v k f) k = f ∧ ∀ j, j ≠ k → getFlag (putFlag v k f) j = getFlag v j

/-- Sign extension (00_scope R12): the number itself where its top bit is 0, and the number plus 2^64 - 2^(8n) where it is 1; zero
extension is the same number. -/
def Obligations.Extension : Prop :=
  ∀ (w : Width) (v : Word), v.toNat < 2 ^ w.bits →
    (low w v).toNat = v.toNat
      ∧ (sext w v).toNat = if v.getLsbD (w.bits - 1) then v.toNat + 2 ^ 64 - 2 ^ w.bits else v.toNat

/-! ## Reset and host -/

/-- Reset (10_state R48, 70_reset R291): the fifteen registers, BUS and RPF's flags are 0. (BUS at reset is the spec's decision D21; the
default FIXED_SP is D4.) Whatever the instance and the devices, which are as installed. -/
def Obligations.ResetValues : Prop :=
  (∀ (cfg : Config) (m : DeviceMap), (∀ r, (State.construct cfg m).get r = 0) ∧ (State.construct cfg m).bus = 0
      ∧ (State.construct cfg m).devices = m ∧ (State.construct cfg m).cfg = cfg)
    ∧ State.reset = State.construct { fixedSp := .rs0 } []

/-- The devices as constructed (10_state R48's rows STORE and FAULT): a Memory of a capacity holds that many zero bytes, a
ConstantMemory the supplied content; both have latch 0 (the spec's decision D21) and, with a capacity below 2^64 (00_scope R7, D29),
the canonical form (the model's own: log 7). In a machine they are seen so under the id they are installed under. -/
def Obligations.ConstructedDevices : Prop :=
  (∀ cap : Nat, (Device.ofCapacity cap).kind = .memory ∧ (Device.ofCapacity cap).cap = cap ∧ (Device.ofCapacity cap).fault = false
      ∧ (∀ x, x < cap → Memory.read (Device.ofCapacity cap).store x = 0x00)
      ∧ (cap < 2 ^ 64 → (Device.ofCapacity cap).wf = true))
    ∧ (∀ content : List Byte, (Device.ofContent content).kind = .constantMemory
      ∧ (Device.ofContent content).cap = content.length ∧ (Device.ofContent content).fault = false
      ∧ (∀ x, x < content.length → some (Memory.read (Device.ofContent content).store x) = content[x]?)
      ∧ (content.length < 2 ^ 64 → (Device.ofContent content).wf = true))
    ∧ ∀ (s t : State) (id x : Nat),
        (∀ cap, s.install id (Device.ofCapacity cap) = some t →
            t.byteAt id x = (if x < cap then some 0x00 else none) ∧ t.faultAt id = some false ∧ t.kindAt id = some .memory)
          ∧ ∀ content, s.install id (Device.ofContent content) = some t →
              t.byteAt id x = content[x]? ∧ t.faultAt id = some false ∧ t.kindAt id = some .constantMemory

/-- Entry point (70_reset R292): the first step after an unprimed reset, be it the construction or the bulk reset, fetches at address 0
of device id 0, which is the data device too. Bytes past its capacity read 0x00 (20_memory R63, the spec's decision D18; log 10). -/
def Obligations.ResetEntryPoint : Prop :=
  ∀ s : State, (∃ (cfg : Config) (m : DeviceMap), s = State.construct cfg m) ∨ (∃ u : State, s = u.bulkReset) →
    (s.get .rip).toNat = 0 ∧ s.cmdId = 0 ∧ s.datId = 0
      ∧ ∀ d, s.device 0 = some d →
          ∃ i rest t, decode (s.lanes 0 0 10) = .ok (i, rest) ∧ step s = exec i t ∧ t.datId = 0
            ∧ t.get .rip = BitVec.ofNat 64 i.advance ∧ t.get .rtx = 1

/-- The bulk reset touches the fifteen registers only (70_reset R291): devices, latches and BUS survive it. -/
def Obligations.BulkResetTouchesRegistersOnly : Prop :=
  ∀ s : State, (∀ r, s.bulkReset.get r = 0) ∧ s.bulkReset.devices = s.devices ∧ s.bulkReset.bus = s.bus
    ∧ s.bulkReset.cfg = s.cfg ∧ (s.wf = true → s.bulkReset.wf = true)

/-- DEVICE_MAP is changed only by the host (20_memory R78): a second device under an id replaces the first, other ids keep theirs, and no
step installs or removes a device. -/
def Obligations.InstallOverwrites : Prop :=
  (∀ (s t : State) (id : Nat) (d : Device), s.install id d = some t →
      t.device id = some d ∧ (∀ j, j ≠ id → t.device j = s.device j) ∧ ∀ e, e.cap < 2 ^ 64 → t.install id e = s.install id e)
    ∧ ∀ (s t : State) (id : Nat), step s = .next t → (t.device id).isSome = (s.device id).isSome

/-- A word of the opcode table placed by withFetchWord is what the next step runs (the model's own load, logs 3 and 8). -/
def Obligations.FetchWordRunsNext : Prop :=
  ∀ (s : State) (nbits w : Nat) (i : Instr), s.wf = true → (s.get .rip).toNat + 10 < 2 ^ 64 → decodeTableWord nbits w = some i →
    step (s.withFetchWord nbits w) = exec i ((s.withFetchWord nbits w).entered i)
end

