-- ==== Sys2Proof/Laws/Memory.lean ====
section
/-! SUPPORT. The laws of a byte store: a read after a write, and that every operation keeps the canonical form and the bound. -/

namespace Sys2Proof.Machine

/-- The first address of a store is above a bound. -/
def Memory.above (m : Memory) (a : Nat) : Prop := ∀ c ∈ m, a < c.1

theorem Memory.wf_cons {k : Nat} {b : Byte} {m : Memory} :
    Memory.wf ((k, b) :: m) = true ↔ b ≠ blank ∧ Memory.above m k ∧ Memory.wf m = true := by
  induction m generalizing k b with
  | nil => simp [Memory.wf, Memory.above]
  | cons c m ih =>
    obtain ⟨k', b'⟩ := c
    have h : Memory.wf ((k, b) :: (k', b') :: m) = (b != blank && decide (k < k') && Memory.wf ((k', b') :: m)) := rfl
    rw [h]
    simp only [Bool.and_eq_true, bne_iff_ne, ne_eq, decide_eq_true_eq, ih, Memory.above, List.mem_cons, forall_eq_or_imp]
    constructor
    · rintro ⟨⟨h1, h2⟩, h3, h4, h5⟩
      exact ⟨h1, ⟨h2, fun c hc => lt_trans h2 (h4 c hc)⟩, h3, h4, h5⟩
    · rintro ⟨h1, ⟨h2, -⟩, h3, h4, h5⟩
      exact ⟨⟨h1, h2⟩, h3, h4, h5⟩

/-- An address below every listed one reads blank. -/
theorem Memory.read_of_above {m : Memory} {a : Nat} (h : Memory.above m a) : Memory.read m a = blank := by
  induction m with
  | nil => rfl
  | cons c m ih =>
    obtain ⟨k, b⟩ := c
    have hk : a < k := h (k, b) (by simp)
    simp only [Memory.read, if_neg (Nat.ne_of_gt hk)]
    exact ih fun c hc => h c (by simp [hc])

theorem Memory.read_cons (m : Memory) (a x : Nat) (b : Byte) (h : Memory.above m a) :
    Memory.read (Memory.cons a b m) x = if x = a then b else Memory.read m x := by
  unfold Memory.cons
  by_cases hb : b = blank
  · by_cases hx : x = a
    · simp [hb, hx, Memory.read_of_above h]
    · simp [hb, hx]
  · by_cases hx : x = a
    · simp [hb, hx, Memory.read]
    · simp [hb, hx, Memory.read, Ne.symm hx]

/-- A read after a write: the byte written at its address, the old byte elsewhere. -/
theorem Memory.read_write {m : Memory} (hm : Memory.wf m = true) (a x : Nat) (b : Byte) :
    Memory.read (Memory.write m a b) x = if x = a then b else Memory.read m x := by
  induction m with
  | nil => simpa [Memory.write] using Memory.read_cons [] a x b (by simp [Memory.above])
  | cons c m ih =>
    obtain ⟨k, e⟩ := c
    obtain ⟨-, ha, hw⟩ := Memory.wf_cons.mp hm
    rw [Memory.write]
    by_cases h1 : a < k
    · rw [if_pos h1]
      refine Memory.read_cons _ a x b fun c hc => ?_
      rcases List.mem_cons.mp hc with rfl | hc
      · exact h1
      · exact lt_trans h1 (ha c hc)
    · rw [if_neg h1]
      by_cases h2 : a = k
      · subst h2
        rw [if_pos rfl, Memory.read_cons m a x b ha]
        by_cases hx : x = a
        · simp [hx]
        · simp [hx, Memory.read, Ne.symm hx]
      · rw [if_neg h2]
        simp only [Memory.read, ih hw]
        by_cases hx : x = a
        · rw [if_neg (by omega), if_pos hx, if_pos hx]
        · simp [hx]

/-- A write leaves every other address alone, whatever form the store has. -/
theorem Memory.read_write_of_ne (m : Memory) {a x : Nat} (b : Byte) (h : x ≠ a) :
    Memory.read (Memory.write m a b) x = Memory.read m x := by
  have hc : ∀ n : Memory, Memory.read (Memory.cons a b n) x = Memory.read n x := by
    intro n
    unfold Memory.cons
    split
    · rfl
    · exact if_neg h.symm
  induction m with
  | nil => exact hc []
  | cons c m ih =>
    obtain ⟨k, v⟩ := c
    unfold Memory.write
    split_ifs with h1 h2
    · exact hc _
    · rw [hc, ← h2]
      exact (if_neg h.symm).symm
    · unfold Memory.read
      rw [ih]

theorem Memory.above_cons {m : Memory} {a k : Nat} {b : Byte} (hk : k < a) (h : Memory.above m k) :
    Memory.above (Memory.cons a b m) k := by
  unfold Memory.cons
  split_ifs
  · exact h
  · intro c hc
    rcases List.mem_cons.mp hc with rfl | hc
    · exact hk
    · exact h c hc

theorem Memory.above_write {m : Memory} {a k : Nat} {b : Byte} (hk : k < a) (h : Memory.above m k) :
    Memory.above (Memory.write m a b) k := by
  induction m with
  | nil => exact Memory.above_cons hk h
  | cons c m ih =>
    obtain ⟨k', e⟩ := c
    have hm : Memory.above m k := fun c hc => h c (by simp [hc])
    simp only [Memory.write]
    split_ifs
    · exact Memory.above_cons hk h
    · exact Memory.above_cons hk hm
    · intro c hc
      rcases List.mem_cons.mp hc with rfl | hc
      · exact h (k', e) (by simp)
      · exact ih hm c hc

theorem Memory.wf_consCell {m : Memory} {a : Nat} {b : Byte} (h : Memory.above m a) (hm : Memory.wf m = true) :
    Memory.wf (Memory.cons a b m) = true := by
  unfold Memory.cons
  split_ifs with hb
  · exact hm
  · exact Memory.wf_cons.mpr ⟨hb, h, hm⟩

/-- A write keeps the canonical form. -/
theorem Memory.wf_write {m : Memory} (hm : Memory.wf m = true) (a : Nat) (b : Byte) :
    Memory.wf (Memory.write m a b) = true := by
  induction m with
  | nil => exact Memory.wf_consCell (by simp [Memory.above]) hm
  | cons c m ih =>
    obtain ⟨k, e⟩ := c
    obtain ⟨he, ha, hw⟩ := Memory.wf_cons.mp hm
    simp only [Memory.write]
    split_ifs with h1 h2
    · refine Memory.wf_consCell (fun c hc => ?_) hm
      rcases List.mem_cons.mp hc with rfl | hc
      · exact h1
      · exact lt_trans h1 (ha c hc)
    · subst h2
      exact Memory.wf_consCell ha hw
    · exact Memory.wf_cons.mpr ⟨he, Memory.above_write (by omega) ha, ih hw⟩

theorem Memory.below_cons {m : Memory} {a cap : Nat} {b : Byte} (ha : a < cap) (h : Memory.below m cap = true) :
    Memory.below (Memory.cons a b m) cap = true := by
  unfold Memory.cons
  split_ifs
  · exact h
  · simp only [Memory.below, List.all_cons, Bool.and_eq_true, decide_eq_true_eq] at h ⊢
    exact ⟨ha, h⟩

/-- A write inside the bound keeps every listed address inside. -/
theorem Memory.below_write {m : Memory} {a cap : Nat} {b : Byte} (ha : a < cap) (h : Memory.below m cap = true) :
    Memory.below (Memory.write m a b) cap = true := by
  induction m with
  | nil => exact Memory.below_cons ha h
  | cons c m ih =>
    have h' := h
    simp only [Memory.below, List.all_cons, Bool.and_eq_true, decide_eq_true_eq] at h
    simp only [Memory.write]
    split_ifs
    · exact Memory.below_cons ha h'
    · exact Memory.below_cons ha h.2
    · simp only [Memory.below, List.all_cons, Bool.and_eq_true, decide_eq_true_eq]
      exact ⟨h.1, ih h.2⟩

theorem Memory.wf_load {m : Memory} (hm : Memory.wf m = true) (a : Nat) (bs : List Byte) :
    Memory.wf (Memory.load m a bs) = true := by
  induction bs generalizing m a with
  | nil => exact hm
  | cons b bs ih => exact ih (Memory.wf_write hm a b) (a + 1)

/-- A store after a load of bytes from an address on. -/
theorem Memory.read_load {m : Memory} (hm : Memory.wf m = true) (a x : Nat) (bs : List Byte) :
    Memory.read (Memory.load m a bs) x = if h : a ≤ x ∧ x < a + bs.length then bs[x - a]'(by omega) else Memory.read m x := by
  induction bs generalizing m a with
  | nil =>
    rw [dif_neg (by simp only [List.length_nil]; omega)]
    rfl
  | cons b bs ih =>
    simp only [Memory.load, List.length_cons]
    rw [ih (Memory.wf_write hm a b), Memory.read_write hm]
    by_cases h1 : a + 1 ≤ x ∧ x < a + 1 + bs.length
    · have h2 : a ≤ x ∧ x < a + (bs.length + 1) := by omega
      have h3 : x - a = (x - (a + 1)) + 1 := by omega
      simp only [dif_pos h1, dif_pos h2, h3, List.getElem_cons_succ]
    · by_cases hx : x = a
      · subst hx
        simp
      · have h2 : ¬(a ≤ x ∧ x < a + (bs.length + 1)) := by omega
        simp only [dif_neg h1, dif_neg h2, if_neg hx]

theorem Memory.below_load {m : Memory} {cap : Nat} (h : Memory.below m cap = true) (a : Nat) (bs : List Byte)
    (ha : a + bs.length ≤ cap) : Memory.below (Memory.load m a bs) cap = true := by
  induction bs generalizing m a with
  | nil => exact h
  | cons b bs ih =>
    simp only [List.length_cons] at ha
    exact ih (Memory.below_write (by omega) h) (a + 1) (by omega)

/-- A larger capacity keeps the bound. -/
theorem Memory.below_mono {m : Memory} {cap cap' : Nat} (hc : cap ≤ cap') (h : Memory.below m cap = true) :
    Memory.below m cap' = true := by
  simp only [Memory.below, List.all_eq_true, decide_eq_true_eq] at h ⊢
  exact fun c hc' => lt_of_lt_of_le (h c hc') hc

end Sys2Proof.Machine
end

