-- ==== Sys2Proof/Laws/State.lean ====
section
/-! SUPPORT. One lemma per field per update of State and of the register file, so that no later proof unfolds a record update. -/

namespace Sys2Proof.Machine

@[simp] theorem RegFile.get_set (f : RegFile) (r q : Reg) (v : Word) :
    (f.set r v).get q = if q = r then v else f.get q := by
  cases r <;> cases q <;> rfl

@[simp] theorem RegFile.get_zero (r : Reg) : RegFile.zero.get r = 0 := by cases r <;> rfl

/-- Two register files with the same registers are the same. -/
theorem RegFile.ext_get {f g : RegFile} (h : ∀ r, f.get r = g.get r) : f = g := by
  cases f; cases g
  simp only [RegFile.mk.injEq]
  exact ⟨h .rm0, h .rm1, h .rm2, h .rm3, h .rs0, h .rs1, h .rs2, h .rs3, h .rip, h .rdc, h .rdr, h .rpf, h .rtx, h .rlm, h .rhm⟩

variable (s : State) (r q : Reg) (v : Word) (id j : Nat) (d : Device)

@[simp] theorem State.get_set : (s.set r v).get q = if q = r then v else s.get q := RegFile.get_set s.regs r q v
@[simp] theorem State.set_devices : (s.set r v).devices = s.devices := rfl
@[simp] theorem State.set_bus : (s.set r v).bus = s.bus := rfl
@[simp] theorem State.set_cfg : (s.set r v).cfg = s.cfg := rfl
@[simp] theorem State.set_device : (s.set r v).device id = s.device id := rfl

@[simp] theorem State.setBus_get : (s.setBus v).get q = s.get q := rfl
@[simp] theorem State.setBus_devices : (s.setBus v).devices = s.devices := rfl
@[simp] theorem State.setBus_bus : (s.setBus v).bus = v := rfl
@[simp] theorem State.setBus_cfg : (s.setBus v).cfg = s.cfg := rfl
@[simp] theorem State.setBus_device : (s.setBus v).device id = s.device id := rfl

@[simp] theorem State.putDevice_get : (s.putDevice id d).get q = s.get q := rfl
@[simp] theorem State.putDevice_bus : (s.putDevice id d).bus = s.bus := rfl
@[simp] theorem State.putDevice_cfg : (s.putDevice id d).cfg = s.cfg := rfl
@[simp] theorem State.putDevice_devices : (s.putDevice id d).devices = s.devices.update id d := rfl

@[simp] theorem State.construct_get (cfg : Config) (m : DeviceMap) : (State.construct cfg m).get r = 0 := RegFile.get_zero r
@[simp] theorem State.construct_devices (cfg : Config) (m : DeviceMap) : (State.construct cfg m).devices = m := rfl
@[simp] theorem State.construct_bus (cfg : Config) (m : DeviceMap) : (State.construct cfg m).bus = 0 := rfl
@[simp] theorem State.construct_cfg (cfg : Config) (m : DeviceMap) : (State.construct cfg m).cfg = cfg := rfl

variable (w : Width) (k : Nat) (f : Bool)

@[simp] theorem State.writeLow_get :
    (s.writeLow r w v).get q = if q = r then mergeLow w (s.get r) v else s.get q := State.get_set ..
@[simp] theorem State.writeLow_devices : (s.writeLow r w v).devices = s.devices := rfl
@[simp] theorem State.writeLow_bus : (s.writeLow r w v).bus = s.bus := rfl
@[simp] theorem State.writeLow_cfg : (s.writeLow r w v).cfg = s.cfg := rfl

@[simp] theorem State.setFlag_get :
    (s.setFlag k f).get q = if q = .rpf then putFlag (s.get .rpf) k f else s.get q := State.get_set ..
@[simp] theorem State.setFlag_devices : (s.setFlag k f).devices = s.devices := rfl
@[simp] theorem State.setFlag_bus : (s.setFlag k f).bus = s.bus := rfl
@[simp] theorem State.setFlag_cfg : (s.setFlag k f).cfg = s.cfg := rfl

@[simp] theorem State.raise_get :
    s.raise.get q = if q = .rpf then putFlag (s.get .rpf) flagI true else s.get q := State.get_set ..
@[simp] theorem State.raise_devices : s.raise.devices = s.devices := rfl
@[simp] theorem State.raise_bus : s.raise.bus = s.bus := rfl
@[simp] theorem State.raise_cfg : s.raise.cfg = s.cfg := rfl

@[simp] theorem State.jump_get : (s.jump v).get q = if q = .rip then v else s.get q := State.get_set ..
@[simp] theorem State.jump_devices : (s.jump v).devices = s.devices := rfl
@[simp] theorem State.jump_bus : (s.jump v).bus = s.bus := rfl
@[simp] theorem State.jump_cfg : (s.jump v).cfg = s.cfg := rfl

end Sys2Proof.Machine
end

