-- ==== Sys2Proof/Laws/Device.lean ====
section
/-! SUPPORT. The laws of the device map and of device accesses: what a read and a write of a device can do, said once. -/

namespace Sys2Proof.Machine

/-! ## The device map -/

@[simp] theorem DeviceMap.find_nil (id : Nat) : DeviceMap.find [] id = none := rfl

theorem DeviceMap.find_cons (k : Nat) (e : Device) (m : DeviceMap) (id : Nat) :
    DeviceMap.find ((k, e) :: m) id = if k = id then some e else DeviceMap.find m id := rfl

theorem DeviceMap.find_update (m : DeviceMap) (id j : Nat) (d : Device) :
    (m.update id d).find j = if j = id then (m.find id).map fun _ => d else m.find j := by
  induction m with
  | nil => simp [DeviceMap.update]
  | cons c m ih =>
    obtain ⟨k, e⟩ := c
    rw [DeviceMap.update]
    by_cases hk : k = id
    · subst hk
      by_cases hj : j = k
      · simp [DeviceMap.find_cons, hj]
      · simp [DeviceMap.find_cons, hj, Ne.symm hj]
    · rw [if_neg hk, DeviceMap.find_cons, ih, DeviceMap.find_cons, DeviceMap.find_cons]
      by_cases hj : j = id
      · subst hj; simp [hk]
      · simp [hj]

theorem DeviceMap.update_update (m : DeviceMap) (id : Nat) (d e : Device) : (m.update id d).update id e = m.update id e := by
  induction m with
  | nil => rfl
  | cons c m ih =>
    obtain ⟨k, f⟩ := c
    by_cases hk : k = id <;> simp [DeviceMap.update, hk, ih]

/-- Putting back the device that is there changes nothing. -/
theorem DeviceMap.update_self {m : DeviceMap} {id : Nat} {d : Device} (h : m.find id = some d) : m.update id d = m := by
  induction m with
  | nil => rfl
  | cons c m ih =>
    obtain ⟨k, f⟩ := c
    by_cases hk : k = id
    · simp_all [DeviceMap.update, DeviceMap.find_cons]
    · simp only [DeviceMap.find_cons, if_neg hk] at h
      simp [DeviceMap.update, hk, ih h]

/-- An update changes neither the ids nor their order. -/
theorem DeviceMap.map_update {α : Type} (g : Nat × Device → α) {m : DeviceMap} {id : Nat} {d e : Device} (h : m.find id = some d)
    (hg : g (id, e) = g (id, d)) : (m.update id e).map g = m.map g := by
  induction m with
  | nil => rfl
  | cons c m ih =>
    obtain ⟨k, f⟩ := c
    by_cases hk : k = id
    · subst hk
      obtain rfl : f = d := by simpa [DeviceMap.find_cons] using h
      simp [DeviceMap.update, hg]
    · simp only [DeviceMap.find_cons, if_neg hk] at h
      simp [DeviceMap.update, hk, ih h]

theorem DeviceMap.find_insert (m : DeviceMap) (id j : Nat) (d : Device) :
    (m.insert id d).find j = if j = id then some d else m.find j := by
  induction m with
  | nil => simp [DeviceMap.insert, DeviceMap.find_cons, eq_comm]
  | cons c m ih =>
    obtain ⟨k, f⟩ := c
    rw [DeviceMap.insert]
    by_cases h1 : id < k
    · simp [h1, DeviceMap.find_cons, eq_comm]
    · by_cases h2 : id = k
      · subst h2
        by_cases hj : j = id
        · simp [DeviceMap.find_cons, hj]
        · simp [DeviceMap.find_cons, hj, Ne.symm hj]
      · rw [if_neg h1, if_neg h2, DeviceMap.find_cons, ih, DeviceMap.find_cons]
        by_cases hj : j = id
        · rw [if_neg (by omega), if_pos hj, if_pos hj]
        · simp [hj]

theorem DeviceMap.insert_insert (m : DeviceMap) (id : Nat) (d e : Device) : (m.insert id d).insert id e = m.insert id e := by
  induction m with
  | nil => simp [DeviceMap.insert]
  | cons c m ih =>
    obtain ⟨k, f⟩ := c
    rw [DeviceMap.insert]
    by_cases h1 : id < k
    · simp [h1, DeviceMap.insert]
    · by_cases h2 : id = k
      · subst h2; simp [DeviceMap.insert]
      · simp [h1, h2, DeviceMap.insert, ih]

/-- The ids of a map. -/
def DeviceMap.ids (m : DeviceMap) : List Nat := m.map Prod.fst

theorem DeviceMap.rising_iff (m : DeviceMap) : m.rising = true ↔ List.Pairwise (· < ·) m.ids := by
  induction m with
  | nil => simp [DeviceMap.rising, DeviceMap.ids]
  | cons c m ih =>
    obtain ⟨k, d⟩ := c
    cases m with
    | nil => simp [DeviceMap.rising, DeviceMap.ids]
    | cons c' m =>
      obtain ⟨k', d'⟩ := c'
      rw [DeviceMap.rising, Bool.and_eq_true, ih]
      simp only [DeviceMap.ids, List.map_cons, List.pairwise_cons, decide_eq_true_eq, List.mem_cons, forall_eq_or_imp]
      constructor
      · rintro ⟨h1, h2, h3⟩
        exact ⟨⟨h1, fun a ha => lt_trans h1 (h2 a ha)⟩, h2, h3⟩
      · rintro ⟨⟨h1, -⟩, h2, h3⟩
        exact ⟨h1, h2, h3⟩

/-- A found device is in the map. -/
theorem DeviceMap.mem_of_find {m : DeviceMap} {id : Nat} {d : Device} (h : m.find id = some d) : (id, d) ∈ m := by
  induction m with
  | nil => simp at h
  | cons c m ih =>
    obtain ⟨k, e⟩ := c
    rw [DeviceMap.find_cons] at h
    split at h
    · simp_all
    · exact List.mem_cons_of_mem _ (ih h)

/-- The device found in a well-formed map is well-formed. -/
theorem DeviceMap.wf_find {m : DeviceMap} {id : Nat} {d : Device} (hm : m.wf = true) (h : m.find id = some d) : d.wf = true := by
  simp only [DeviceMap.wf, Bool.and_eq_true, List.all_eq_true, decide_eq_true_eq] at hm
  exact (hm.2 _ (DeviceMap.mem_of_find h)).2

theorem DeviceMap.mem_update {m : DeviceMap} {id : Nat} {d : Device} {e : Nat × Device} (h : e ∈ m.update id d) :
    e ∈ m ∨ e.1 = id ∧ e.2 = d := by
  induction m with
  | nil => simp [DeviceMap.update] at h
  | cons c m ih =>
    obtain ⟨k, f⟩ := c
    rw [DeviceMap.update] at h
    split at h
    · rcases List.mem_cons.mp h with rfl | h
      · exact .inr ⟨by assumption, rfl⟩
      · exact .inl (List.mem_cons_of_mem _ h)
    · rcases List.mem_cons.mp h with rfl | h
      · exact .inl (by simp)
      · exact (ih h).imp_left (List.mem_cons_of_mem _)

/-- Updating an installed device with a well-formed one keeps the map well-formed. -/
theorem DeviceMap.wf_update {m : DeviceMap} {id : Nat} {d e : Device} (hm : m.wf = true) (h : m.find id = some d)
    (he : e.wf = true) : (m.update id e).wf = true := by
  have hid : id < 2 ^ 64 := by
    simp only [DeviceMap.wf, Bool.and_eq_true, List.all_eq_true, decide_eq_true_eq] at hm
    exact (hm.2 _ (DeviceMap.mem_of_find h)).1
  simp only [DeviceMap.wf, Bool.and_eq_true, DeviceMap.rising_iff, List.all_eq_true, decide_eq_true_eq] at hm ⊢
  refine ⟨?_, fun x hx => ?_⟩
  · have := DeviceMap.map_update Prod.fst (e := e) h rfl
    rw [DeviceMap.ids, this]
    exact hm.1
  · rcases DeviceMap.mem_update hx with hx | ⟨h1, h2⟩
    · exact hm.2 x hx
    · rw [h1, h2]
      exact ⟨hid, he⟩

theorem DeviceMap.mem_insert {m : DeviceMap} {id : Nat} {d : Device} {e : Nat × Device} (h : e ∈ m.insert id d) :
    e ∈ m ∨ e = (id, d) := by
  induction m with
  | nil => exact .inr (by simpa [DeviceMap.insert] using h)
  | cons c m ih =>
    obtain ⟨k, f⟩ := c
    rw [DeviceMap.insert] at h
    split_ifs at h
    · exact (List.mem_cons.mp h).symm
    · exact (List.mem_cons.mp h).symm.imp_left (List.mem_cons_of_mem _)
    · rcases List.mem_cons.mp h with rfl | h
      · exact .inl (by simp)
      · exact (ih h).imp_left (List.mem_cons_of_mem _)

theorem DeviceMap.rising_insert {m : DeviceMap} (h : m.rising = true) (id : Nat) (d : Device) : (m.insert id d).rising = true := by
  rw [DeviceMap.rising_iff, DeviceMap.ids] at *
  induction m with
  | nil => simp [DeviceMap.insert]
  | cons c m ih =>
    obtain ⟨k, f⟩ := c
    have hm := List.pairwise_cons.mp h
    rw [DeviceMap.insert]
    split_ifs with h1 h2
    · refine List.pairwise_cons.mpr ⟨fun a ha => ?_, h⟩
      rcases List.mem_cons.mp ha with rfl | ha
      · exact h1
      · exact lt_trans h1 (hm.1 a ha)
    · subst h2; exact h
    · refine List.pairwise_cons.mpr ⟨fun a ha => ?_, ih hm.2⟩
      obtain ⟨e, he, rfl⟩ := List.mem_map.mp ha
      rcases DeviceMap.mem_insert he with he | rfl
      · exact hm.1 _ (List.mem_map_of_mem he)
      · show k < id
        omega

/-- Installing a well-formed device under an id below 2^64 keeps the map well-formed. -/
theorem DeviceMap.wf_insert {m : DeviceMap} {id : Nat} {d : Device} (hm : m.wf = true) (hid : id < 2 ^ 64) (hd : d.wf = true) :
    (m.insert id d).wf = true := by
  simp only [DeviceMap.wf, Bool.and_eq_true, List.all_eq_true, decide_eq_true_eq] at hm ⊢
  refine ⟨DeviceMap.rising_insert hm.1 id d, fun e he => ?_⟩
  rcases DeviceMap.mem_insert he with he | rfl
  · exact hm.2 e he
  · exact ⟨hid, hd⟩

/-! ## One device -/

/-- The byte of lane `x`: 0x00 outside the backing storage. -/
def Device.lane (d : Device) (x : Nat) : Byte := if x < d.cap then Memory.read d.store x else 0x00

/-- The device after an access, where `f` says whether it faulted. -/
def Device.faulted (d : Device) (f : Bool) : Device := { d with fault := d.fault || f }

@[simp] theorem Device.faulted_kind (d : Device) (f : Bool) : (d.faulted f).kind = d.kind := rfl
@[simp] theorem Device.faulted_cap (d : Device) (f : Bool) : (d.faulted f).cap = d.cap := rfl
@[simp] theorem Device.faulted_store (d : Device) (f : Bool) : (d.faulted f).store = d.store := rfl
@[simp] theorem Device.faulted_fault (d : Device) (f : Bool) : (d.faulted f).fault = (d.fault || f) := rfl
@[simp] theorem Device.faulted_lane (d : Device) (f : Bool) (x : Nat) : (d.faulted f).lane x = d.lane x := rfl
@[simp] theorem Device.faulted_wf (d : Device) (f : Bool) : (d.faulted f).wf = d.wf := rfl
@[simp] theorem Device.faulted_faulted (d : Device) (f g : Bool) : (d.faulted f).faulted g = d.faulted (f || g) := by
  simp [Device.faulted, Bool.or_assoc]
@[simp] theorem Device.faulted_false (d : Device) : d.faulted false = d := by simp [Device.faulted]
theorem Device.latch_eq (d : Device) : d.latch = d.faulted true := by simp [Device.latch, Device.faulted]

theorem Device.readLane_eq (d : Device) (x : Nat) : d.readLane x = (d.lane x, d.faulted (decide (d.cap ≤ x))) := by
  unfold Device.readLane Device.lane
  by_cases h : x < d.cap
  · have : ¬ d.cap ≤ x := by omega
    simp [h, this]
  · have : d.cap ≤ x := by omega
    simp [h, this, Device.latch_eq]

/-- What the lane loop of a read does. -/
theorem Device.readLanes_eq (d : Device) (x n : Nat) (acc : Word) :
    d.readLanes x n acc =
      (((List.range n).map fun k => d.lane (x + k)).foldl appendByte acc, d.faulted (decide (0 < n ∧ d.cap < x + n))) := by
  induction n generalizing d x acc with
  | zero => simp [Device.readLanes]
  | succ n ih =>
    rw [Device.readLanes, Device.readLane_eq]
    dsimp only
    rw [ih, List.range_succ_eq_map, List.map_cons, List.foldl_cons, List.map_map]
    simp only [Device.faulted_lane, Device.faulted_cap, Device.faulted_faulted, Nat.add_zero, Prod.mk.injEq]
    constructor
    · congr 2
      funext k
      simp only [Function.comp_apply, Nat.succ_eq_add_one]
      congr 1
      omega
    · have h : (decide (d.cap ≤ x) || decide (0 < n ∧ d.cap < x + 1 + n)) = decide (0 < n + 1 ∧ d.cap < x + (n + 1)) := by
        rw [Bool.eq_iff_iff]
        simp only [Bool.or_eq_true, decide_eq_true_eq]
        omega
      exact congrArg d.faulted h

theorem Width.bytes_pos (w : Width) : 0 < w.bytes := by cases w <;> decide

/-- The lanes of an access that starts past the capacity are all zero. -/
theorem Device.foldl_lanes_zero (d : Device) (x n : Nat) (h : d.cap ≤ x) :
    ((List.range n).map fun k => d.lane (x + k)).foldl appendByte 0 = 0 := by
  have : ((List.range n).map fun k => d.lane (x + k)) = List.replicate n 0x00 := by
    rw [List.eq_replicate_iff]
    simp only [List.length_map, List.length_range, List.mem_map, List.mem_range, forall_exists_index, and_imp, true_and]
    rintro b k - rfl
    simp [Device.lane, show ¬ x + k < d.cap by omega]
  rw [this]
  clear this
  induction n with
  | zero => rfl
  | succ n ih => simpa [List.replicate_succ, appendByte] using ih

/-- What DevRead does: the big-endian number of the lanes, and the latch when a lane is outside the storage. -/
theorem Device.read_eq (d : Device) (a : Word) (w : Width) :
    d.read a w = (((List.range w.bytes).map fun k => d.lane (a.toNat + k)).foldl appendByte 0,
      d.faulted (decide (d.cap < a.toNat + w.bytes))) := by
  have hw := Width.bytes_pos w
  unfold Device.read
  split
  · next h =>
    rw [Device.foldl_lanes_zero d _ _ (by omega), Device.latch_eq]
    simp [show d.cap < a.toNat + w.bytes by omega]
  · rw [Device.readLanes_eq]
    simp [hw]

/-- The byte a write of lanes leaves at an address. -/
def Device.lanesWritten (d : Device) (x n : Nat) (v : Word) (y : Nat) : Byte :=
  if x ≤ y ∧ y < x + n ∧ y < d.cap then byteOf v (n - 1 - (y - x)) else Memory.read d.store y

theorem Device.writeLane_kind (d : Device) (x : Nat) (b : Byte) : (d.writeLane x b).kind = d.kind := by
  unfold Device.writeLane Device.latch; split <;> rfl

theorem Device.writeLane_cap (d : Device) (x : Nat) (b : Byte) : (d.writeLane x b).cap = d.cap := by
  unfold Device.writeLane Device.latch; split <;> rfl

theorem Device.writeLane_fault (d : Device) (x : Nat) (b : Byte) :
    (d.writeLane x b).fault = (d.fault || decide (d.cap ≤ x)) := by
  unfold Device.writeLane Device.latch
  by_cases h : x < d.cap
  · simp [h]
  · simp [h, show d.cap ≤ x by omega]

theorem Device.writeLane_wf {d : Device} (hd : d.wf = true) (x : Nat) (b : Byte) : (d.writeLane x b).wf = true := by
  unfold Device.writeLane
  split
  · next h =>
    simp only [Device.wf, Bool.and_eq_true, decide_eq_true_eq] at hd ⊢
    exact ⟨⟨hd.1.1, Memory.wf_write hd.1.2 x b⟩, Memory.below_write h hd.2⟩
  · exact hd

theorem Device.wf_store {d : Device} (hd : d.wf = true) : Memory.wf d.store = true := by
  simp only [Device.wf, Bool.and_eq_true] at hd
  exact hd.1.2

theorem Device.writeLane_store {d : Device} (hd : d.wf = true) (x : Nat) (b : Byte) (y : Nat) :
    Memory.read (d.writeLane x b).store y = if y = x ∧ y < d.cap then b else Memory.read d.store y := by
  unfold Device.writeLane
  by_cases h : x < d.cap
  · rw [if_pos h, Memory.read_write (Device.wf_store hd)]
    by_cases hy : y = x
    · subst hy; simp [h]
    · simp [hy]
  · rw [if_neg h, if_neg (by omega)]
    rfl

/-- What the lane loop of a write does. -/
theorem Device.writeLanes_spec {d : Device} (x n : Nat) (v : Word) :
    (d.writeLanes x n v).kind = d.kind ∧ (d.writeLanes x n v).cap = d.cap
      ∧ (d.writeLanes x n v).fault = (d.fault || decide (0 < n ∧ d.cap < x + n))
      ∧ (d.wf = true → (d.writeLanes x n v).wf = true
          ∧ ∀ y, Memory.read (d.writeLanes x n v).store y = d.lanesWritten x n v y) := by
  induction n generalizing d x with
  | zero =>
    refine ⟨rfl, rfl, by simp [Device.writeLanes], fun hd => ⟨hd, fun y => ?_⟩⟩
    rw [Device.lanesWritten, if_neg (by omega)]
    rfl
  | succ n ih =>
    rw [Device.writeLanes]
    obtain ⟨h1, h2, h3, h4⟩ := ih (d := d.writeLane x (byteOf v n)) (x + 1)
    refine ⟨h1.trans (Device.writeLane_kind ..), h2.trans (Device.writeLane_cap ..), ?_, fun hd => ?_⟩
    · rw [h3, Device.writeLane_fault, Device.writeLane_cap, Bool.or_assoc]
      congr 1
      rw [Bool.eq_iff_iff]
      simp only [Bool.or_eq_true, decide_eq_true_eq]
      omega
    · obtain ⟨h5, h6⟩ := h4 (Device.writeLane_wf hd ..)
      refine ⟨h5, fun y => ?_⟩
      rw [h6 y, Device.lanesWritten, Device.lanesWritten, Device.writeLane_store hd, Device.writeLane_cap]
      by_cases hy : y = x
      · subst hy
        by_cases hc : y < d.cap
        · rw [if_neg (by omega), if_pos ⟨rfl, hc⟩, if_pos ⟨le_rfl, by omega, hc⟩]
          simp
        · rw [if_neg (by omega), if_neg (by omega), if_neg (by omega)]
      · by_cases hr : x + 1 ≤ y ∧ y < x + 1 + n ∧ y < d.cap
        · rw [if_pos hr, if_pos ⟨by omega, by omega, hr.2.2⟩]
          congr 1
          omega
        · rw [if_neg hr, if_neg (by omega), if_neg (by omega)]

/-- What DevWrite does: kind and capacity stay; the latch is set by a ConstantMemory or by a lane outside the storage; a
well-formed Memory takes the lanes inside, most significant byte first. -/
theorem Device.write_spec (d : Device) (a : Word) (w : Width) (v : Word) :
    (d.write a w v).kind = d.kind ∧ (d.write a w v).cap = d.cap
      ∧ (d.write a w v).fault = (d.fault || decide (d.kind = .constantMemory) || decide (d.cap < a.toNat + w.bytes))
      ∧ (d.kind = .constantMemory → (d.write a w v).store = d.store)
      ∧ (d.wf = true → (d.write a w v).wf = true)
      ∧ (d.wf = true → d.kind = .memory →
          ∀ y, Memory.read (d.write a w v).store y = d.lanesWritten a.toNat w.bytes v y) := by
  have hw := Width.bytes_pos w
  unfold Device.write
  by_cases hk : d.kind = .constantMemory
  · simp [hk, Device.latch, Device.wf]
  · by_cases hc : d.cap < a.toNat
    · simp only [if_neg hk, if_pos hc]
      refine ⟨rfl, rfl, by simp [Device.latch, show d.cap < a.toNat + w.bytes by omega], fun _ => rfl, id, fun _ _ y => ?_⟩
      rw [Device.lanesWritten, if_neg (by omega)]
      rfl
    · simp only [if_neg hk, if_neg hc]
      obtain ⟨h1, h2, h3, h4⟩ := Device.writeLanes_spec (d := d) a.toNat w.bytes v
      refine ⟨h1, h2, by rw [h3]; simp [hk, hw], fun h => absurd h hk, fun hd => (h4 hd).1, fun hd _ => (h4 hd).2⟩

/-- A write leaves every byte outside its span alone, whatever form the store has. -/
theorem Device.write_frame (d : Device) (a : Word) (w : Width) (v : Word) {x : Nat}
    (h : ¬(a.toNat ≤ x ∧ x < a.toNat + w.bytes)) : Memory.read (d.write a w v).store x = Memory.read d.store x := by
  have hl : ∀ (n : Nat) (e : Device) (y : Nat) (u : Word), ¬(y ≤ x ∧ x < y + n) →
      Memory.read (e.writeLanes y n u).store x = Memory.read e.store x := by
    intro n
    induction n with
    | zero => intros; rfl
    | succ n ih =>
      intro e y u hy
      rw [Device.writeLanes, ih _ _ _ (by omega), Device.writeLane]
      split
      · exact Memory.read_write_of_ne _ _ (by omega)
      · rfl
  unfold Device.write
  split_ifs
  · rfl
  · rfl
  · exact hl _ _ _ _ h

end Sys2Proof.Machine
end

