-- ==== Sys2Proof/Laws/Values.lean ====
section
/-! SUPPORT. The arithmetic of operand values: sub-width writes, flags, extension, bytes, and ALU results, each said once. -/

namespace Sys2Proof.Machine

theorem Width.bits_le (w : Width) : w.bits ≤ 64 := by cases w <;> decide
theorem Width.bits_pos (w : Width) : 0 < w.bits := by cases w <;> decide
theorem Width.bits_eq (w : Width) : w.bits = 8 * w.bytes := rfl
theorem Width.bytes_le (w : Width) : w.bytes ≤ 8 := by cases w <;> decide

/-! ## Sub-width writes -/

theorem getLsbD_mask (w : Width) (k : Nat) : (mask w).getLsbD k = decide (k < w.bits) := by
  have := Width.bits_le w
  simp only [mask, BitVec.getLsbD_ofNat, Nat.testBit_two_pow_sub_one, Bool.and_eq_right_iff_imp, decide_eq_true_eq]
  omega

/-- Bit by bit: the low bits are the new value's, the rest the old one's. -/
theorem getLsbD_mergeLow (w : Width) (old v : Word) (k : Nat) :
    (mergeLow w old v).getLsbD k = if k < w.bits then v.getLsbD k else old.getLsbD k := by
  have := Width.bits_le w
  rw [mergeLow, BitVec.getLsbD_or, BitVec.getLsbD_and, BitVec.getLsbD_and, BitVec.getLsbD_not, getLsbD_mask]
  by_cases hk : k < w.bits
  · simp only [hk, decide_true, Bool.not_true, Bool.and_false, Bool.and_true, Bool.false_or, if_true]
  · simp only [hk, decide_false, Bool.not_false, Bool.and_false, Bool.and_true, Bool.or_false, if_false]
    by_cases h64 : k < 64
    · simp only [h64, decide_true, Bool.and_true]
    · rw [BitVec.getLsbD_of_ge _ _ (by omega : 64 ≤ k), Bool.false_and]

theorem getLsbD_low (w : Width) (v : Word) (k : Nat) : (low w v).getLsbD k = (decide (k < w.bits) && v.getLsbD k) := by
  simp [low, getLsbD_mask, Bool.and_comm]

theorem toNat_low (w : Width) (v : Word) : (low w v).toNat = v.toNat % 2 ^ w.bits := by
  apply Nat.eq_of_testBit_eq
  intro k
  rw [BitVec.testBit_toNat, getLsbD_low, Nat.testBit_mod_two_pow, BitVec.testBit_toNat]

theorem toNat_mergeLow_mod (w : Width) (old v : Word) : (mergeLow w old v).toNat % 2 ^ w.bits = v.toNat % 2 ^ w.bits := by
  apply Nat.eq_of_testBit_eq
  intro k
  rw [Nat.testBit_mod_two_pow, Nat.testBit_mod_two_pow, BitVec.testBit_toNat, BitVec.testBit_toNat, getLsbD_mergeLow]
  by_cases hk : k < w.bits <;> simp [hk]

theorem toNat_mergeLow_div (w : Width) (old v : Word) : (mergeLow w old v).toNat / 2 ^ w.bits = old.toNat / 2 ^ w.bits := by
  apply Nat.eq_of_testBit_eq
  intro k
  rw [Nat.testBit_div_two_pow, Nat.testBit_div_two_pow, BitVec.testBit_toNat, BitVec.testBit_toNat, getLsbD_mergeLow,
    if_neg (by omega)]

/-- A sub-width write replaces the low bytes. -/
theorem lowReplaced_mergeLow (w : Width) (old v : Word) (x : Int) (h : (v.toNat : Int) % 2 ^ w.bits = x % 2 ^ w.bits) :
    LowReplaced w old (mergeLow w old v) x := by
  refine ⟨?_, toNat_mergeLow_div w old v⟩
  rw [← h]
  exact_mod_cast toNat_mergeLow_mod w old v

theorem mergeLow_low (w : Width) (old v : Word) : mergeLow w old (low w v) = mergeLow w old v := by
  apply BitVec.eq_of_getLsbD_eq
  intro k hk
  rw [getLsbD_mergeLow, getLsbD_mergeLow, getLsbD_low]
  by_cases h : k < w.bits <;> simp [h]

/-! ## Flags -/

/-- Writing a flag changes its bit alone. -/
theorem getLsbD_putFlag (v : Word) (k j : Nat) (f : Bool) (hk : k < 64) :
    (putFlag v k f).getLsbD j = if j = k then f else v.getLsbD j := by
  by_cases hj : j < 64
  · have h1 : ((1 : Word) <<< k).getLsbD j = decide (j = k) := by
      simp only [BitVec.getLsbD_shiftLeft, hj, decide_true, Bool.true_and]
      by_cases h : j < k
      · simp [h, show j ≠ k by omega]
      · have : (1 : Word).getLsbD (j - k) = decide (j - k = 0) := by
          simp
        rw [this]
        simp only [h, decide_false, Bool.not_false, Bool.true_and]
        apply decide_eq_decide.mpr
        omega
    have h2 : ((BitVec.ofBool f).setWidth 64 <<< k).getLsbD j = (decide (j = k) && f) := by
      simp only [BitVec.getLsbD_shiftLeft, hj, decide_true, Bool.true_and, BitVec.getLsbD_setWidth, BitVec.getLsbD_ofBool]
      by_cases h : j = k
      · subst h; simp
      · by_cases h' : j < k
        · simp [h, h']
        · simp [h, h', show ¬ j - k = 0 by omega]
    simp only [putFlag, BitVec.getLsbD_or, BitVec.getLsbD_and, BitVec.getLsbD_not, hj, decide_true, Bool.true_and, h1, h2]
    by_cases h : j = k <;> simp [h]
  · rw [BitVec.getLsbD_of_ge _ _ (by omega), BitVec.getLsbD_of_ge _ _ (by omega), if_neg (by omega)]

theorem State.flag_eq (s : State) (k : Nat) : s.flag k = (s.get .rpf).getLsbD k := rfl

/-- Writing a flag of RPF is exactly that. -/
theorem State.flag_setFlag (s : State) (k j : Nat) (f : Bool) (hk : k < 64) :
    (s.setFlag k f).flag j = if j = k then f else s.flag j := by
  rw [State.flag_eq, State.setFlag_get, if_pos rfl, getLsbD_putFlag _ _ _ _ hk]
  rfl

/-- Raising latches Interrupt and touches nothing else. -/
theorem State.onlyFlag_raise (s : State) : OnlyRegs s s.raise [.rpf] ∧ OnlyFlag s s.raise 0 true := by
  refine ⟨⟨fun r hr => ?_, rfl, rfl⟩, ?_, fun j hj => ?_⟩
  · simp_all
  · exact (State.flag_setFlag s 0 0 true (by omega)).trans (if_pos rfl)
  · exact (State.flag_setFlag s 0 j true (by omega)).trans (if_neg hj)

/-- Bit 1 of RPF lies in the low byte: a sub-width write over it does not see it. -/
theorem mergeLow_putFlag (w : Width) (old v : Word) (f : Bool) : mergeLow w (putFlag old flagO f) v = mergeLow w old v := by
  have h8 : 8 ≤ w.bits := by cases w <;> decide
  apply BitVec.eq_of_getLsbD_eq
  intro k hk
  rw [getLsbD_mergeLow, getLsbD_mergeLow]
  by_cases h : k < w.bits
  · simp [h]
  · rw [if_neg h, if_neg h, getLsbD_putFlag _ _ _ _ (by decide), if_neg (by simp only [flagO]; omega)]

/-! ## Extension and the ALU -/

theorem toInt_sext (w : Width) (v : Word) : (sext w v).toInt = signedLow w v := by
  have hb := Width.bits_le w
  have h2 : 2 ^ w.bits = 2 * 2 ^ (w.bits - 1) := by
    have := Width.bits_pos w
    rw [← Nat.pow_succ', Nat.succ_eq_add_one, Nat.sub_add_cancel this]
  rw [sext, BitVec.toInt_signExtend_of_le hb, BitVec.toInt_eq_toNat_cond, BitVec.toNat_setWidth, signedLow]
  by_cases h : v.toNat % 2 ^ w.bits < 2 ^ (w.bits - 1)
  · rw [if_pos (by omega), if_pos h]
  · rw [if_neg (by omega), if_neg h]
    push_cast
    rfl

theorem toNat_aluResult (op : AluOp) (w : Width) (x y : Word) :
    ((alu op w x y).result.toNat : Int) = op.exact w x y % 2 ^ 64 := by
  simp only [alu, BitVec.toNat_ofInt]
  rw [Int.toNat_of_nonneg (Int.emod_nonneg _ (by decide))]
  norm_num

/-- The low bytes of an ALU result are those of the exact result. -/
theorem aluResult_mod (op : AluOp) (w u : Width) (x y : Word) :
    ((alu op u x y).result.toNat : Int) % 2 ^ w.bits = op.exact u x y % 2 ^ w.bits := by
  rw [toNat_aluResult]
  have : (2 : Int) ^ w.bits ∣ 2 ^ 64 := pow_dvd_pow 2 (Width.bits_le w)
  exact Int.emod_emod_of_dvd _ this

theorem aluOvf_eq (op : AluOp) (w : Width) (x y : Word) :
    (alu op w x y).ovf = decide (op.exact w x y < 0 ∨ (2 : Int) ^ w.bits ≤ op.exact w x y) := by
  simp [alu, overflows]

/-- The target adder: the sum of the start and the signed offset, modulo 2^64. -/
theorem toNat_relativeTarget (start : Word) (w : Width) (off : Word) :
    ((relativeTarget start w off).toNat : Int) = (start.toNat + signedLow w off) % 2 ^ 64 := by
  rw [relativeTarget, toNat_aluResult, AluOp.exact, toInt_sext]

theorem signedLow_low (w : Width) (v : Word) : signedLow w (low w v) = signedLow w v := by
  simp only [signedLow, toNat_low, Nat.mod_mod]

/-! ## Bytes -/

theorem toNat_appendByte (acc : Word) (b : Byte) : (appendByte acc b).toNat = (acc.toNat * 256 + b.toNat) % 2 ^ 64 := by
  apply Nat.eq_of_testBit_eq
  intro k
  have hb : b.toNat < 2 ^ 8 := b.isLt
  have h : acc.toNat * 256 + b.toNat = acc.toNat <<< 8 ||| b.toNat := by
    rw [← Nat.shiftLeft_add_eq_or_of_lt hb, Nat.shiftLeft_eq]
  rw [h, Nat.testBit_mod_two_pow, Nat.testBit_or, Nat.testBit_shiftLeft, BitVec.testBit_toNat, BitVec.testBit_toNat, appendByte,
    BitVec.testBit_toNat, BitVec.getLsbD_or, BitVec.getLsbD_shiftLeft, BitVec.getLsbD_setWidth]
  by_cases h64 : k < 64
  · by_cases h8 : k < 8
    · simp [h64, h8]
    · have hz : b.getLsbD k = false := BitVec.getLsbD_of_ge _ _ (by omega)
      simp only [h64, h8, decide_true, decide_false, Bool.not_false, Bool.true_and, hz, Bool.or_false,
        ge_iff_le, show 8 ≤ k by omega]
  · simp [h64]

theorem beNat_cons (b : Byte) (bs : List Byte) : beNat (b :: bs) = b.toNat * 256 ^ bs.length + beNat bs := by
  have h : ∀ (l : List Byte) (x : Nat), l.foldl (fun acc b => acc * 256 + b.toNat) x = x * 256 ^ l.length + beNat l := by
    intro l
    induction l with
    | nil => intro x; simp [beNat]
    | cons c l ih =>
      intro x
      have h1 : beNat (c :: l) = (0 * 256 + c.toNat) * 256 ^ l.length + beNat l := ih (0 * 256 + c.toNat)
      rw [List.foldl_cons, ih, h1, List.length_cons]
      ring
  rw [beNat, List.foldl_cons, h]
  simp

theorem beNat_lt (bs : List Byte) : beNat bs < 256 ^ bs.length := by
  induction bs with
  | nil => simp [beNat]
  | cons b bs ih =>
    have hb : b.toNat < 256 := b.isLt
    rw [beNat_cons, List.length_cons, Nat.pow_succ]
    nlinarith

/-- The number bytes spell, as the machine accumulates it. -/
theorem toNat_foldl_appendByte (bs : List Byte) (acc : Word) :
    (bs.foldl appendByte acc).toNat = (acc.toNat * 256 ^ bs.length + beNat bs) % 2 ^ 64 := by
  induction bs generalizing acc with
  | nil => simp [beNat, Nat.mod_eq_of_lt acc.isLt]
  | cons b bs ih =>
    rw [List.foldl_cons, ih, toNat_appendByte, beNat_cons, List.length_cons]
    rw [Nat.add_mod, Nat.mod_mul_mod, ← Nat.add_mod]
    congr 1
    ring

theorem toNat_beWord (bs : List Byte) (h : bs.length ≤ 8) : (bs.foldl appendByte 0).toNat = beNat bs := by
  rw [toNat_foldl_appendByte]
  have h1 := beNat_lt bs
  have h2 : 256 ^ bs.length ≤ 256 ^ 8 := Nat.pow_le_pow_right (by decide) h
  have h3 : (256 : Nat) ^ 8 = 2 ^ 64 := by decide
  simp only [Nat.zero_mul, Nat.zero_add, show (0 : Word).toNat = 0 from rfl]
  exact Nat.mod_eq_of_lt (by omega)

theorem byteOf_eq (v : Word) (k : Nat) : byteOf v k = BitVec.ofNat 8 (v.toNat / 256 ^ k) := by
  apply BitVec.eq_of_toNat_eq
  simp only [byteOf, BitVec.toNat_setWidth, BitVec.toNat_ushiftRight, BitVec.toNat_ofNat, Nat.shiftRight_eq_div_pow]
  rw [show (2 : Nat) ^ (8 * k) = 256 ^ k by rw [Nat.pow_mul]]

end Sys2Proof.Machine
end

