-- ==== Sys2Proof/Laws/Ops.lean ====
section
/-! SUPPORT. What each shared operation of the meanings does, and, over all instructions, what `exec` can do to the devices. -/

namespace Sys2Proof.Machine

/-! ## Register fields -/

@[simp] theorem onReg_some (r : Reg) (s : State) (k : Reg → Result) : onReg (some r) s k = k r := rfl
@[simp] theorem onReg_none (s : State) (k : Reg → Result) : onReg none s k = .next s.raise := rfl
@[simp] theorem onRegs_some (r q : Reg) (s : State) (k : Reg → Reg → Result) : onRegs (some r) (some q) s k = k r q := rfl
@[simp] theorem onRegs_none_left (b : RegField) (s : State) (k : Reg → Reg → Result) : onRegs none b s k = .next s.raise := rfl
@[simp] theorem onRegs_none_right (a : RegField) (s : State) (k : Reg → Reg → Result) : onRegs a none s k = .next s.raise := by
  cases a <;> rfl

/-- An instruction on a field either runs on the field's register, or the field is 15 and it raises. -/
theorem onReg_cases {a : RegField} {s : State} {k : Reg → Result} {o : Result} (h : onReg a s k = o) :
    (∃ r, a = some r ∧ k r = o) ∨ a = none ∧ o = .next s.raise := by
  cases a with
  | none => exact .inr ⟨rfl, h.symm⟩
  | some r => exact .inl ⟨r, rfl, h⟩

theorem onRegs_cases {a b : RegField} {s : State} {k : Reg → Reg → Result} {o : Result} (h : onRegs a b s k = o) :
    (∃ r q, a = some r ∧ b = some q ∧ k r q = o) ∨ (a = none ∨ b = none) ∧ o = .next s.raise := by
  cases a with
  | none => exact .inr ⟨.inl rfl, h.symm⟩
  | some r =>
    cases b with
    | none => exact .inr ⟨.inr rfl, h.symm⟩
    | some q => exact .inl ⟨r, q, rfl, rfl, h⟩

/-! ## Data accesses -/

theorem loadThen_some {s : State} {dat : Nat} {d : Device} (h : s.device dat = some d) (a : Word) (w : Width)
    (k : Word → State → Result) : loadThen s dat a w k = k (d.read a w).1 (s.putDevice dat (d.read a w).2) := by
  simp only [loadThen, h]

theorem storeThen_some {s : State} {dat : Nat} {d : Device} (h : s.device dat = some d) (a : Word) (w : Width) (v : Word)
    (k : State → Result) : storeThen s dat a w v k = k (s.putDevice dat (d.write a w v)) := by
  simp only [storeThen, h]

theorem loadThen_none {s : State} {dat : Nat} (h : s.device dat = none) (a : Word) (w : Width) (k : Word → State → Result) :
    loadThen s dat a w k = .fault (.unmappedDevice .data dat) := by
  simp only [loadThen, h]

theorem storeThen_none {s : State} {dat : Nat} (h : s.device dat = none) (a : Word) (w : Width) (v : Word) (k : State → Result) :
    storeThen s dat a w v k = .fault (.unmappedDevice .data dat) := by
  simp only [storeThen, h]

/-- If a load goes on, the device is there. -/
theorem loadThen_next {s t : State} {dat : Nat} {a : Word} {w : Width} {k : Word → State → Result}
    (h : loadThen s dat a w k = .next t) :
    ∃ d, s.device dat = some d ∧ k (d.read a w).1 (s.putDevice dat (d.read a w).2) = .next t := by
  cases hd : s.device dat with
  | none => rw [loadThen_none hd] at h; cases h
  | some d => exact ⟨d, rfl, (loadThen_some hd a w k).symm.trans h⟩

/-- If a store goes on, the device is there. -/
theorem storeThen_next {s t : State} {dat : Nat} {a : Word} {w : Width} {v : Word} {k : State → Result}
    (h : storeThen s dat a w v k = .next t) :
    ∃ d, s.device dat = some d ∧ k (s.putDevice dat (d.write a w v)) = .next t := by
  cases hd : s.device dat with
  | none => rw [storeThen_none hd] at h; cases h
  | some d => exact ⟨d, rfl, (storeThen_some hd a w v k).symm.trans h⟩

theorem State.putDevice_device (s : State) (id j : Nat) (d : Device) :
    (s.putDevice id d).device j = if j = id then (s.device id).map fun _ => d else s.device j :=
  DeviceMap.find_update s.devices id j d

/-! ## What each shared operation leaves, where it goes on -/

theorem loadReg_next {r : Reg} {a : Word} {w : Width} {s t : State} (h : loadReg r a w s = .next t) :
    ∃ d, s.device s.datId = some d ∧ t = (s.putDevice s.datId (d.read a w).2).writeLow r w (d.read a w).1 := by
  obtain ⟨d, hd, h⟩ := loadThen_next (show loadThen s s.datId a w _ = .next t from h)
  cases h
  exact ⟨d, hd, rfl⟩

theorem storeValue_next {a : Word} {w : Width} {v : Word} {s t : State} (h : storeValue a w v s = .next t) :
    ∃ d, s.device s.datId = some d ∧ t = s.putDevice s.datId (d.write a w (low w v)) := by
  obtain ⟨d, hd, h⟩ := storeThen_next (show storeThen s s.datId a w _ _ = .next t from h)
  cases h
  exact ⟨d, hd, rfl⟩

theorem pushReg_next {r q : Reg} {w : Width} {s t : State} (h : pushReg r q w s = .next t) :
    ∃ d, s.device s.datId = some d
      ∧ t = (s.putDevice s.datId (d.write (s.get q) w (low w (s.get r)))).set q (s.get q + widthStep w) := by
  obtain ⟨d, hd, h⟩ := storeThen_next (show storeThen s s.datId _ w _ _ = .next t from h)
  cases h
  exact ⟨d, hd, rfl⟩

/-- The data device is the one RDR named on entry, although the pointer is already written. -/
theorem popReg_next {r q : Reg} {w : Width} {s t : State} (h : popReg r q w s = .next t) :
    ∃ d, s.device s.datId = some d
      ∧ t = (((s.set q (s.get q - widthStep w)).putDevice s.datId (d.read (s.get q - widthStep w) w).2).writeLow r w
          (d.read (s.get q - widthStep w) w).1) := by
  unfold popReg at h
  obtain ⟨d, hd, h⟩ := loadThen_next h
  cases h
  exact ⟨d, hd, rfl⟩

theorem execMovMM_next {a b : Reg} {w : Width} {s t : State} (h : execMovMM w (some a) (some b) s = .next t) :
    ∃ d, s.device s.datId = some d
      ∧ t = ((s.putDevice s.datId (d.read (s.get b) w).2).setBus (d.read (s.get b) w).1).putDevice s.datId
          ((d.read (s.get b) w).2.write (s.get a) w (low w (d.read (s.get b) w).1)) := by
  rw [execMovMM, onRegs_some] at h
  obtain ⟨d, hd, h⟩ := loadThen_next h
  obtain ⟨e, he, h⟩ := storeThen_next h
  have he' : (d.read (s.get b) w).2 = e := by
    rw [State.setBus_device, State.putDevice_device, if_pos rfl, hd] at he
    simpa using he
  cases h
  exact ⟨d, hd, by rw [he']⟩

theorem dividingOp_next {op : AluOp} {w : Width} {a b : Reg} {s t : State} (h : dividingOp op w a b s = .next t) :
    (alu op w (s.get a) (s.get b)).dz = true ∧ t = s.raise
      ∨ (alu op w (s.get a) (s.get b)).dz = false ∧ t = arithmeticOp op w a b s := by
  unfold dividingOp at h
  cases hz : (alu op w (s.get a) (s.get b)).dz <;> rw [hz] at h <;> cases h
  · exact .inr ⟨rfl, rfl⟩
  · exact .inl ⟨rfl, rfl⟩

/-! ## What an access can do to a device -/

/-- The device `e` is what accesses to `d` can leave: kind and capacity as before, the latch not cleared, the form canonical, a
ConstantMemory's content as before. -/
structure Accessed (d e : Device) : Prop where
  kind : e.kind = d.kind
  cap : e.cap = d.cap
  fault : d.fault = true → e.fault = true
  wf : d.wf = true → e.wf = true
  content : d.kind = .constantMemory → e.store = d.store

theorem Accessed.refl (d : Device) : Accessed d d := ⟨rfl, rfl, id, id, fun _ => rfl⟩

theorem Accessed.trans {d e f : Device} (h : Accessed d e) (g : Accessed e f) : Accessed d f :=
  ⟨g.kind.trans h.kind, g.cap.trans h.cap, g.fault ∘ h.fault, g.wf ∘ h.wf,
    fun hk => (g.content (h.kind.trans hk)).trans (h.content hk)⟩

theorem Accessed.read (d : Device) (a : Word) (w : Width) : Accessed d (d.read a w).2 := by
  rw [Device.read_eq]
  exact ⟨rfl, rfl, fun h => by simp [h], fun h => by simpa using h, fun _ => rfl⟩

theorem Accessed.write (d : Device) (a : Word) (w : Width) (v : Word) : Accessed d (d.write a w v) := by
  obtain ⟨h1, h2, h3, h4, h5, -⟩ := Device.write_spec d a w v
  exact ⟨h1, h2, fun h => by simp [h3, h], h5, h4⟩

/-- From `s` to `t` at most the device under `id` was accessed, and the instance is the same. -/
def Touches (id : Nat) (s t : State) : Prop :=
  t.cfg = s.cfg ∧ (t.devices = s.devices ∨ ∃ d e, s.device id = some d ∧ t.devices = s.devices.update id e ∧ Accessed d e)

theorem Touches.same {id : Nat} {s t : State} (hc : t.cfg = s.cfg) (hd : t.devices = s.devices) : Touches id s t := ⟨hc, .inl hd⟩

theorem Touches.put {id : Nat} {s t : State} {d e : Device} (h : s.device id = some d) (ha : Accessed d e) (hc : t.cfg = s.cfg)
    (hd : t.devices = s.devices.update id e) : Touches id s t := ⟨hc, .inr ⟨d, e, h, hd, ha⟩⟩

/-- A load in a state with the devices of `s`, followed by register writes. -/
theorem loadThen_touches {s u t : State} {id : Nat} {a : Word} {w : Width} {g : Word → State → State}
    (hg : ∀ v x, (g v x).devices = x.devices ∧ (g v x).cfg = x.cfg) (hu : u.devices = s.devices ∧ u.cfg = s.cfg)
    (h : loadThen u id a w (fun v x => .next (g v x)) = .next t) : Touches id s t := by
  obtain ⟨d, hd, h⟩ := loadThen_next h
  cases h
  refine Touches.put (e := (d.read a w).2) (d := d) ?_ (Accessed.read d a w) ?_ ?_
  · simpa [State.device, hu.1] using hd
  · rw [(hg _ _).2, State.putDevice_cfg, hu.2]
  · rw [(hg _ _).1, State.putDevice_devices, hu.1]

/-- A store in a state with the devices of `s`, followed by register writes. -/
theorem storeThen_touches {s t : State} {id : Nat} {a : Word} {w : Width} {v : Word} {g : State → State}
    (hg : ∀ x, (g x).devices = x.devices ∧ (g x).cfg = x.cfg)
    (h : storeThen s id a w v (fun x => .next (g x)) = .next t) : Touches id s t := by
  obtain ⟨d, hd, h⟩ := storeThen_next h
  cases h
  exact Touches.put hd (Accessed.write d a w v) (by rw [(hg _).2, State.putDevice_cfg]) (by rw [(hg _).1, State.putDevice_devices])

theorem raise_touches {id : Nat} {s t : State} (h : Host.Outcome.next s.raise = (.next t : Result)) : Touches id s t := by
  cases h
  exact Touches.same rfl rfl

end Sys2Proof.Machine
end

