-- ==== Sys2Proof/Laws/Exec.lean ====
section
/-! SUPPORT. What `exec` can do, said once over all instructions: it accesses the data device at most, and it stops only where none is installed. -/

namespace Sys2Proof.Machine

theorem loadReg_touches {r : Reg} {a : Word} {w : Width} {s t : State} (h : loadReg r a w s = .next t) : Touches s.datId s t :=
  loadThen_touches (g := fun v x => x.writeLow r w v) (fun _ _ => ⟨rfl, rfl⟩) ⟨rfl, rfl⟩ h

theorem storeValue_touches {a : Word} {w : Width} {v : Word} {s t : State} (h : storeValue a w v s = .next t) :
    Touches s.datId s t :=
  storeThen_touches (g := fun x => x) (fun _ => ⟨rfl, rfl⟩) h

theorem pushReg_touches {r q : Reg} {w : Width} {s t : State} (h : pushReg r q w s = .next t) : Touches s.datId s t :=
  storeThen_touches (g := fun x => x.set q (s.get q + widthStep w)) (fun _ => ⟨rfl, rfl⟩) h

theorem popReg_touches {r q : Reg} {w : Width} {s t : State} (h : popReg r q w s = .next t) : Touches s.datId s t := by
  unfold popReg at h
  refine loadThen_touches (s := s) (u := s.set q (s.get q - widthStep w)) (g := fun v x => x.writeLow r w v) ?_ ?_ h
  · exact fun _ _ => ⟨State.writeLow_devices .., State.writeLow_cfg ..⟩
  · exact ⟨State.set_devices .., State.set_cfg ..⟩

theorem movMM_touches {a b : Reg} {w : Width} {s t : State}
    (h : loadThen s s.datId (s.get b) w (fun v t => storeThen (t.setBus v) s.datId (s.get a) w (low w v) .next) = .next t) :
    Touches s.datId s t := by
  obtain ⟨d, hd, h⟩ := loadThen_next h
  obtain ⟨e, he, h⟩ := storeThen_next h
  cases h
  have he' : e = (d.read (s.get b) w).2 := by
    rw [State.setBus_device, State.putDevice_device, if_pos rfl, hd] at he
    simpa using he.symm
  subst he'
  exact Touches.put hd ((Accessed.read d _ w).trans (Accessed.write _ _ w _)) rfl (DeviceMap.update_update ..)

/-- Every instruction accesses the data device at most, and changes nothing else of the devices. -/
theorem exec_touches {i : Instr} {s t : State} (h : exec i s = .next t) : Touches s.datId s t := by
  cases i with
  | nop => cases h; exact Touches.same rfl rfl
  | halt => cases h; exact Touches.same rfl rfl
  | bitNot w a | movRI w a imm | inc a | dec a | jmpR w a =>
    rcases onReg_cases h with ⟨r, -, h⟩ | ⟨-, h⟩
    · cases h; exact Touches.same rfl rfl
    · exact raise_touches h.symm
  | bitAnd w a b | bitOr w a b | bitXor w a b | movRR w a b | add w a b | sub w a b | mul w a b =>
    rcases onRegs_cases h with ⟨r, q, -, -, h⟩ | ⟨-, h⟩
    · cases h; exact Touches.same rfl rfl
    · exact raise_touches h.symm
  | div w a b | mod w a b =>
    rcases onRegs_cases h with ⟨r, q, -, -, h⟩ | ⟨-, h⟩
    · simp only [dividingOp, raiseDivideByZero] at h
      split at h <;> cases h <;> exact Touches.same rfl rfl
    · exact raise_touches h.symm
  | jzI w a imm | jnzI w a imm =>
    rcases onReg_cases h with ⟨r, -, h⟩ | ⟨-, h⟩
    · cases h; split <;> exact Touches.same rfl rfl
    · exact raise_touches h.symm
  | jzR w a b | jnzR w a b =>
    rcases onRegs_cases h with ⟨r, q, -, -, h⟩ | ⟨-, h⟩
    · cases h; split <;> exact Touches.same rfl rfl
    · exact raise_touches h.symm
  | jmpI w imm => cases h; exact Touches.same rfl rfl
  | movRA w a imm =>
    rcases onReg_cases h with ⟨r, -, h⟩ | ⟨-, h⟩
    · exact loadReg_touches h
    · exact raise_touches h.symm
  | movRM w a b =>
    rcases onRegs_cases h with ⟨r, q, -, -, h⟩ | ⟨-, h⟩
    · exact loadReg_touches h
    · exact raise_touches h.symm
  | movMI w a imm | movAR w a imm =>
    rcases onReg_cases h with ⟨r, -, h⟩ | ⟨-, h⟩
    · exact storeValue_touches h
    · exact raise_touches h.symm
  | movMR w a b =>
    rcases onRegs_cases h with ⟨r, q, -, -, h⟩ | ⟨-, h⟩
    · exact storeValue_touches h
    · exact raise_touches h.symm
  | movMM w a b =>
    rcases onRegs_cases h with ⟨r, q, -, -, h⟩ | ⟨-, h⟩
    · exact movMM_touches h
    · exact raise_touches h.symm
  | pushs w a =>
    rcases onReg_cases h with ⟨r, -, h⟩ | ⟨-, h⟩
    · exact pushReg_touches h
    · exact raise_touches h.symm
  | push w a b =>
    rcases onRegs_cases h with ⟨r, q, -, -, h⟩ | ⟨-, h⟩
    · exact pushReg_touches h
    · exact raise_touches h.symm
  | pops w a =>
    rcases onReg_cases h with ⟨r, -, h⟩ | ⟨-, h⟩
    · exact popReg_touches h
    · exact raise_touches h.symm
  | pop w a b =>
    rcases onRegs_cases h with ⟨r, q, -, -, h⟩ | ⟨-, h⟩
    · exact popReg_touches h
    · exact raise_touches h.symm
  | reservedBitwise | reservedStack | reservedArithB4 | reservedArithB8 | reservedJump | reservedCat7 | reservedInc15
  | reservedDec15 => exact raise_touches h

/-- Where a device is installed under RDR, every instruction has a next state. -/
theorem exec_next {i : Instr} {s : State} {d : Device} (hd : s.device s.datId = some d) : ∃ t, exec i s = .next t := by
  have hm : ∀ a b w, ∃ t, loadThen s s.datId a w (fun v t => storeThen (t.setBus v) s.datId b w (low w v) .next) = .next t := by
    intro a b w
    rw [loadThen_some hd]
    have : ((s.putDevice s.datId (d.read a w).2).setBus (d.read a w).1).device s.datId = some (d.read a w).2 := by
      rw [State.setBus_device, State.putDevice_device, if_pos rfl, hd]; rfl
    rw [storeThen_some this]
    exact ⟨_, rfl⟩
  have hl : ∀ r a w, ∃ t, loadReg r a w s = .next t := fun r a w => ⟨_, by rw [loadReg, loadThen_some hd]⟩
  have hs : ∀ a w v, ∃ t, storeValue a w v s = .next t := fun a w v => ⟨_, by rw [storeValue, storeThen_some hd]⟩
  have hp : ∀ r q w, ∃ t, pushReg r q w s = .next t := fun r q w => ⟨_, by rw [pushReg, storeThen_some hd]⟩
  have hq : ∀ r q w, ∃ t, popReg r q w s = .next t := fun r q w => ⟨_, by
    rw [popReg, loadThen_some (s := s.set q _) (d := d) hd]⟩
  have hv : ∀ op w r q, ∃ t, dividingOp op w r q s = .next t := by
    intro op w r q
    rw [dividingOp]
    split <;> exact ⟨_, rfl⟩
  cases i with
  | nop | halt | jmpI => exact ⟨_, rfl⟩
  | reservedBitwise | reservedStack | reservedArithB4 | reservedArithB8 | reservedJump | reservedCat7 | reservedInc15
  | reservedDec15 => exact ⟨_, rfl⟩
  | bitNot w a | inc a | dec a | movRI w a imm | jmpR w a | jzI w a imm | jnzI w a imm => cases a <;> exact ⟨_, rfl⟩
  | bitAnd w a b | bitOr w a b | bitXor w a b | movRR w a b | add w a b | sub w a b | mul w a b | jzR w a b | jnzR w a b =>
    cases a <;> cases b <;> exact ⟨_, rfl⟩
  | pushs w a => cases a; exacts [⟨_, rfl⟩, hp ..]
  | pops w a => cases a; exacts [⟨_, rfl⟩, hq ..]
  | movMI w a imm => cases a; exacts [⟨_, rfl⟩, hs ..]
  | movAR w a imm => cases a; exacts [⟨_, rfl⟩, hs ..]
  | movRA w a imm => cases a; exacts [⟨_, rfl⟩, hl ..]
  | push w a b => cases a <;> cases b; exacts [⟨_, rfl⟩, ⟨_, rfl⟩, ⟨_, rfl⟩, hp ..]
  | pop w a b => cases a <;> cases b; exacts [⟨_, rfl⟩, ⟨_, rfl⟩, ⟨_, rfl⟩, hq ..]
  | movRM w a b => cases a <;> cases b; exacts [⟨_, rfl⟩, ⟨_, rfl⟩, ⟨_, rfl⟩, hl ..]
  | movMR w a b => cases a <;> cases b; exacts [⟨_, rfl⟩, ⟨_, rfl⟩, ⟨_, rfl⟩, hs ..]
  | movMM w a b => cases a <;> cases b; exacts [⟨_, rfl⟩, ⟨_, rfl⟩, ⟨_, rfl⟩, hm ..]
  | div w a b => cases a <;> cases b; exacts [⟨_, rfl⟩, ⟨_, rfl⟩, ⟨_, rfl⟩, hv ..]
  | mod w a b => cases a <;> cases b; exacts [⟨_, rfl⟩, ⟨_, rfl⟩, ⟨_, rfl⟩, hv ..]

end Sys2Proof.Machine
end

