-- ==== Sys2Proof/Laws/Access.lean ====
section
/-! SUPPORT. What a data access and an ALU write-back leave, in the terms the claims use: the shared operations' lemmas, said once. -/

namespace Sys2Proof.Machine

/-! ## Observing -/

theorem State.byteAt_of_device {s : State} {id : Nat} {d : Device} (h : s.device id = some d) (x : Nat) :
    s.byteAt id x = if x < d.cap then some (Memory.read d.store x) else none := by
  simp only [State.byteAt, h]

theorem State.lanes_of_device {s : State} {id : Nat} {d : Device} (h : s.device id = some d) (a n : Nat) :
    s.lanes id a n = (List.range n).map fun k => d.lane (a + k) := by
  unfold State.lanes
  apply List.map_congr_left
  intro k _
  rw [State.byteAt_of_device h, Device.lane]
  split <;> rfl

theorem Device.toNat_read (d : Device) (x : Word) (w : Width) :
    (d.read x w).1.toNat = beNat ((List.range w.bytes).map fun k => d.lane (x.toNat + k)) := by
  rw [Device.read_eq]
  exact toNat_beWord _ (by simpa using Width.bytes_le w)

/-- The bytes of a number spell the number. -/
theorem beNat_byteOf (v : Word) (n : Nat) : beNat ((List.range n).map fun k => byteOf v (n - 1 - k)) = v.toNat % 256 ^ n := by
  induction n with
  | zero => simp [beNat, Nat.mod_one]
  | succ n ih =>
    rw [List.range_succ_eq_map, List.map_cons, beNat_cons, List.map_map]
    have : (fun k => byteOf v (n + 1 - 1 - k)) ∘ Nat.succ = fun k => byteOf v (n - 1 - k) := by
      funext k; simp only [Function.comp]; congr 1; omega
    rw [this, ih, byteOf_eq]
    have h := Nat.mod_mul (x := v.toNat) (a := 256 ^ n) (b := 256)
    have h8 : (2 : Nat) ^ 8 = 256 := by norm_num
    simp only [List.length_map, List.length_range, BitVec.toNat_ofNat, Nat.add_sub_cancel, Nat.sub_zero]
    rw [Nat.pow_succ 256 n, h, h8, Nat.mul_comm, Nat.add_comm]

/-! ## A load and a store on the data device -/

/-- The devices after a read of the data device, in a state `u` that has the devices of `s`. -/
theorem State.after_read {s : State} {d : Device} (h : s.device s.datId = some d) (w : Width) (x : Word) (u : State)
    (hu : u.devices = s.devices) :
    let t := (u.putDevice s.datId (d.read x w).2)
    t.cfg = u.cfg ∧ (∀ id y, t.byteAt id y = s.byteAt id y)
    ∧ (∀ id, t.kindAt id = s.kindAt id ∧ t.capAt id = s.capAt id)
    ∧ (∀ id, id ≠ s.datId → t.faultAt id = s.faultAt id)
    ∧ t.faultAt s.datId = some (d.fault || outside d.cap x.toNat w.bytes) := by
  intro t
  have hd : ∀ j, t.device j = if j = s.datId then some (d.read x w).2 else s.device j := by
    intro j
    rw [State.putDevice_device]
    have : ∀ j, u.device j = s.device j := fun j => by rw [State.device, State.device, hu]
    rw [this, this, h]; rfl
  have hr := Device.read_eq d x w
  refine ⟨rfl, fun id y => ?_, fun id => ?_, fun id hid => ?_, ?_⟩
  · unfold State.byteAt; rw [hd]
    by_cases hid : id = s.datId
    · subst hid; rw [if_pos rfl, h, hr]; rfl
    · rw [if_neg hid]
  · unfold State.kindAt State.capAt; rw [hd]
    by_cases hid : id = s.datId
    · subst hid; rw [if_pos rfl, h, hr]; exact ⟨rfl, rfl⟩
    · rw [if_neg hid]; exact ⟨rfl, rfl⟩
  · unfold State.faultAt; rw [hd, if_neg hid]
  · unfold State.faultAt; rw [hd, if_pos rfl, hr]; rfl

/-- The devices after a write to the data device, in a state `u` that has the devices of `s` but for the data device's latch. -/
theorem State.after_write {s u : State} {d e : Device} (hs : s.wf = true) (h : s.device s.datId = some d)
    (he : ∃ f, e = d.faulted f) (w : Width) (x v : Word)
    (hu : ∀ j, u.device j = if j = s.datId then some e else s.device j) :
    Stored s (u.putDevice s.datId (e.write x w v)) x.toNat w v.toNat (storeLatch d e.fault x.toNat w.bytes) := by
  have hwf : d.wf = true := DeviceMap.wf_find hs h
  obtain ⟨f, he⟩ := he
  have hew : e.wf = true := by rw [he]; exact hwf
  obtain ⟨h1, h2, h3, h4, h5, h6⟩ := Device.write_spec e x w v
  have hd : ∀ j, (u.putDevice s.datId (e.write x w v)).device j = if j = s.datId then some (e.write x w v) else s.device j := by
    intro j
    rw [State.putDevice_device, hu, hu, if_pos rfl]
    by_cases hj : j = s.datId <;> simp [hj]
  refine ⟨fun k hk hK hb => ?_, fun id y hn => ?_, fun id => ?_, fun id hid => ?_, ?_⟩
  · have hK' : d.kind = .memory := by simpa [State.kindAt, h] using hK
    rw [State.byteAt_of_device h] at hb
    have hc : x.toNat + k < d.cap := by by_contra hc; simp [hc] at hb
    rw [State.byteAt_of_device (d := e.write x w v) (by rw [hd, if_pos rfl]), h2, if_pos (by rw [he]; exact hc), h6 hew (by rw [he]; exact hK'),
      Device.lanesWritten, if_pos ⟨by omega, by omega, by rw [he]; exact hc⟩, byteOf_eq]
    congr 4; omega
  · by_cases hid : id = s.datId
    · subst hid
      rw [State.byteAt_of_device h, State.byteAt_of_device (d := e.write x w v) (by rw [hd, if_pos rfl]), h2]
      have hcap : e.cap = d.cap := by rw [he]; rfl
      have hst : e.store = d.store := by rw [he]; rfl
      have hkd : e.kind = d.kind := by rw [he]; rfl
      rw [hcap]
      cases hK : d.kind with
      | constantMemory => rw [h4 (hkd.trans hK), hst]
      | memory =>
        rw [h6 hew (hkd.trans hK), Device.lanesWritten, if_neg (c := BitVec.toNat x ≤ y ∧ y < BitVec.toNat x + w.bytes ∧ y < e.cap), hst]
        intro hh
        exact hn ⟨rfl, hh.1, hh.2.1, by simp [State.kindAt, h, hK]⟩
    · simp only [State.byteAt, hd, if_neg hid]
  · unfold State.kindAt State.capAt; rw [hd]
    by_cases hid : id = s.datId
    · subst hid; rw [if_pos rfl, h]; simp only [Option.map_some, h1, h2]; subst he; exact ⟨rfl, rfl⟩
    · rw [if_neg hid]; exact ⟨rfl, rfl⟩
  · unfold State.faultAt; rw [hd, if_neg hid]
  · unfold State.faultAt; rw [hd, if_pos rfl]; simp only [Option.map_some, h3]; subst he; rfl

/-- Only the low bytes of a stored number matter. -/
theorem stored_low {s t : State} {a : Nat} {w : Width} {v : Nat} {l : Bool} (h : Stored s t a w (v % 2 ^ w.bits) l) :
    Stored s t a w v l := by
  obtain ⟨h1, h2⟩ := h
  refine ⟨fun k hk hK hb => ?_, h2⟩
  rw [h1 k hk hK hb]
  congr 1
  apply BitVec.eq_of_toNat_eq
  simp only [BitVec.toNat_ofNat]
  rw [Width.bits_eq, Nat.pow_mul]
  have : (2:Nat) ^ 8 = 256 := by norm_num
  rw [this]
  obtain ⟨m, hm⟩ : ∃ m, w.bytes = (w.bytes - 1 - k) + 1 + m := ⟨k, by omega⟩
  generalize w.bytes - 1 - k = j at hm
  rw [hm, Nat.pow_add]
  rw [Nat.pow_succ, Nat.mul_assoc, Nat.mod_mul_right_div_self, Nat.mod_mul_right_mod]

/-! ## The ALU's write-back -/

/-- An arithmetic operation that reaches its computation: registers, result, BUS and Overflow. -/
theorem arithmeticOp_spec (op : AluOp) (w : Width) (a b : Reg) (s : State) :
    OnlyRegs s (arithmeticOp op w a b s) [a, .rpf]
      ∧ LowReplaced w (s.get a) ((arithmeticOp op w a b s).get a) (op.exact w (s.get a) (s.get b))
      ∧ ((arithmeticOp op w a b s).bus.toNat : Int) = op.exact w (s.get a) (s.get b) % 2 ^ 64
      ∧ (a ≠ .rpf → OnlyFlag s (arithmeticOp op w a b s) 1 (decide (op.exact w (s.get a) (s.get b) < 0 ∨ 2 ^ w.bits ≤ op.exact w (s.get a) (s.get b)))) := by
  refine ⟨⟨fun r hr => ?_, rfl, rfl⟩, ?_, ?_, fun ha => ?_⟩
  · simp_all [arithmeticOp]
  · rw [arithmeticOp, State.writeLow_get, if_pos rfl, State.setFlag_get]; simp only [State.setBus_get]
    have : mergeLow w (if a = .rpf then putFlag (s.get .rpf) flagO (alu op w (s.get a) (s.get b)).ovf else s.get a) (alu op w (s.get a) (s.get b)).result
       = mergeLow w (s.get a) (alu op w (s.get a) (s.get b)).result := by
      split
      · next h => subst h; rw [mergeLow_putFlag]
      · rfl
    rw [this]
    apply lowReplaced_mergeLow
    rw [aluResult_mod]
  · exact toNat_aluResult ..
  · have hf : ∀ j, (arithmeticOp op w a b s).flag j = ((s.setBus (alu op w (s.get a) (s.get b)).result).setFlag flagO (alu op w (s.get a) (s.get b)).ovf).flag j := by
      intro j
      rw [State.flag_eq, State.flag_eq, arithmeticOp, State.writeLow_get, if_neg (Ne.symm ha)]
    refine ⟨?_, fun j hj => ?_⟩
    · rw [hf, State.flag_setFlag _ _ _ _ (by decide), ← aluOvf_eq]; rfl
    · rw [hf, State.flag_setFlag _ _ _ _ (by decide)]; exact if_neg hj

end Sys2Proof.Machine
end

