-- ==== Sys2Proof/Laws/Fetch.lean ====
section
/-! SUPPORT. Lengths of decoded instructions, and what the fetch of a step does, said once: the bytes it reads, RIP past them, the command device's latch. -/

namespace Sys2Proof

/-! ## Lengths -/

theorem hasImmediate_hasOperand {op : Byte} (h : hasImmediate op = true) : hasOperand op = true := by
  revert h
  revert op
  decide

theorem isHalt_hasOperand {op : Byte} (h : isHalt op = true) : hasOperand op = false := by simp [hasOperand, h]

/-- The length of a decoded instruction is that of its opcode byte (30_encoding R104). -/
theorem decodeParts_len (op operand : Byte) (imm : Word) : (decodeParts op operand imm).len = lenOf op := by
  unfold decodeParts lenOf
  by_cases hh : isHalt op = true
  · rw [if_pos hh, if_pos hh]; rfl
  · rw [if_neg hh, if_neg hh]
    unfold hasOperand hasImmediate
    split
    · simp [*, Instr.len]
    · simp only [*, decodeBitwise]; split <;> simp [Instr.len]
    · simp only [*, decodeStack]; split <;> simp [Instr.len]
    · simp only [*, decodeShort]; split <;> simp [Instr.len]
    · simp only [*, decodeMove]; split <;> simp [*, Instr.len]
    · simp only [*, decodeArithmetic]; split <;> simp [Instr.len]
    · simp only [*, decodeJump]; split <;> simp [*, Instr.len]
    · simp [*, Instr.len]

/-- A decoded instruction is HALT exactly where the opcode byte is the halt sentinel (30_encoding R101). -/
theorem decodeParts_halt (op operand : Byte) (imm : Word) : decodeParts op operand imm = .halt ↔ isHalt op = true := by
  unfold decodeParts
  by_cases hh : isHalt op = true
  · simp [hh]
  · rw [if_neg hh]
    refine iff_of_false ?_ hh
    split
    · simp
    · unfold decodeBitwise; split <;> simp
    · unfold decodeStack; split <;> simp
    · unfold decodeShort; split <;> simp
    · unfold decodeMove; split <;> simp
    · unfold decodeArithmetic; split <;> simp
    · unfold decodeJump; split <;> simp
    · simp

/-- How far a step moves RIP, from the opcode byte. -/
theorem decodeParts_advance (op operand : Byte) (imm : Word) :
    (decodeParts op operand imm).advance = if isHalt op then 0 else lenOf op := by
  unfold Instr.advance
  by_cases hh : isHalt op = true
  · rw [if_pos ((decodeParts_halt ..).mpr hh), if_pos hh]
  · rw [if_neg (fun h => hh ((decodeParts_halt ..).mp h)), if_neg hh, decodeParts_len]

end Sys2Proof

namespace Sys2Proof.Machine

/-! ## RIP and the devices while fetching -/

@[simp] theorem State.advanceRip_get (s : State) (n : Nat) (q : Reg) :
    (s.advanceRip n).get q = if q = .rip then s.get .rip + BitVec.ofNat 64 n else s.get q := State.get_set ..
@[simp] theorem State.advanceRip_devices (s : State) (n : Nat) : (s.advanceRip n).devices = s.devices := rfl
@[simp] theorem State.advanceRip_cfg (s : State) (n : Nat) : (s.advanceRip n).cfg = s.cfg := rfl
@[simp] theorem State.advanceRip_bus (s : State) (n : Nat) : (s.advanceRip n).bus = s.bus := rfl
@[simp] theorem State.advanceRip_cmdId (s : State) (n : Nat) : (s.advanceRip n).cmdId = s.cmdId := rfl
@[simp] theorem State.tick_get (s : State) (q : Reg) : s.tick.get q = if q = .rtx then s.get .rtx + 1 else s.get q := State.get_set ..
@[simp] theorem State.tick_devices (s : State) : s.tick.devices = s.devices := rfl
@[simp] theorem State.tick_cfg (s : State) : s.tick.cfg = s.cfg := rfl
@[simp] theorem State.tick_bus (s : State) : s.tick.bus = s.bus := rfl
@[simp] theorem State.tick_cmdId (s : State) : s.tick.cmdId = s.cmdId := rfl
@[simp] theorem State.tick_datId (s : State) : s.tick.datId = s.datId := rfl

theorem State.ext_get {s t : State} (hr : ∀ r, s.get r = t.get r) (hb : s.bus = t.bus) (hd : s.devices = t.devices)
    (hc : s.cfg = t.cfg) : s = t := by
  cases s; cases t
  simp only [State.mk.injEq]
  exact ⟨RegFile.ext_get hr, hb, hd, hc⟩

theorem State.advanceRip_add (s : State) (m n : Nat) : (s.advanceRip m).advanceRip n = s.advanceRip (m + n) := by
  refine State.ext_get (fun r => ?_) rfl rfl rfl
  by_cases h : r = .rip
  · simp [h, BitVec.ofNat_add, BitVec.add_assoc]
  · simp [h]

theorem State.advanceRip_zero (s : State) : s.advanceRip 0 = s :=
  State.ext_get (fun r => by by_cases h : r = .rip <;> simp [h]) rfl rfl rfl

/-- The bytes a fetch of `n` bytes at the current RIP touches leave the storage (20_memory R63). -/
def fetchOutside (cmd : Device) (rip : Word) (n : Nat) : Bool := decide (cmd.cap < rip.toNat + n)

/-- The opcode byte of a step, 0x00 outside the storage. -/
def opAt (cmd : Device) (rip : Word) : Byte := cmd.lane rip.toNat

/-- The operand byte of a step; 0 where the category has none. -/
def operandAt (cmd : Device) (rip : Word) : Byte := if hasOperand (opAt cmd rip) then cmd.lane (rip + 1).toNat else 0

/-- The immediate of a step; 0 where the form has none. -/
def immAt (cmd : Device) (rip : Word) : Word :=
  if hasImmediate (opAt cmd rip) then
    ((List.range (widthField (opAt cmd rip)).bytes).map fun k => cmd.lane ((rip + 2).toNat + k)).foldl appendByte 0
  else 0

/-- The fetches of a step leave the command device's latch set (20_memory R63). -/
def fetchFaults (cmd : Device) (rip : Word) : Bool :=
  fetchOutside cmd rip 1 || (hasOperand (opAt cmd rip) && fetchOutside cmd (rip + 1) 1)
    || (hasImmediate (opAt cmd rip) && fetchOutside cmd (rip + 2) (widthField (opAt cmd rip)).bytes)

/-- The instruction a step reads. -/
def instrAt (cmd : Device) (rip : Word) : Instr := decodeParts (opAt cmd rip) (operandAt cmd rip) (immAt cmd rip)

theorem fetchFrom_eq (cmd : Device) (f : Bool) (s : State) (w : Width) :
    fetchFrom (cmd.faulted f) s w =
      (((List.range w.bytes).map fun k => cmd.lane ((s.get .rip).toNat + k)).foldl appendByte 0,
        cmd.faulted (f || fetchOutside cmd (s.get .rip) w.bytes)) := by
  rw [fetchFrom, Device.read_eq, Device.faulted_faulted]
  rfl

theorem toByte_fetchFrom (cmd : Device) (f : Bool) (s : State) :
    toByte (fetchFrom (cmd.faulted f) s .w8).1 = cmd.lane (s.get .rip).toNat := by
  rw [fetchFrom_eq]
  simp [Width.bytes, toByte, appendByte]

/-- The whole fetch: the instruction at RIP; the tick, the command device's latch and RIP in the state left. -/
theorem fetchOpcode_eq (cmd : Device) (s : State) :
    fetchOpcode cmd s =
      (instrAt cmd (s.get .rip),
        (s.putDevice s.cmdId (cmd.faulted (fetchFaults cmd (s.get .rip)))).advanceRip (instrAt cmd (s.get .rip)).advance) := by
  have h0 : cmd.faulted false = cmd := Device.faulted_false cmd
  have hb : toByte (fetchFrom cmd s .w8).1 = opAt cmd (s.get .rip) := by
    have := toByte_fetchFrom cmd false s
    rwa [h0] at this
  have hd : (fetchFrom cmd s .w8).2 = cmd.faulted (fetchOutside cmd (s.get .rip) 1) := by
    have := fetchFrom_eq cmd false s .w8
    rw [h0] at this
    rw [this]
    rfl
  rw [fetchOpcode, hb, hd, instrAt, decodeParts_advance]
  by_cases hh : isHalt (opAt cmd (s.get .rip)) = true
  · have ho := isHalt_hasOperand hh
    have hi : hasImmediate (opAt cmd (s.get .rip)) = false := by
      by_contra h
      rw [hasImmediate_hasOperand (by simpa using h)] at ho
      cases ho
    rw [if_pos hh, if_pos hh, State.advanceRip_zero, (decodeParts_halt ..).mpr hh]
    simp [fetchFaults, ho, hi]
  · rw [if_neg hh, if_neg hh, fetchOperand]
    have h1 : (s.advanceRip 1).get .rip = s.get .rip + 1 := by simp
    by_cases ho : hasOperand (opAt cmd (s.get .rip)) = true
    · rw [if_pos ho, toByte_fetchFrom, fetchFrom_eq, h1, fetchImmediate]
      have h2 : ((s.advanceRip 1).advanceRip 1).get .rip = s.get .rip + 2 := by
        rw [State.advanceRip_add]; simp
      by_cases hi : hasImmediate (opAt cmd (s.get .rip)) = true
      · rw [if_pos hi, fetchFrom_eq, h2]
        simp only [lenOf, hh, ho, hi, if_true, if_false, Bool.false_eq_true, operandAt, immAt, fetchFaults, Bool.true_and, Prod.mk.injEq, true_and,
          State.advanceRip_add, State.advanceRip_cmdId]
        refine State.ext_get (fun r => ?_) rfl rfl rfl
        by_cases hr : r = .rip
        · simp [hr, BitVec.ofNat_add, BitVec.add_assoc]
        · simp [hr]
      · simp only [lenOf, hh, ho, hi, if_true, if_false, Bool.false_eq_true, operandAt, immAt, fetchFaults, Bool.true_and, Bool.false_and, Bool.or_false,
          Prod.mk.injEq, true_and, State.advanceRip_add, State.advanceRip_cmdId]
        exact State.ext_get (fun r => by by_cases hr : r = .rip <;> simp [hr]) rfl rfl rfl
    · have hi : ¬ hasImmediate (opAt cmd (s.get .rip)) = true := fun h => ho (hasImmediate_hasOperand h)
      simp only [lenOf, hh, ho, hi, if_false, Bool.false_eq_true, operandAt, immAt, fetchFaults, Bool.false_and, Bool.or_false, Prod.mk.injEq, true_and,
        State.advanceRip_cmdId]
      exact State.ext_get (fun r => by by_cases hr : r = .rip <;> simp [hr]) rfl rfl rfl

/-- The fetch of a step, with its two ways to stop. -/
theorem State.fetch_ok {s : State} {i : Instr} {t : State} (h : s.fetch = .ok (i, t)) :
    ∃ cmd, s.device s.cmdId = some cmd ∧ (s.device s.datId).isSome ∧ i = instrAt cmd (s.get .rip)
      ∧ t = (s.tick.putDevice s.cmdId (cmd.faulted (fetchFaults cmd (s.get .rip)))).advanceRip i.advance := by
  unfold State.fetch at h
  split at h
  · cases h
  · cases h
  · next cmd dat hc hd =>
    rw [fetchOpcode_eq] at h
    cases h
    exact ⟨cmd, hc, by simp [hd], rfl, rfl⟩

/-- Where both devices are installed, the fetch succeeds. -/
theorem State.fetch_of_mapped {s : State} {cmd dat : Device} (hc : s.device s.cmdId = some cmd) (hd : s.device s.datId = some dat) :
    s.fetch = .ok (instrAt cmd (s.get .rip),
      (s.tick.putDevice s.cmdId (cmd.faulted (fetchFaults cmd (s.get .rip)))).advanceRip (instrAt cmd (s.get .rip)).advance) := by
  simp only [State.fetch, hc, hd, fetchOpcode_eq]
  rfl

end Sys2Proof.Machine
end

