-- ==== Sys2Proof/Laws/PerInstr.lean ====
section
/-! SUPPORT. Facts about every instruction as syntax, one lemma per constructor. EncodeLength: an encoding has the length its opcode byte gives (30_encoding R104). -/

namespace Sys2Proof.Laws.EncodeLength

/-- The encoder writes exactly the instruction's length, one of the six lengths there are (30_encoding R104). -/
def Statement (i : Instr) : Prop := (encode i).length = i.len ∧ i.len ∈ [1, 2, 3, 4, 6, 10]

theorem short {i : Instr} (h : (encode i).length = 1) (hl : i.len = 1) : Statement i := by
  simp [Statement, h, hl]

theorem two {i : Instr} (h : (encode i).length = 2) (hl : i.len = 2) : Statement i := by
  simp [Statement, h, hl]

theorem sized {i : Instr} {w : Width} (h : ∃ base a imm, encode i = formatI base w a imm) (hl : i.len = 2 + w.bytes) :
    Statement i := by
  obtain ⟨base, a, imm, h⟩ := h
  rw [Statement, h, hl]
  cases w <;> exact ⟨rfl, by decide⟩

theorem nop : Statement (.nop) := short rfl rfl
theorem halt : Statement (.halt) := short rfl rfl
theorem bitNot (w : Width) (a : RegField) : Statement (.bitNot w a) := two rfl rfl
theorem bitAnd (w : Width) (a : RegField) (b : RegField) : Statement (.bitAnd w a b) := two rfl rfl
theorem bitOr (w : Width) (a : RegField) (b : RegField) : Statement (.bitOr w a b) := two rfl rfl
theorem bitXor (w : Width) (a : RegField) (b : RegField) : Statement (.bitXor w a b) := two rfl rfl
theorem pushs (w : Width) (a : RegField) : Statement (.pushs w a) := two rfl rfl
theorem pops (w : Width) (a : RegField) : Statement (.pops w a) := two rfl rfl
theorem push (w : Width) (a : RegField) (b : RegField) : Statement (.push w a b) := two rfl rfl
theorem pop (w : Width) (a : RegField) (b : RegField) : Statement (.pop w a b) := two rfl rfl
theorem inc (r : RegField) : Statement (.inc r) := short rfl rfl
theorem dec (r : RegField) : Statement (.dec r) := short rfl rfl
theorem movRR (w : Width) (a : RegField) (b : RegField) : Statement (.movRR w a b) := two rfl rfl
theorem movRM (w : Width) (a : RegField) (b : RegField) : Statement (.movRM w a b) := two rfl rfl
theorem movMR (w : Width) (a : RegField) (b : RegField) : Statement (.movMR w a b) := two rfl rfl
theorem movMM (w : Width) (a : RegField) (b : RegField) : Statement (.movMM w a b) := two rfl rfl
theorem movRI (w : Width) (a : RegField) (imm : Word) : Statement (.movRI w a imm) := sized ⟨_, _, _, rfl⟩ rfl
theorem movMI (w : Width) (a : RegField) (imm : Word) : Statement (.movMI w a imm) := sized ⟨_, _, _, rfl⟩ rfl
theorem movRA (w : Width) (a : RegField) (imm : Word) : Statement (.movRA w a imm) := sized ⟨_, _, _, rfl⟩ rfl
theorem movAR (w : Width) (a : RegField) (imm : Word) : Statement (.movAR w a imm) := sized ⟨_, _, _, rfl⟩ rfl
theorem add (w : Width) (a : RegField) (b : RegField) : Statement (.add w a b) := two rfl rfl
theorem sub (w : Width) (a : RegField) (b : RegField) : Statement (.sub w a b) := two rfl rfl
theorem mul (w : Width) (a : RegField) (b : RegField) : Statement (.mul w a b) := two rfl rfl
theorem div (w : Width) (a : RegField) (b : RegField) : Statement (.div w a b) := two rfl rfl
theorem mod (w : Width) (a : RegField) (b : RegField) : Statement (.mod w a b) := two rfl rfl
theorem jmpI (w : Width) (imm : Word) : Statement (.jmpI w imm) := sized ⟨_, _, _, rfl⟩ rfl
theorem jmpR (w : Width) (a : RegField) : Statement (.jmpR w a) := two rfl rfl
theorem jzI (w : Width) (a : RegField) (imm : Word) : Statement (.jzI w a imm) := sized ⟨_, _, _, rfl⟩ rfl
theorem jzR (w : Width) (a : RegField) (b : RegField) : Statement (.jzR w a b) := two rfl rfl
theorem jnzI (w : Width) (a : RegField) (imm : Word) : Statement (.jnzI w a imm) := sized ⟨_, _, _, rfl⟩ rfl
theorem jnzR (w : Width) (a : RegField) (b : RegField) : Statement (.jnzR w a b) := two rfl rfl
theorem reservedBitwise (sub : BitVec 2) (w : Width) : Statement (.reservedBitwise sub w) := two rfl rfl
theorem reservedStack (sub : BitVec 2) (w : Width) : Statement (.reservedStack sub w) := two rfl rfl
theorem reservedArithB4 (w : Width) : Statement (.reservedArithB4 w) := two rfl rfl
theorem reservedArithB8 (sub : BitVec 1) (w : Width) : Statement (.reservedArithB8 sub w) := two rfl rfl
theorem reservedJump (sub : BitVec 1) (w : Width) : Statement (.reservedJump sub w) := two rfl rfl
theorem reservedCat7 (sub : BitVec 3) (w : Width) : Statement (.reservedCat7 sub w) := short rfl rfl
theorem reservedInc15 : Statement (.reservedInc15) := short rfl rfl
theorem reservedDec15 : Statement (.reservedDec15) := short rfl rfl

end Sys2Proof.Laws.EncodeLength
end

