-- ==== Sys2Proof/Laws/Step.lean ====
section
/-! SUPPORT. A step as the instruction at RIP run in the state the fetch leaves, `decode` on the bytes at RIP, and runs of the core. -/

namespace Sys2Proof.Machine

theorem State.mapped_iff {s : State} :
    s.mapped = true ↔ ∃ c d, s.device s.cmdId = some c ∧ s.device s.datId = some d := by
  simp only [State.mapped, Bool.and_eq_true, Option.isSome_iff_exists]
  exact ⟨fun ⟨⟨c, hc⟩, ⟨d, hd⟩⟩ => ⟨c, d, hc, hd⟩, fun ⟨c, d, hc, hd⟩ => ⟨⟨c, hc⟩, ⟨d, hd⟩⟩⟩

/-- A step runs the instruction at RIP. -/
theorem step_eq {s : State} {c d : Device} (hc : s.device s.cmdId = some c) (hd : s.device s.datId = some d) :
    step s = exec (instrAt c (s.get .rip))
      ((s.tick.putDevice s.cmdId (c.faulted (fetchFaults c (s.get .rip)))).advanceRip (instrAt c (s.get .rip)).advance) := by
  rw [step, State.fetch_of_mapped hc hd]

/-- Where no fetched byte is outside the storage, the effect runs in the entered state. -/
theorem step_eq_exec_entered {s : State} {c d : Device} (hc : s.device s.cmdId = some c) (hd : s.device s.datId = some d)
    (hf : fetchFaults c (s.get .rip) = false) :
    step s = exec (instrAt c (s.get .rip)) (s.entered (instrAt c (s.get .rip))) := by
  rw [step_eq hc hd, hf, Device.faulted_false]
  have : s.tick.putDevice s.cmdId c = s.tick := by
    unfold State.putDevice
    have : s.tick.devices.update s.cmdId c = s.tick.devices := DeviceMap.update_self hc
    rw [this]
  rw [this]; rfl

theorem Word.toNat_add_of_lt (x : Word) (k : Nat) (h : x.toNat + k < 2 ^ 64) : (x + BitVec.ofNat 64 k).toNat = x.toNat + k := by
  rw [BitVec.toNat_add, BitVec.toNat_ofNat, Nat.mod_eq_of_lt (a := k) (by omega), Nat.mod_eq_of_lt h]

/-! ## The bytes a step fetches, and where -/

@[simp] theorem fetchAddr_zero (rip : Word) : fetchAddr rip 0 = rip.toNat := by rw [fetchAddr]
theorem fetchAddr_one (rip : Word) : fetchAddr rip 1 = (rip + 1).toNat := (BitVec.toNat_add rip 1).symm
theorem fetchAddr_add_two (rip : Word) (k : Nat) : fetchAddr rip (k + 2) = (rip + 2).toNat + k :=
  congrArg (· + k) (BitVec.toNat_add rip 2).symm

/-- Where neither the operand byte's address nor the immediate's wraps, the bytes are one after another. -/
theorem fetchAddr_of_lt {rip : Word} {k : Nat} (h : rip.toNat + min k 2 < 2 ^ 64) : fetchAddr rip k = rip.toNat + k := by
  rcases k with _ | _ | k
  · rfl
  · exact Nat.mod_eq_of_lt (by omega)
  · rw [fetchAddr, Nat.mod_eq_of_lt (by omega)]
    omega

/-- What `decode` reads from the bytes the fetches of a step reach is the instruction at RIP. -/
theorem decode_instrAt_fetched {c : Device} {rip : Word} {bs rest : List Byte} {i : Instr} (h : decode bs = .ok (i, rest))
    (hb : ∀ k, k < bs.length → bs[k]? = some (c.lane (fetchAddr rip k))) :
    instrAt c rip = i ∧ bs.length = i.len + rest.length ∧ rest = bs.drop i.len := by
  cases bs with
  | nil => cases h
  | cons op tl =>
    have hop : opAt c rip = op := by have := hb 0 (by simp); simpa [opAt] using this.symm
    have hlen := decodeParts_len op
    simp only [decode] at h
    rw [instrAt, hop]
    unfold operandAt immAt
    rw [hop]
    by_cases ho : hasOperand op = true
    · have hh : isHalt op = false := by by_contra hh; rw [isHalt_hasOperand (by simpa using hh)] at ho; cases ho
      rw [if_pos ho] at h ⊢
      cases tl with
      | nil => cases h
      | cons x tl =>
        have hx : c.lane (rip + 1).toNat = x := by have := hb 1 (by simp); rw [fetchAddr_one] at this; simpa using this.symm
        simp only at h
        by_cases hi : hasImmediate op = true
        · rw [if_pos hi] at h ⊢
          split at h
          · cases h
          · next hl =>
            cases h
            have : tl.take (widthField op).bytes = (List.range (widthField op).bytes).map fun k => c.lane ((rip + 2).toNat + k) := by
              apply List.ext_getElem?
              intro k
              by_cases hk : k < (widthField op).bytes
              · have := hb (k + 2) (by simp; omega)
                rw [fetchAddr_add_two] at this
                simp only [List.getElem?_cons_succ] at this
                rw [List.getElem?_take, if_pos hk, this]
                simp [hk]
              · simp [hk]
            rw [hx, beWord, this, hlen]
            have hl2 : lenOf op = 2 + (widthField op).bytes := by simp [lenOf, hh, ho, hi]
            refine ⟨rfl, ?_, ?_⟩
            · rw [hl2]; simp; omega
            · rw [hl2, Nat.add_comm]; rfl
        · rw [if_neg hi] at h ⊢
          cases h
          rw [hx, hlen]
          have hl2 : lenOf op = 2 := by simp [lenOf, hh, ho, hi]
          rw [hl2]
          refine ⟨rfl, ?_, rfl⟩
          simp; omega
    · have hi : ¬ hasImmediate op = true := fun h => ho (hasImmediate_hasOperand h)
      rw [if_neg ho] at h ⊢
      rw [if_neg hi]
      cases h
      have hl2 : lenOf op = 1 := by simp [lenOf, ho]
      rw [hlen, hl2]
      refine ⟨rfl, ?_, rfl⟩
      simp; omega

/-- The same from the lanes one after another, where they do not wrap. -/
theorem decode_instrAt {c : Device} {rip : Word} {bs rest : List Byte} {i : Instr} (h : decode bs = .ok (i, rest))
    (hb : ∀ k, k < bs.length → bs[k]? = some (c.lane (rip.toNat + k))) (hw : ∀ k, k < bs.length → k ≤ 2 → rip.toNat + k < 2 ^ 64) :
    instrAt c rip = i ∧ bs.length = i.len + rest.length ∧ rest = bs.drop i.len :=
  decode_instrAt_fetched h fun k hk => by
    rw [hb k hk, fetchAddr_of_lt (hw _ (lt_of_le_of_lt (Nat.min_le_left ..) hk) (Nat.min_le_right ..))]

/-- A fetch of some bytes is outside exactly if one of its lanes is. -/
theorem fetchOutside_eq_any (c : Device) (x : Word) {n : Nat} (hn : 0 < n) :
    fetchOutside c x n = (List.range n).any fun k => decide (c.cap ≤ x.toNat + k) := by
  rw [fetchOutside, Bool.eq_iff_iff, decide_eq_true_iff, List.any_eq_true]
  simp only [List.mem_range, decide_eq_true_iff]
  exact ⟨fun h => ⟨n - 1, by omega, by omega⟩, fun ⟨k, hk, h⟩ => by omega⟩

/-- The fetches of a step set the latch exactly if one of the instruction's bytes is outside the storage, at any RIP. -/
theorem fetchFaults_eq_any (c : Device) (rip : Word) :
    fetchFaults c rip = fetchOutsideAny c.cap rip (instrAt c rip).len := by
  rw [instrAt, decodeParts_len, fetchFaults, fetchOutsideAny]
  generalize opAt c rip = op
  rw [fetchOutside_eq_any c rip one_pos, fetchOutside_eq_any c (rip + 1) one_pos,
    fetchOutside_eq_any c (rip + 2) (Width.bytes_pos (widthField op))]
  by_cases ho : hasOperand op = true
  · have hh : isHalt op = false := by by_contra hh; rw [isHalt_hasOperand (by simpa using hh)] at ho; cases ho
    by_cases hi : hasImmediate op = true
    · have hl : lenOf op = (widthField op).bytes + 1 + 1 := by simp [lenOf, hh, ho, hi]; omega
      simp only [hl, ho, hi, List.range_succ_eq_map (n := _ + 1), List.range_succ_eq_map (n := (widthField op).bytes), List.any_cons, List.any_map]
      simp [Function.comp_def, fetchAddr_one, fetchAddr_add_two, Bool.or_assoc]
    · have hl : lenOf op = 2 := by simp [lenOf, hh, ho, hi]
      simp [hl, ho, hi, List.range_succ, fetchAddr_one]
  · have hl : lenOf op = 1 := by simp [lenOf, ho]
    have hi : ¬ hasImmediate op = true := fun h => ho (hasImmediate_hasOperand h)
    simp [hl, ho, hi]

/-- Where the instruction's bytes do not wrap, the latch is set exactly if one of them is outside the storage. -/
theorem fetchFaults_eq_outside {c : Device} {rip : Word}
    (hw : rip.toNat + (instrAt c rip).len ≤ 2 ^ 64 ∨ rip.toNat + 2 < 2 ^ 64) :
    fetchFaults c rip = outside c.cap rip.toNat (instrAt c rip).len := by
  have h1 : rip.toNat + 2 ≤ 2 ^ 64 → (rip + 1).toNat = rip.toNat + 1 := fun h => Word.toNat_add_of_lt rip 1 (by omega)
  have h2 : rip.toNat + 3 ≤ 2 ^ 64 → (rip + 2).toNat = rip.toNat + 2 := fun h => Word.toNat_add_of_lt rip 2 (by omega)
  rw [instrAt, decodeParts_len] at *
  rw [fetchFaults, fetchOutside, fetchOutside, fetchOutside]
  unfold lenOf at *
  unfold outside
  generalize opAt c rip = op at *
  by_cases hh : isHalt op = true
  · have ho := isHalt_hasOperand hh
    have hi : hasImmediate op = false := by
      by_contra h
      rw [hasImmediate_hasOperand (by simpa using h)] at ho
      cases ho
    simp [hh, ho, hi]
  · by_cases ho : hasOperand op = true
    · by_cases hi : hasImmediate op = true
      · have := Width.bytes_pos (widthField op)
        simp only [hh, ho, hi, if_true, if_false, Bool.false_eq_true] at hw ⊢
        rw [h1 (by omega), h2 (by omega)]
        rw [Bool.eq_iff_iff]; simp; omega
      · simp only [hh, ho, hi, if_true, if_false, Bool.false_eq_true] at hw ⊢
        rw [h1 (by omega)]
        rw [Bool.eq_iff_iff]; simp; omega
    · have hi : ¬ hasImmediate op = true := fun h => ho (hasImmediate_hasOperand h)
      simp [hh, ho, hi]

end Sys2Proof.Machine

namespace Sys2Proof

open Sys2Proof.Machine

theorem Instr.len_bounds (i : Instr) : 1 ≤ i.len ∧ i.len ≤ 10 := by
  have h : ∀ w : Width, 1 ≤ 2 + w.bytes ∧ 2 + w.bytes ≤ 10 := by intro w; cases w <;> decide
  cases i <;> first | exact h _ | (constructor <;> decide) | (simp [Instr.len])

theorem decode_total {bs : List Byte} (h : 10 ≤ bs.length) : ∃ i rest, decode bs = .ok (i, rest) := by
  rcases bs with _ | ⟨op, _ | ⟨x, tl⟩⟩
  · simp at h
  · simp at h
  · simp only [decode]
    split
    · split
      · split
        · next hl => have := Width.bytes_le (widthField op); simp at h; omega
        · exact ⟨_, _, rfl⟩
      · exact ⟨_, _, rfl⟩
    · exact ⟨_, _, rfl⟩

theorem decode_rest {bs rest : List Byte} {i : Instr} (h : decode bs = .ok (i, rest)) : rest = bs.drop i.len := by
  rcases bs with _ | ⟨op, _ | ⟨x, tl⟩⟩
  · cases h
  · simp only [decode] at h
    split at h
    · cases h
    · next ho => cases h; rw [decodeParts_len]; simp [lenOf, ho]
  · simp only [decode] at h
    split at h
    · next ho =>
      have hh : isHalt op = false := by by_contra hh; rw [isHalt_hasOperand (by simpa using hh)] at ho; cases ho
      split at h
      · next hi =>
        split at h
        · cases h
        · cases h; rw [decodeParts_len]; simp [lenOf, hh, ho, hi, Nat.add_comm 2, List.drop_succ_cons]
      · next hi => cases h; rw [decodeParts_len]; simp [lenOf, hh, ho, hi]
    · next ho => cases h; rw [decodeParts_len]; simp [lenOf, ho]

theorem run_succ_of_step (M : Host.Core) {s t : M.State} {k : Nat} (h : M.step s = .next t) :
    M.run (k + 1) s = M.run k t := by
  simp only [Host.Core.run, h]
theorem core_run_succ {s t : State} {k : Nat} (h : step s = .next t) :
    Sys2Proof.core.run (k + 1) s = Sys2Proof.core.run k t :=
  run_succ_of_step Sys2Proof.core h

end Sys2Proof
end

