-- ==== Sys2Proof/Tests/Slice0.lean ====
section
/-! SUPPORT. The model's own tests: ill-formed terms are refused, every constructor's decoding on a word written out from 30_encoding, the spec's vectors (95_test_vectors, one step each), the host's words, and a witness for the hypotheses of every obligation that has some. -/

namespace Sys2Proof.Tests

open Sys2Proof Sys2Proof.Machine

/-! ## WellFormed: each check refuses an ill-formed term -/

/-- 15 in a used register field (30 R111, R124). -/
theorem test_wf_refuses_field15 : (Instr.bitAnd .w8 none (some .rm0)).wellFormed = false
    ∧ (Instr.bitAnd .w8 none (some .rm0)).badReg = true := by decide

/-- An immediate that does not fit its declared width (R109). -/
theorem test_wf_refuses_wide_immediate : (Instr.movRI .w8 (some .rm0) 0x100).wellFormed = false
    ∧ (Instr.movRI .w8 (some .rm0) 0x100).immOk = false := by decide

/-- The reserved-category spelling of the byte 0xFF, which is HALT (R101, R122). -/
theorem test_wf_refuses_halt_spelling : (Instr.reservedCat7 7 .w64).wellFormed = false
    ∧ (Instr.reservedCat7 7 .w64).notHaltByte = false := by decide

theorem test_wf_accepts : (Instr.movRI .w8 (some .rhm) 0xFF).wellFormed = true ∧ (Instr.reservedCat7 6 .w64).wellFormed = true := by
  decide

/-! ## Decoding: one word per constructor, written out bit by bit as category, sub-instruction, width code, fields a and b -/

/-- The opcode byte of a sized row from its three fields (30 R100). -/
def op (cat sub : BitVec 3) (ww : BitVec 2) : Byte := cat ++ sub ++ ww


/-- The operand byte from its two fields (30 R103). -/
def ab (a b : BitVec 4) : Byte := a ++ b

theorem test_decode_nop_halt : decode [op 0b000 0b000 0b00] = .ok (.nop, []) ∧ decode [op 0b000 0b111 0b11] = .ok (.nop, [])
    ∧ decode [op 0b111 0b111 0b11] = .ok (.halt, []) := by decide

theorem test_decode_bitwise : decode [op 0b001 0b000 0b01, ab 0 15] = .ok (.bitNot .w16 (some .rm0), [])
    ∧ decode [op 0b001 0b001 0b01, ab 0 1] = .ok (.bitAnd .w16 (some .rm0) (some .rm1), [])
    ∧ decode [op 0b001 0b010 0b10, ab 2 3] = .ok (.bitOr .w32 (some .rm2) (some .rm3), [])
    ∧ decode [op 0b001 0b011 0b11, ab 14 13] = .ok (.bitXor .w64 (some .rhm) (some .rlm), []) := by decide

theorem test_decode_stack : decode [op 0b010 0b000 0b11, ab 0 0] = .ok (.pushs .w64 (some .rm0), [])
    ∧ decode [op 0b010 0b001 0b01, ab 4 0] = .ok (.pops .w16 (some .rs0), [])
    ∧ decode [op 0b010 0b010 0b10, ab 5 6] = .ok (.push .w32 (some .rs1) (some .rs2), [])
    ∧ decode [op 0b010 0b011 0b00, ab 3 7] = .ok (.pop .w8 (some .rm3) (some .rs3), []) := by decide

theorem test_decode_short : decode [op 0b011 0b010 0b11] = .ok (.inc (some .rpf), [])
    ∧ decode [op 0b011 0b111 0b00] = .ok (.dec (some .rtx), []) := by decide

theorem test_decode_move : decode [op 0b100 0b000 0b00, ab 8 9] = .ok (.movRR .w8 (some .rip) (some .rdc), [])
    ∧ decode [op 0b100 0b001 0b01, ab 0 10] = .ok (.movRM .w16 (some .rm0) (some .rdr), [])
    ∧ decode [op 0b100 0b010 0b10, ab 2 3] = .ok (.movMR .w32 (some .rm2) (some .rm3), [])
    ∧ decode [op 0b100 0b011 0b11, ab 5 6] = .ok (.movMM .w64 (some .rs1) (some .rs2), []) := by decide

theorem test_decode_move_immediate :
    decode [op 0b100 0b100 0b10, ab 1 0, 0xDE, 0xAD, 0xBE, 0xEF] = .ok (.movRI .w32 (some .rm1) 0xDEADBEEF, [])
    ∧ decode [op 0b100 0b101 0b01, ab 1 0, 0xBE, 0xEF] = .ok (.movMI .w16 (some .rm1) 0xBEEF, [])
    ∧ decode [op 0b100 0b110 0b00, ab 2 0, 0x10] = .ok (.movRA .w8 (some .rm2) 0x10, [])
    ∧ decode [op 0b100 0b111 0b11, ab 3 0, 1, 2, 3, 4, 5, 6, 7, 8, 0x99]
        = .ok (.movAR .w64 (some .rm3) 0x0102030405060708, [0x99]) := by decide

theorem test_decode_arithmetic : decode [op 0b101 0b000 0b11, ab 0 1] = .ok (.add .w64 (some .rm0) (some .rm1), [])
    ∧ decode [op 0b101 0b001 0b00, ab 0 1] = .ok (.sub .w8 (some .rm0) (some .rm1), [])
    ∧ decode [op 0b101 0b010 0b01, ab 1 2] = .ok (.mul .w16 (some .rm1) (some .rm2), [])
    ∧ decode [op 0b101 0b011 0b10, ab 2 3] = .ok (.div .w32 (some .rm2) (some .rm3), [])
    ∧ decode [op 0b101 0b100 0b11, ab 3 4] = .ok (.mod .w64 (some .rm3) (some .rs0), []) := by decide

theorem test_decode_jump : decode [op 0b110 0b000 0b01, ab 15 15, 0xFF, 0xF0] = .ok (.jmpI .w16 0xFFF0, [])
    ∧ decode [op 0b110 0b001 0b11, ab 8 0] = .ok (.jmpR .w64 (some .rip), [])
    ∧ decode [op 0b110 0b100 0b00, ab 0 0, 0x06] = .ok (.jzI .w8 (some .rm0) 0x06, [])
    ∧ decode [op 0b110 0b101 0b01, ab 0 1] = .ok (.jzR .w16 (some .rm0) (some .rm1), [])
    ∧ decode [op 0b110 0b110 0b00, ab 1 0, 0xFD] = .ok (.jnzI .w8 (some .rm1) 0xFD, [])
    ∧ decode [op 0b110 0b111 0b01, ab 2 3] = .ok (.jnzR .w16 (some .rm2) (some .rm3), []) := by decide

theorem test_decode_reserved : decode [op 0b001 0b100 0b00, ab 0 0] = .ok (.reservedBitwise 0 .w8, [])
    ∧ decode [op 0b010 0b111 0b00, ab 1 2] = .ok (.reservedStack 3 .w8, [])
    ∧ decode [op 0b101 0b101 0b11, ab 15 15, 1] = .ok (.reservedArithB4 .w64, [1])
    ∧ decode [op 0b101 0b111 0b01, ab 0 0] = .ok (.reservedArithB8 1 .w16, [])
    ∧ decode [op 0b110 0b010 0b00, ab 0 0] = .ok (.reservedJump 0 .w8, [])
    ∧ decode [op 0b111 0b111 0b10] = .ok (.reservedCat7 7 .w32, [])
    ∧ decode [op 0b011 0b011 0b11] = .ok (.reservedInc15, []) ∧ decode [op 0b011 0b111 0b11] = .ok (.reservedDec15, []) := by decide

/-- A truncated instruction is rejected by name. -/
theorem test_decode_truncated : decode [] = .error .noOpcodeByte ∧ decode [0xA3] = .error (.noOperandByte 0xA3)
    ∧ decode [0x91, 0x10, 0xAB] = .error (.shortImmediate 0x91) := by decide

/-- Field 15 is kept as no register, and the term is ill-formed (30 R124). -/
theorem test_decode_field15 : decode [0xA3, 0x0F] = .ok (.add .w64 (some .rm0) none, []) := by decide

/-! ## The spec's vectors: one step, every register and every device compared -/

/-- A ROM (device 1) holding the code from `start` on. -/
def rom (start : Nat) (code : List Byte) : Device :=
  { kind := .constantMemory, cap := start + code.length, store := Memory.load [] start code, fault := false }

/-- A RAM (device 0) of 4096 bytes. -/
def ram (cells : List (Nat × List Byte)) : Device :=
  { kind := .memory, cap := 0x1000, store := cells.foldl (fun m c => Memory.load m c.1 c.2) [], fault := false }

/-- The start state of a vector (95 section 1): code in ROM, RDC = 1, RDR = 0, RIP = start, the registers given. -/
def boot (start : Nat) (code : List Byte) (regs : List (Reg × Word)) (cells : List (Nat × List Byte)) : State :=
  regs.foldl (fun s e => s.set e.1 e.2)
    (((State.construct Config.reference [(0, ram cells), (1, rom start code)]).set .rdc 1).set .rip (BitVec.ofNat 64 start))

/-- After one step: the registers listed, RIP and RTX as given, every other register as before; RAM holds the cells given, ROM what
it held; the two latches. -/
def steps (s : State) (rip : Word) (regs : List (Reg × Word)) (cells : List (Nat × List Byte)) (fRam fRom : Bool) : Bool :=
  match step s, s.devices with
  | .next t, [_, (_, r)] =>
    t.regs == (regs.foldl (fun u e => u.set e.1 e.2) ((s.set .rtx (s.get .rtx + 1)).set .rip rip)).regs
      && t.devices == [(0, { ram cells with fault := fRam }), (1, { r with fault := fRom })]
  | _, _ => false

/-- V1. -/
theorem test_nop : steps (boot 0x400 [0x00] [(.rtx, 7)] []) 0x401 [] [] false false = true := by
  decide

/-- V3. -/
theorem test_halt : steps (boot 0x40A [0xFF] [(.rpf, 2), (.rtx, 9)] []) 0x40A [(.rpf, 0x80000002)] [] false false = true := by
  decide

/-- V6. -/
theorem test_reserved_arith_b4 : steps (boot 0x10 [0xB7, 0xFF, 0x01, 0x02] [] []) 0x12 [(.rpf, 1)] [] false false = true := by
  decide

/-- V7. -/
theorem test_reserved_bitwise : steps (boot 0x0 [0x30, 0x00] [] []) 0x2 [(.rpf, 1)] [] false false = true := by
  decide

/-- V8. -/
theorem test_reserved_stack : steps (boot 0x0 [0x5C, 0x12] [] []) 0x2 [(.rpf, 1)] [] false false = true := by
  decide

/-- V10. -/
theorem test_reserved_jump : steps (boot 0x0 [0xCF, 0x00, 0x11, 0x22] [] []) 0x2 [(.rpf, 1)] [] false false = true := by
  decide

/-- V12. -/
theorem test_reserved_cat7 : steps (boot 0x0 [0xFE] [] []) 0x1 [(.rpf, 1)] [] false false = true := by
  decide

/-- V13. -/
theorem test_reserved_inc15 : steps (boot 0x0 [0x6F] [] []) 0x1 [(.rpf, 1)] [] false false = true := by
  decide

/-- V14. -/
theorem test_reserved_dec15 : steps (boot 0x0 [0x7F] [] []) 0x1 [(.rpf, 1)] [] false false = true := by
  decide

/-- V17. -/
theorem test_field15_add : steps (boot 0x0 [0xA3, 0x0F] [(.rm0, 1)] []) 0x2 [(.rpf, 1)] [] false false = true := by
  decide

/-- V18. -/
theorem test_field15_jump : steps (boot 0x0 [0xD1, 0xF0, 0x00, 0x10] [] []) 0x4 [(.rpf, 1)] [] false false = true := by
  decide

/-- V16. -/
theorem test_ignored_field : steps (boot 0x0 [0x90, 0x0F, 0x41] [] []) 0x3 [(.rm0, 0x41)] [] false false = true := by
  decide

/-- V21, the operand byte and the immediate outside the ROM. -/
theorem test_truncated_code : steps (boot 0x4F [0x90] [] []) 0x52 [] [] false true = true := by
  decide

/-- V22, the immediate's second lane outside the ROM. -/
theorem test_split_immediate : steps (boot 0x4D [0x91, 0x10, 0xAB] [(.rm1, 0xFFFF)] []) 0x51 [(.rm1, 0xAB00)] [] false true = true := by
  decide

/-- V30. -/
theorem test_movRR : steps (boot 0x0 [0x80, 0x01] [(.rm0, 0x1122334455667788), (.rm1, 0xAABBCCDDEEFF0099)] []) 0x2 [(.rm0, 0x1122334455667799)] [] false false = true := by
  decide

/-- V34. -/
theorem test_movRR_rip : steps (boot 0x100 [0x80, 0x81] [(.rm1, 0x4F0)] []) 0x1F0 [] [] false false = true := by
  decide

/-- V37. -/
theorem test_movRM : steps (boot 0x0 [0x87, 0x01] [(.rm0, 0xFFFFFFFFFFFFFFFF), (.rm1, 0xFFD)] [(0xFFD, [0xA1, 0xA2, 0xA3])]) 0x2 [(.rm0, 0xA1A2A30000000000)] [(0xFFD, [0xA1, 0xA2, 0xA3])] true false = true := by
  decide

/-- V39. -/
theorem test_movRM_gate : steps (boot 0x0 [0x84, 0x01] [(.rm0, 0xFFFFFFFFFFFFFFFF), (.rm1, 0x1001)] []) 0x2 [(.rm0, 0xFFFFFFFFFFFFFF00)] [] true false = true := by
  decide

/-- V41. -/
theorem test_movMR : steps (boot 0x0 [0x89, 0x23] [(.rm2, 0xFFF), (.rm3, 0xBEEF)] []) 0x2 [] [(0xFFF, [0xBE])] true false = true := by
  decide

/-- V44. -/
theorem test_movMM : steps (boot 0x0 [0x8E, 0x56] [(.rs1, 0x0A), (.rs2, 0x08)] [(0x8, [0x01, 0x02, 0x03, 0x04, 0x05, 0x06, 0x07, 0x08])]) 0x2 [] [(0x8, [0x01, 0x02, 0x01, 0x02, 0x03, 0x04, 0x07, 0x08])] false false = true := by
  decide

/-- V46. -/
theorem test_movRI : steps (boot 0x0 [0x93, 0x30, 0x01, 0x02, 0x03, 0x04, 0x05, 0x06, 0x07, 0x08] [] []) 0xA [(.rm3, 0x0102030405060708)] [] false false = true := by
  decide

/-- V49. -/
theorem test_movRI_rpf : steps (boot 0x0 [0x92, 0xB0, 0x80, 0x00, 0x00, 0x03] [] []) 0x6 [(.rpf, 0x80000003)] [] false false = true := by
  decide

/-- V50. -/
theorem test_movMI : steps (boot 0x0 [0x95, 0x10, 0xBE, 0xEF] [(.rm1, 0x30)] []) 0x4 [] [(0x30, [0xBE, 0xEF])] false false = true := by
  decide

/-- V52. -/
theorem test_movRA : steps (boot 0x0 [0x99, 0x20, 0x01, 0x00] [(.rm2, 0x9999999999999999)] [(0x100, [0xCA, 0xFE])]) 0x4 [(.rm2, 0x999999999999CAFE)] [(0x100, [0xCA, 0xFE])] false false = true := by
  decide

/-- V53. -/
theorem test_movAR : steps (boot 0x0 [0x9E, 0x30, 0x00, 0x00, 0x01, 0x00] [(.rm3, 0x1111111122334455)] []) 0x6 [] [(0x100, [0x22, 0x33, 0x44, 0x55])] false false = true := by
  decide

/-- V61. -/
theorem test_pushs : steps (boot 0x0 [0x41, 0x40] [(.rs0, 0x200)] []) 0x2 [(.rs0, 0x202)] [(0x200, [0x02, 0x00])] false false = true := by
  decide

/-- V63. -/
theorem test_pops : steps (boot 0x0 [0x44, 0x10] [(.rs0, 0), (.rm1, 0xFFFF)] []) 0x2 [(.rs0, 0xFFFFFFFFFFFFFFFF), (.rm1, 0xFF00)] [] true false = true := by
  decide

/-- V64. -/
theorem test_pops_self : steps (boot 0x0 [0x45, 0x40] [(.rs0, 0x202)] [(0x200, [0x0A, 0x0B])]) 0x2 [(.rs0, 0x0A0B)] [(0x200, [0x0A, 0x0B])] false false = true := by
  decide

/-- V66. -/
theorem test_push : steps (boot 0x0 [0x4A, 0x55] [(.rs1, 0x80)] []) 0x2 [(.rs1, 0x84)] [(0x80, [0x00, 0x00, 0x00, 0x80])] false false = true := by
  decide

/-- V68. -/
theorem test_push_rip : steps (boot 0x10 [0x48, 0x08] [(.rm0, 0xAB)] []) 0x13 [] [(0x12, [0xAB])] false false = true := by
  decide

/-- V67. -/
theorem test_pop : steps (boot 0x0 [0x4D, 0x35] [(.rs1, 0x82)] [(0x80, [0xCA, 0xFE])]) 0x2 [(.rs1, 0x80), (.rm3, 0xCAFE)] [(0x80, [0xCA, 0xFE])] false false = true := by
  decide

/-- V84. -/
theorem test_jmpI : steps (boot 0x8 [0xC1, 0x00, 0xFF, 0xF0] [] []) 0xFFFFFFFFFFFFFFF8 [] [] false false = true := by
  decide

/-- V86. -/
theorem test_jmpI64 : steps (boot 0x10 [0xC3, 0x00, 0x00, 0x00, 0x00, 0x00, 0x00, 0x00, 0x01, 0x00] [] []) 0x110 [] [] false false = true := by
  decide

/-- V88. -/
theorem test_jmpR : steps (boot 0x20 [0xC4, 0x10] [(.rm1, 0x12F0)] []) 0x10 [] [] false false = true := by
  decide

/-- V87. -/
theorem test_jmpR64 : steps (boot 0x0 [0xC7, 0x00] [(.rm0, 0x400)] []) 0x400 [] [] false false = true := by
  decide

/-- V90. -/
theorem test_jzI : steps (boot 0x30 [0xD0, 0x00, 0x06] [] []) 0x36 [] [] false false = true := by
  decide

/-- V91. -/
theorem test_jzI_untaken : steps (boot 0x30 [0xD0, 0x00, 0x06] [(.rm0, 0x100000000)] []) 0x33 [] [] false false = true := by
  decide

/-- V93. -/
theorem test_jzR : steps (boot 0x200 [0xD5, 0x01] [(.rm1, 0xABCD0010)] []) 0x210 [] [] false false = true := by
  decide

/-- V94. -/
theorem test_jzR_untaken : steps (boot 0x40 [0xD7, 0x01] [(.rm0, 1), (.rm1, 0x500)] []) 0x42 [] [] false false = true := by
  decide

/-- V95. -/
theorem test_jnzI : steps (boot 0x408 [0xD8, 0x00, 0xFD] [(.rm0, 2)] []) 0x405 [] [] false false = true := by
  decide

/-- V97. -/
theorem test_jnzI_untaken : steps (boot 0x408 [0xDA, 0x00, 0x00, 0x00, 0x10, 0x00] [] []) 0x40E [] [] false false = true := by
  decide

/-- V98. -/
theorem test_jnzR : steps (boot 0x100 [0xDD, 0x23] [(.rm2, 1), (.rm3, 0xFFFFFFFFFFFFFFF0)] []) 0xF0 [] [] false false = true := by
  decide

/-- V99. -/
theorem test_jnzR64 : steps (boot 0x100 [0xDF, 0x23] [(.rm2, 1), (.rm3, 0xFFFFFFFFFFFFFFF0)] []) 0xFFFFFFFFFFFFFFF0 [] [] false false = true := by
  decide

/-- V112. -/
theorem test_not : steps (boot 0x0 [0x21, 0x0F] [(.rm0, 0x00FF)] []) 0x2 [(.rm0, 0xFF00)] [] false false = true := by
  decide

/-- V117. -/
theorem test_and : steps (boot 0x0 [0x24, 0xB0] [(.rpf, 0x80000003), (.rm0, 0xFD)] []) 0x2 [(.rpf, 0x80000001)] [] false false = true := by
  decide

/-- V114. -/
theorem test_or : steps (boot 0x0 [0x2A, 0x23] [(.rm2, 0xF0000000), (.rm3, 0xAAAAAAAA0000000F)] []) 0x2 [(.rm2, 0xF000000F)] [] false false = true := by
  decide

/-- V116. -/
theorem test_xor : steps (boot 0x0 [0x2C, 0x01] [(.rm0, 0x1FF), (.rm1, 0x0F)] []) 0x2 [(.rm0, 0x1F0)] [] false false = true := by
  decide

/-- V132. -/
theorem test_add : steps (boot 0x0 [0xA0, 0x01] [(.rm0, 0x100), (.rm1, 0)] []) 0x2 [(.rm0, 0x100), (.rpf, 2)] [] false false = true := by
  decide

/-- V151. -/
theorem test_add_rpf : steps (boot 0x0 [0xA0, 0xB0] [(.rpf, 0xFF), (.rm0, 1)] []) 0x2 [(.rpf, 0)] [] false false = true := by
  decide

/-- V138. -/
theorem test_sub : steps (boot 0x0 [0xA5, 0x01] [(.rm0, 1), (.rm1, 3)] []) 0x2 [(.rm0, 0xFFFE), (.rpf, 2)] [] false false = true := by
  decide

/-- V137. -/
theorem test_sub_clears : steps (boot 0x0 [0xA7, 0x00] [(.rm0, 0x1234), (.rpf, 2)] []) 0x2 [(.rm0, 0), (.rpf, 0)] [] false false = true := by
  decide

/-- V141. -/
theorem test_mul : steps (boot 0x0 [0xAB, 0x01] [(.rm0, 0xFFFFFFFFFFFFFFFF), (.rm1, 0xFFFFFFFFFFFFFFFF)] []) 0x2 [(.rm0, 1), (.rpf, 2)] [] false false = true := by
  decide

/-- V144. -/
theorem test_div : steps (boot 0x0 [0xAC, 0x01] [(.rm0, 0x1000), (.rm1, 1)] []) 0x2 [(.rm0, 0x1000), (.rpf, 2)] [] false false = true := by
  decide

/-- V145. -/
theorem test_div_zero : steps (boot 0x0 [0xAF, 0x01] [(.rm0, 5), (.rm1, 0), (.rpf, 2)] []) 0x2 [(.rpf, 3)] [] false false = true := by
  decide

/-- V148. -/
theorem test_mod : steps (boot 0x0 [0xB0, 0x01] [(.rm0, 0x1234), (.rm1, 0x1000)] []) 0x2 [(.rm0, 0x1234), (.rpf, 2)] [] false false = true := by
  decide

/-- V149. -/
theorem test_mod_zero : steps (boot 0x0 [0xB1, 0x01] [(.rm0, 5)] []) 0x2 [(.rpf, 1)] [] false false = true := by
  decide

/-- V165. -/
theorem test_inc_rtx : steps (boot 0x0 [0x6C] [(.rtx, 5)] []) 0x1 [(.rtx, 7)] [] false false = true := by
  decide

/-- V161. -/
theorem test_inc_wraps : steps (boot 0x0 [0x61] [(.rm1, 0xFFFFFFFFFFFFFFFF)] []) 0x1 [(.rm1, 0)] [] false false = true := by
  decide

/-- V162. -/
theorem test_dec_wraps : steps (boot 0x0 [0x71] [] []) 0x1 [(.rm1, 0xFFFFFFFFFFFFFFFF)] [] false false = true := by
  decide

/-- V164. -/
theorem test_dec_rip : steps (boot 0x10 [0x78] [] []) 0x10 [] [] false false = true := by
  decide

/-- §8 Scenario 5: a write to a ConstantMemory is dropped and latches (88 10, RDR = 1). -/
theorem test_write_rom :
    (match step ((boot 0 [0x88, 0x10] [(.rm0, 0x99), (.rdr, 1)] [])) with
      | .next t => t.faultAt 1 == some true && t.faultAt 0 == some false && t.byteAt 1 0 == some 0x88 && t.get .rip == 2
      | _ => false) = true := by decide

/-- 95 section 3.1: a Memory of capacity 4 holding 11 22 33 44. -/
def four : Device := { kind := .memory, cap := 4, store := Memory.load [] 0 [0x11, 0x22, 0x33, 0x44], fault := false }

theorem test_devRead : four.read 0 .w32 = (0x11223344, four) ∧ four.read 3 .w16 = (0x4400, four.latch)
    ∧ four.read 4 .w8 = (0, four.latch) ∧ four.read 2 .w64 = (0x3344000000000000, four.latch)
    ∧ four.read 0xFFFFFFFFFFFFFFFF .w8 = (0, four.latch) := by decide

theorem test_devWrite : (four.write 1 .w16 0xAABB).store = Memory.load [] 0 [0x11, 0xAA, 0xBB, 0x44]
    ∧ four.write 3 .w16 0xCCDD = { four with store := Memory.load [] 0 [0x11, 0x22, 0x33, 0xCC], fault := true }
    ∧ four.write 5 .w32 0x01020304 = four.latch
    ∧ (four.write 0 .w8 0x1FF).store = Memory.load [] 0 [0xFF, 0x22, 0x33, 0x44] := by decide

/-- Writing the blank byte removes the cell: equal memories are equal data. -/
theorem test_memory_canonical : Memory.write (Memory.write [] 7 0x55) 7 0 = [] ∧ Memory.wf four.store = true := by decide

/-- The high views lie directly above the low ones (10_state R25, D3). -/
theorem test_views : View.high8.read 0x1122334455667788 = 0x77 ∧ View.high16.read 0x1122334455667788 = 0x5566
    ∧ View.high32.write 0x1122334455667788 0xAABBCCDD = 0xAABBCCDD55667788 := by decide

/-! ## Reset and the host's words -/

theorem test_reset_wf : State.reset.wf = true ∧ State.reset.devices = [] := by decide

/-- With no device installed the step has no described outcome (20_memory R75). -/
theorem test_reset_unmapped : (match step State.reset with | .fault f => f == .unmappedDevice .command 0 | _ => false) = true := by
  decide

/-- Table words: NOT with its opcode byte in bits 15..8 (the table's `fixed` 15..10 = 8), MOV.RI of width 8 with a 24-bit word, HALT. -/
theorem test_table_words : decodeTableWord 16 0x2000 = some (.bitNot .w8 (some .rm0))
    ∧ decodeTableWord 16 0x2723 = some (.bitAnd .w64 (some .rm2) (some .rm3)) ∧ decodeTableWord 8 0xFF = some .halt
    ∧ decodeTableWord 16 0x9010 = some (.movRI .w8 (some .rm1) 0) := by decide

theorem test_fetch_word :
    (match step (State.reset.withFetchWord 16 0x6100) with
      | .next t => t.get .rm1 == 1 && t.get .rip == 1 && t.get .rtx == 1
      | _ => false) = true := by decide

/-! ## Witnesses: states and operands that meet the hypotheses of each obligation -/

/-- RAM with two bytes at 0x80, HALT at 0x10 as the last ROM byte, RM1 at the last RAM byte, RM2 and RM3 zero. -/
def w0 : State := boot 0x10 [0xFF] [(.rm0, 5), (.rm1, 0xFFF), (.rs1, 0x80)] [(0x80, [0xCA, 0xFE])]

/-- The data device of `w0`. -/
def d0 : Device := ram [(0x80, [0xCA, 0xFE])]

theorem w0_facts : w0.wf = true ∧ w0.mapped = true ∧ w0.device w0.datId = some d0 ∧ d0.kind = .memory ∧ d0.wf = true
    ∧ w0.device w0.cmdId = some (rom 0x10 [0xFF]) := by decide

theorem witness_EncodeThenDecode : (Instr.movRI .w8 (some .rhm) 0xFF).wellFormed = true
    ∧ (Instr.movRI .w64 (some .rhm) 0xFFFFFFFFFFFFFFFF).wellFormed = true ∧ (Instr.reservedCat7 7 .w32).wellFormed = true := by
  decide

theorem witness_DecoderIsTotal : 10 ≤ (List.replicate 10 (0x93 : Byte)).length := by decide

/-- The byte 0xFF is covered by two rows, HALT's with the larger mask. -/
theorem witness_DecoderFollowsTable : (⟨0xE0, 0xE0, .reservedCat7⟩ : TableRow) ∈ opcodeTable
    ∧ (⟨0xE0, 0xE0, .reservedCat7⟩ : TableRow).covers 0xFF = true ∧ (⟨0xFF, 0xFF, .halt⟩ : TableRow).covers 0xFF = true := by decide

theorem witness_IgnoredFields :
    (decodeParts 0x20 0x1F 0).row = .not ∧ (0x1F : Byte).extractLsb' 4 4 = (0x10 : Byte).extractLsb' 4 4
      ∧ (decodeParts 0xC0 0xFF 0).row = .jmpI ∧ (decodeParts 0xB4 0xFF 0).row = .reservedArithB4 := by decide

/-- The last byte of the ROM is the whole instruction. -/
theorem witness_StepRunsDecodedInstruction : w0.wf = true ∧ w0.mapped = true ∧ decode [0xFF] = .ok (.halt, [])
    ∧ ∀ k, k < [0xFF].length → w0.byteAt w0.cmdId ((w0.get .rip).toNat + k) = ([0xFF] : List Byte)[k]? := by decide

/-- MOV.RI at 2^64 - 2, on a Memory of the largest capacity: the operand byte's address is the one past its end, the immediate's
address wraps to 0 (R145). -/
def wWrap : State :=
  (State.construct Config.reference [(0, { kind := .memory, cap := 2 ^ 64 - 1, store := [(0, 0xAB), (2 ^ 64 - 2, 0x90)], fault := false })]).set
    .rip 0xFFFFFFFFFFFFFFFE

/-- RIP at the capacity, and at the two addresses from which a fetch wraps. -/
theorem witness_FetchReadsZeroOutside :
    (w0.set .rip 0x11).mapped = true ∧ (w0.set .rip 0x11).device (w0.set .rip 0x11).cmdId = some (rom 0x10 [0xFF])
      ∧ (w0.set .rip 0xFFFFFFFFFFFFFFFF).mapped = true
      ∧ (w0.set .rip 0xFFFFFFFFFFFFFFFF).device (w0.set .rip 0xFFFFFFFFFFFFFFFF).cmdId = some (rom 0x10 [0xFF])
      ∧ wWrap.mapped = true ∧ wWrap.wf = true ∧ (wWrap.device wWrap.cmdId).isSome = true := by decide

/-- The wrapping fetch: R145's addresses worked by hand. -/
theorem test_fetch_wraps : ∃ t, step wWrap = .next t ∧ t.get .rm0 = 0xAB ∧ t.get .rip = 1 ∧ t.faultAt 0 = some true :=
  ⟨_, rfl, by decide, by decide, by decide⟩

theorem witness_FetchBookkeeping : ∃ i t, w0.fetch = .ok (i, t) := ⟨_, _, rfl⟩

theorem witness_MappedStepHasSuccessor : w0.mapped = true := by decide

theorem witness_UnmappedStepFaults : State.reset.device State.reset.cmdId = none
    ∧ (w0.set .rdr 7).device (w0.set .rdr 7).cmdId = some (rom 0x10 [0xFF]) ∧ (w0.set .rdr 7).device (w0.set .rdr 7).datId = none := by
  decide

theorem witness_StepKeepsWellFormed : w0.wf = true ∧ ∃ t, step w0 = .next t := ⟨by decide, _, rfl⟩

theorem witness_StepKeepsInstallation : (∃ t, step w0 = .next t) ∧ w0.kindAt 1 = some .constantMemory := ⟨⟨_, rfl⟩, by decide⟩

/-- A set latch, for the last clause of SameInstallation. -/
theorem witness_StepKeepsInstallation_latch :
    (w0.putDevice 0 d0.latch).faultAt 0 = some true ∧ ∃ t, step (w0.putDevice 0 d0.latch) = .next t := ⟨by decide, _, rfl⟩

theorem witness_RegisterFrame : (∃ t, exec (.pops .w8 (some .rm1)) w0 = .next t)
    ∧ Reg.rs1 ∉ (Instr.pops .w8 (some .rm1)).dests w0.cfg ∧ Reg.rs1 ≠ .rpf := ⟨⟨_, rfl⟩, by decide, by decide⟩

theorem witness_RpfBits : (∃ t, exec (.div .w8 (some .rm0) (some .rm2)) w0 = .next t)
    ∧ Reg.rpf ∉ (Instr.div .w8 (some .rm0) (some .rm2)).dests w0.cfg
    ∧ (Instr.div .w8 (some .rm0) (some .rm2)).raises w0 = true ∧ (Instr.div .w8 (some .rm0) (some .rm1)).raises w0 = false
    ∧ (Instr.inc (some .rm0)).arithmetic = false := ⟨⟨_, rfl⟩, by decide, by decide, by decide, by decide⟩

/-- The bytes beside the two that a 16-bit store writes. -/
theorem witness_MemoryFrame : (∃ t, exec (.movMR .w16 (some .rs1) (some .rm0)) w0 = .next t)
    ∧ ¬ (Instr.movMR .w16 (some .rs1) (some .rm0)).storesTo w0 0 0x82
    ∧ ¬ (Instr.movMR .w16 (some .rs1) (some .rm0)).storesTo w0 0 0x7F
    ∧ (Instr.movMR .w16 (some .rs1) (some .rm0)).storesTo w0 0 0x81 := by
  refine ⟨⟨_, rfl⟩, ?_, ?_, ⟨0x80, .w16, by decide, by decide, by decide, by decide⟩⟩ <;>
  · rintro ⟨a, w, h, -, h1, h2⟩
    have h : some ((0x80 : Word), Width.w16) = some (a, w) := h
    obtain ⟨rfl, rfl⟩ : 0x80 = a ∧ Width.w16 = w := by simpa using h
    revert h1 h2
    decide

theorem witness_NopDoesNothing : (boot 0 [0x1F] [] []).wf = true ∧ (boot 0 [0x1F] [] []).mapped = true
    ∧ (boot 0 [0x1F] [] []).byteAt (boot 0 [0x1F] [] []).cmdId ((boot 0 [0x1F] [] []).get .rip).toNat = some 0x1F
    ∧ (0x1F : Byte).toNat < 0x20 := by decide

/-- For HaltSetsCompleted and HaltIsFixedPoint. -/
theorem witness_Halt : w0.wf = true ∧ w0.mapped = true ∧ w0.byteAt w0.cmdId (w0.get .rip).toNat = some 0xFF ∧ 0 < 1 := by decide

/-- From the capacity, up to the last step before RIP wraps. -/
theorem witness_RunsOffAsNops : (w0.set .rip 0x11).mapped = true ∧ (w0.set .rip 0x11).capAt (w0.set .rip 0x11).cmdId = some 0x11
    ∧ 0x11 ≤ ((w0.set .rip 0x11).get .rip).toNat ∧ ((w0.set .rip 0x11).get .rip).toNat + (2 ^ 64 - 0x11) ≤ 2 ^ 64 := by decide

theorem witness_ReservedRowsLatch : (Instr.reservedBitwise 3 .w8).reserved = true ∧ (Instr.reservedStack 0 .w64).reserved = true
    ∧ (Instr.reservedArithB4 .w8).reserved = true ∧ (Instr.reservedArithB8 1 .w8).reserved = true
    ∧ (Instr.reservedJump 1 .w8).reserved = true ∧ (Instr.reservedCat7 0 .w8).reserved = true ∧ Instr.reservedInc15.reserved = true
    ∧ Instr.reservedDec15.reserved = true := by decide

theorem witness_IndexFifteenLatches : (Instr.jzR .w8 none (some .rm0)).badReg = true ∧ (Instr.jzR .w8 (some .rm0) none).badReg = true
    ∧ (Instr.movRI .w8 none 0).badReg = true := by decide

/-- Loads: the last backed byte, at the widest access; an immediate address at the top of its width. -/
theorem witness_Loads : w0.device w0.datId = some d0 ∧ 0xFFF = (w0.get .rm1).toNat ∧ 0xFF = (0xFF : Word).toNat % 2 ^ Width.w8.bits := by
  decide

theorem witness_Stores : w0.wf = true ∧ w0.device w0.datId = some d0 ∧ 0xFFF = (w0.get .rm1).toNat ∧ 5 = (w0.get .rm0).toNat
    ∧ 0xFFFF = (0xFFFF : Word).toNat ∧ 0xFF = (0xFF : Word).toNat % 2 ^ Width.w8.bits := by decide

/-- Stored: a backed byte of a Memory inside the span, and a byte of the ROM outside it. -/
theorem witness_Stored : w0.kindAt w0.datId = some .memory ∧ (w0.byteAt w0.datId (0xFFF + 0)).isSome = true ∧ 0 < Width.w8.bytes
    ∧ w0.kindAt 1 ≠ some .memory := by decide

theorem witness_MoveMemory : w0.wf = true ∧ w0.device w0.datId = some d0 := by decide

theorem witness_Push : w0.wf = true ∧ w0.device w0.datId = some d0 ∧ Reg.rs0 = w0.cfg.fixedSp := by decide

/-- The pointer at zero moves down to the top of the address space. -/
theorem witness_Pop : w0.device w0.datId = some d0 ∧ Reg.rs0 = w0.cfg.fixedSp
    ∧ ((0xFFFFFFFFFFFFFFFF : Word).toNat : Int) = (((w0.get .rs0).toNat : Int) - Width.w8.bytes) % 2 ^ 64
    ∧ ((0x7E : Word).toNat : Int) = (((w0.get .rs1).toNat : Int) - Width.w16.bytes) % 2 ^ 64 := by decide

/-- A push of eight bytes, and of one byte on the last one of the RAM, each then popped; and a PUSHS then a POPS (95 section 2.1). -/
theorem witness_PushThenPop : w0.wf = true ∧ w0.device w0.datId = some d0 ∧ d0.kind = .memory
    ∧ (w0.get .rs1).toNat + Width.w64.bytes ≤ d0.cap ∧ (w0.get .rm1).toNat + Width.w8.bytes ≤ d0.cap
    ∧ Reg.rs1 ≠ .rdr ∧ Reg.rm3 ≠ Reg.rs1
    ∧ ∃ t u, exec (.push .w64 (some .rm0) (some .rs1)) w0 = .next t ∧ exec (.pop .w64 (some .rm3) (some .rs1)) t = .next u :=
  ⟨by decide, by decide, by decide, by decide, by decide, by decide, by decide, _, _, rfl, rfl⟩

theorem witness_PushThenPop_fixed : Reg.rs0 = w0.cfg.fixedSp ∧ Reg.rs0 ≠ .rdr ∧ Reg.rm3 ≠ Reg.rs0
    ∧ (w0.get .rs0).toNat + Width.w64.bytes ≤ d0.cap
    ∧ ∃ t u, exec (.pushs .w64 (some .rm0)) w0 = .next t ∧ exec (.pops .w64 (some .rm3)) t = .next u :=
  ⟨by decide, by decide, by decide, by decide, _, _, rfl, rfl⟩

/-- POP.8 RIP, RDC, alone in changing both: RDC from 1 to 0, and the byte 0xCA at address 0 to the low byte of RIP. -/
theorem witness_RipAndRdcTogether :
    ∃ t, exec (.pop .w8 (some .rip) (some .rdc)) (boot 0x10 [] [] [(0, [0xCA])]) = .next t
      ∧ t.get .rip = 0xCA ∧ t.get .rdc = 0
      ∧ t.get .rip ≠ (boot 0x10 [] [] [(0, [0xCA])]).get .rip ∧ t.get .rdc ≠ (boot 0x10 [] [] [(0, [0xCA])]).get .rdc :=
  ⟨_, rfl, by decide, by decide, by decide, by decide⟩

/-- The entry RIP of an immediate jump of each length, and a zero and a nonzero condition. -/
theorem witness_ImmediateJumps : (w0.set .rip 0x13).get .rip = 0x10 + BitVec.ofNat 64 (2 + Width.w8.bytes)
    ∧ (w0.set .rip 0).get .rip = 0xFFFFFFFFFFFFFFF6 + BitVec.ofNat 64 (2 + Width.w64.bytes)
    ∧ w0.get .rm2 = 0 ∧ w0.get .rm0 ≠ 0 := by decide

theorem witness_RegisterJumps : (w0.set .rip 0x12).get .rip = 0x10 + 2 ∧ w0.get .rm2 = 0 ∧ w0.get .rm0 ≠ 0 := by decide

theorem witness_UntakenJumps : NotTaken .w8 .rm0 .rm1 6 (.jzI .w8 (some .rm0) 6) w0 ∧ NotTaken .w8 .rm2 .rm1 6 (.jnzR .w8 (some .rm2) (some .rm1)) w0 :=
  ⟨.inl ⟨.inl rfl, by decide⟩, .inr ⟨.inr rfl, by decide⟩⟩

/-- The start state of the spec's vector V91: D0 00 06 at 0x30, RM0 not zero. -/
def w1 : State := boot 0x30 [0xD0, 0x00, 0x06] [(.rm0, 0x100000000)] []

theorem witness_UntakenJumps_step : w1.wf = true ∧ w1.mapped = true ∧ decode [0xD0, 0x00, 0x06] = .ok (.jzI .w8 (some .rm0) 6, [])
    ∧ (∀ k, k < 3 → w1.byteAt w1.cmdId ((w1.get .rip).toNat + k) = ([0xD0, 0x00, 0x06] : List Byte)[k]?)
    ∧ NotTaken .w8 .rm0 .rm1 6 (.jzI .w8 (some .rm0) 6) (w1.entered (.jzI .w8 (some .rm0) 6)) :=
  ⟨by decide, by decide, by decide, by decide, .inl ⟨.inl rfl, by decide⟩⟩

/-- The bytes 0xFF, 0x93 and 0xC0 of the length function's branches. -/
theorem witness_LengthIsFixedByOpcode : 7 = (0xFF : Byte).toNat / 32 ∧ 4 = (0x93 : Byte).toNat / 32 ∧ 4 = (0x93 : Byte).toNat / 4 % 8
    ∧ 8 = 2 ^ ((0x93 : Byte).toNat % 4) ∧ 6 = (0xC0 : Byte).toNat / 32 ∧ 0 = (0xC0 : Byte).toNat / 4 % 8 := by decide

/-- Both kinds of reset, with a device under id 0. -/
theorem witness_ResetEntryPoint : (State.construct Config.reference [(0, four)]).device 0 = some four
    ∧ w0.bulkReset.device 0 = some d0 := by decide

/-- The four bitwise instructions, each with its truth function. -/
theorem witness_BitwiseResults :
    (Instr.bitNot .w8 (some .rm0) = .bitNot .w8 (some .rm0) ∧ (fun x (_ : Bool) => !x) = (fun x (_ : Bool) => !x))
      ∧ and true false = false ∧ or true false = true ∧ xor true true = false := by decide

theorem witness_AddSubMul : ((w0.get .rm2).toNat : Int) - (w0.get .rm0).toNat = -5
    ∧ ((w0.get .rm1).toNat : Int) + (w0.get .rm0).toNat = 0x1004 ∧ ((w0.get .rm1).toNat : Int) * (w0.get .rm0).toNat = 0x4FFB := by
  decide

theorem witness_DivMod : w0.get .rm0 ≠ 0 ∧ (w0.get .rm1).toNat / (w0.get .rm0).toNat = 819
    ∧ (w0.get .rm1).toNat % (w0.get .rm0).toNat = 0 := by decide

theorem witness_DivideByZero : w0.get .rm2 = 0 := by decide

theorem witness_IncDec : ((w0.get .rm2).toNat : Int) - 1 = -1 ∧ ((w0.get .rm2).toNat : Int) + 1 = 1 := by decide

/-- Each width read at the last address where it fits. -/
theorem witness_BigEndianData : four.wf = true ∧ four.kind = .memory ∧ (3 : Word).toNat + 1 ≤ four.cap ∧ (2 : Word).toNat + 2 ≤ four.cap ∧ (0 : Word).toNat + 4 ≤ four.cap
    ∧ (0xFF8 : Word).toNat + 8 ≤ d0.cap := by decide

theorem witness_DroppedWrites : (rom 0 [1]).kind = .constantMemory ∧ four.cap < (5 : Word).toNat := by decide

theorem witness_DeviceReadsBackWrite : four.wf = true ∧ four.kind = .memory ∧ (0 : Word).toNat + Width.w32.bytes ≤ four.cap
    ∧ (3 : Word).toNat + Width.w8.bytes ≤ four.cap := by decide

/-- A bit below and a bit above a view. -/
theorem witness_ViewInvariant : (7 < View.high8.shift ∨ View.high8.shift + View.high8.bits ≤ 7)
    ∧ (16 < View.high8.shift ∨ View.high8.shift + View.high8.bits ≤ 16) := by decide

theorem witness_FlagAccess : 0 < 64 ∧ 63 < 64 ∧ (63 : Nat) ≠ 0 := by decide

/-- The largest positive, the least negative and the largest number of a width. -/
theorem witness_Extension : (0x7F : Word).toNat < 2 ^ Width.w8.bits ∧ (0x7F : Word).getLsbD (Width.w8.bits - 1) = false
    ∧ (0x80 : Word).toNat < 2 ^ Width.w8.bits ∧ (0x80 : Word).getLsbD (Width.w8.bits - 1) = true
    ∧ (0xFFFFFFFFFFFFFFFF : Word).toNat < 2 ^ Width.w64.bits := by decide

/-- A content that ends in the byte an unlisted address reads as, and the largest capacity. -/
theorem witness_ConstructedDevices : (∃ t, State.reset.install 5 (Device.ofContent [0x12, 0x00]) = some t)
    ∧ (∃ t, State.reset.install 0 (Device.ofCapacity (2 ^ 64 - 1)) = some t)
    ∧ 1 < [(0x12 : Byte), 0x00].length ∧ [(0x12 : Byte), 0x00].length < 2 ^ 64 ∧ 2 ^ 64 - 1 < 2 ^ 64 :=
  ⟨⟨_, rfl⟩, ⟨_, rfl⟩, by decide, by decide, by decide⟩

/-- Bytes on the last address of the RAM, a zero among those before. -/
theorem witness_HostKeepsWellFormed : w0.devices.wf = true ∧ w0.wf = true ∧ (Device.ofContent [0x12, 0x00]).wf = true
    ∧ (∃ t, w0.install 5 (Device.ofContent [0x12, 0x00]) = some t) ∧ ∃ t, w0.loadBytes 0 0xFFE [0x00, 0x77] = some t :=
  ⟨by decide, by decide, by decide, ⟨_, rfl⟩, _, rfl⟩

theorem witness_BulkReset : w0.wf = true := by decide

/-- The highest id and capacity an installation takes. -/
theorem witness_InstallOverwrites : (∃ t, w0.install (2 ^ 64 - 1) { four with cap := 2 ^ 64 - 1 } = some t) ∧ four.cap < 2 ^ 64
    ∧ ∃ t, step w0 = .next t := ⟨⟨_, rfl⟩, by decide, _, rfl⟩

theorem witness_FetchWordRunsNext : State.reset.wf = true ∧ (State.reset.get .rip).toNat + 10 < 2 ^ 64
    ∧ decodeTableWord 16 0x6100 = some (.inc (some .rm1)) ∧ decodeTableWord 80 0 = some .nop := by decide

end Sys2Proof.Tests
end

/-! # Extension (00_scope R12): the number a sign extension is, and the obligation that says it -/

namespace Sys2Proof.Machine

/-- The sign extension of any word: its low bytes, plus `2^64 - 2^(8n)` where their top bit is 1. -/
theorem toNat_sext (w : Width) (v : Word) :
    (sext w v).toNat = v.toNat % 2 ^ w.bits + if v.getLsbD (w.bits - 1) then 2 ^ 64 - 2 ^ w.bits else 0 := by
  have hmsb : (v.setWidth w.bits).msb = v.getLsbD (w.bits - 1) := by
    rw [BitVec.msb_setWidth, decide_eq_true (Width.bits_pos w), Bool.true_and]
  rw [sext, BitVec.toNat_signExtend, hmsb, BitVec.toNat_setWidth_of_le (Width.bits_le w), BitVec.toNat_setWidth]

/-- Settles O49: an `n`-byte number is its own low bytes, so `toNat_low` and `toNat_sext` give both extensions. -/
theorem extension : Obligations.Extension := by
  intro w v hv
  have hle : 2 ^ w.bits ≤ 2 ^ 64 := Nat.pow_le_pow_right (by decide) (Width.bits_le w)
  rw [toNat_low, toNat_sext, Nat.mod_eq_of_lt hv]
  refine ⟨rfl, ?_⟩
  split
  · exact (Nat.add_sub_assoc hle v.toNat).symm
  · rfl

end Sys2Proof.Machine

/-! # The view invariant (10_state R26): what each bit of a cell is after a read and a write through a view -/

namespace Sys2Proof.Machine

/-- Every view's slice lies inside the 64-bit cell. -/
theorem View.shift_add_bits_le (u : View) : u.shift + u.bits ≤ 64 := by
  cases u with
  | low w => exact (Nat.zero_add _).trans_le (Width.bits_le w)
  | high8 | high16 | high32 => decide

/-- The mask of a view has exactly the bits of its slice. -/
theorem View.getLsbD_mask (u : View) (k : Nat) :
    u.mask.getLsbD k = decide (u.shift ≤ k ∧ k < u.shift + u.bits) := by
  have hle := u.shift_add_bits_le
  rw [Bool.eq_iff_iff]
  simp only [View.mask, BitVec.getLsbD_shiftLeft, BitVec.getLsbD_ofNat, Nat.testBit_two_pow_sub_one, Bool.and_eq_true,
    Bool.not_eq_true', decide_eq_true_eq, decide_eq_false_iff_not]
  omega

/-- Bit by bit, a write through a view: the value's bits inside the slice, the old ones outside. -/
theorem View.getLsbD_write (u : View) (old v : Word) (k : Nat) :
    (u.write old v).getLsbD k
      = if u.shift ≤ k ∧ k < u.shift + u.bits then v.getLsbD (k - u.shift) else old.getLsbD k := by
  have hle := u.shift_add_bits_le
  rw [View.write, BitVec.getLsbD_or, BitVec.getLsbD_and, BitVec.getLsbD_and, BitVec.getLsbD_not, BitVec.getLsbD_shiftLeft,
    View.getLsbD_mask]
  split
  case isTrue hin =>
    have hk : k < 64 := by omega
    simp [hin, hk]
  case isFalse hout =>
    by_cases hk : k < 64
    · simp [hout, hk]
    · simp [hout, hk, BitVec.getLsbD_of_ge old k (by omega)]

/-- Bit by bit, a read through a view: the cell's slice moved down to bit 0. -/
theorem View.getLsbD_read (u : View) (v : Word) (k : Nat) :
    (u.read v).getLsbD k = (decide (k < u.bits) && v.getLsbD (u.shift + k)) := by
  have hin : (u.shift ≤ u.shift + k ∧ u.shift + k < u.shift + u.bits) ↔ k < u.bits := by omega
  rw [View.read, BitVec.getLsbD_ushiftRight, BitVec.getLsbD_and, View.getLsbD_mask, decide_eq_decide.mpr hin, Bool.and_comm]

/-- A read after a write through the same view gives the value's low bits. -/
theorem View.toNat_read_write (u : View) (old v : Word) : (u.read (u.write old v)).toNat = v.toNat % 2 ^ u.bits := by
  apply Nat.eq_of_testBit_eq
  intro k
  rw [BitVec.testBit_toNat, View.getLsbD_read, View.getLsbD_write, Nat.testBit_mod_two_pow, BitVec.testBit_toNat]
  by_cases hk : k < u.bits
  · rw [if_pos (by omega), Nat.add_sub_cancel_left]
  · simp [hk]

/-- Settles O47: outside the slice a written bit is the old one; inside it, the read moves the value's bits back down. -/
theorem viewInvariant : Obligations.ViewInvariant := by
  intro u old v
  refine ⟨fun k hout => ?_, u.toNat_read_write old v⟩
  rw [View.getLsbD_write, if_neg (by omega)]

end Sys2Proof.Machine

/-! # Byte order on a device (20_memory R65): an access inside the storage, byte by byte, the first the most significant -/

namespace Sys2Proof.Machine

/-- A byte appended on the right is the least significant. -/
theorem toNat_append_byte {n : Nat} (x : BitVec n) (b : Byte) : (x ++ b).toNat = x.toNat * 256 + b.toNat := by
  rw [BitVec.toNat_append, ← Nat.shiftLeft_add_eq_or_of_lt b.isLt, Nat.shiftLeft_eq]

/-- A number below `2 ^ n` is its low `n` bits under zeros. -/
theorem eq_zero_append_of_toNat_eq (m n : Nat) {v : BitVec (m + n)} {x : BitVec n} (h : v.toNat = x.toNat) : v = 0#m ++ x := by
  apply BitVec.eq_of_toNat_eq
  simpa using h

theorem beNat_singleton (b : Byte) : beNat [b] = b.toNat := by
  simp [beNat]

/-- The number of `n + 1` bytes: the last one is the least significant. -/
theorem beNat_map_range_succ (f : Nat → Byte) (n : Nat) :
    beNat ((List.range (n + 1)).map f) = beNat ((List.range n).map f) * 256 + (f n).toNat := by
  rw [beNat, List.range_succ, List.map_append, List.foldl_append]
  rfl

/-- A lane inside the storage is the stored byte. -/
theorem Device.lane_of_lt {d : Device} {x : Nat} (h : x < d.cap) : d.lane x = Memory.read d.store x := if_pos h

/-- A read that stays inside the storage gives the number its bytes spell, the first the most significant. -/
theorem Device.toNat_read_of_le {d : Device} {x : Word} {w : Width} (h : x.toNat + w.bytes ≤ d.cap) :
    (d.read x w).1.toNat = beNat ((List.range w.bytes).map fun k => Memory.read d.store (x.toNat + k)) := by
  rw [Device.toNat_read]
  congr 1
  refine List.map_congr_left fun k hk => Device.lane_of_lt ?_
  have := List.mem_range.mp hk
  omega

/-- A write that stays inside a Memory puts the bytes of the number at the addresses, the most significant first. -/
theorem Device.read_store_write_of_le {d : Device} {x : Word} {w : Width} {k : Nat} (v : Word) (hd : d.wf = true)
    (hm : d.kind = .memory) (hx : x.toNat + w.bytes ≤ d.cap) (hk : k < w.bytes) :
    Memory.read (d.write x w v).store (x.toNat + k) = byteOf v (w.bytes - 1 - k) := by
  obtain ⟨-, -, -, -, -, hstore⟩ := Device.write_spec d x w v
  rw [hstore hd hm, Device.lanesWritten, if_pos ⟨by omega, by omega, by omega⟩, Nat.add_sub_cancel_left]

/-- Settles O44: the first byte is the most significant in `Device.toNat_read_of_le`, and `x ++ b` puts `b` last too; a write is
`Device.read_store_write_of_le`. -/
theorem bigEndianData : Obligations.BigEndianData := by
  intro d x
  refine ⟨fun h => eq_zero_append_of_toNat_eq 56 8 ?_, fun h => eq_zero_append_of_toNat_eq 48 (8 + 8) ?_,
    fun h => eq_zero_append_of_toNat_eq 32 (8 + 8 + 8 + 8) ?_, fun h => BitVec.eq_of_toNat_eq ?_,
    fun w v k hd hm hx hk => ?_⟩
  case refine_5 => rw [Device.read_store_write_of_le v hd hm hx hk, byteOf_eq]
  all_goals
    refine (Device.toNat_read_of_le h).trans ?_
    simp [Width.bytes, beNat_map_range_succ, beNat_singleton, toNat_append_byte]

end Sys2Proof.Machine

/-! # Who changes the device map (20_memory R78): the host's installation, and no step -/

namespace Sys2Proof.Machine

/-- The host's installation goes through exactly where the id and the capacity are in range, and inserts the device. -/
theorem State.install_eq_some_iff {s t : State} {id : Nat} {d : Device} :
    s.install id d = some t ↔ (id < 2 ^ 64 ∧ d.cap < 2 ^ 64) ∧ { s with devices := s.devices.insert id d } = t := by
  rw [State.install, Option.ite_none_right_eq_some, Option.some.injEq]

theorem DeviceMap.isSome_find_update (m : DeviceMap) (id j : Nat) (d : Device) :
    ((m.update id d).find j).isSome = (m.find j).isSome := by
  rw [DeviceMap.find_update]
  split
  · next hj => rw [hj, Option.isSome_map]
  · rfl

/-- An access installs and removes no device. -/
theorem Touches.isSome_device {id : Nat} {s t : State} (h : Touches id s t) (j : Nat) :
    (t.device j).isSome = (s.device j).isSome := by
  obtain ⟨-, hsame | ⟨d, e, -, hupd, -⟩⟩ := h
  · rw [State.device, hsame, State.device]
  · rw [State.device, hupd, DeviceMap.isSome_find_update, State.device]

theorem Accessed.faulted (d : Device) (f : Bool) : Accessed d (d.faulted f) :=
  ⟨rfl, rfl, fun h => by simp [h], id, fun _ => rfl⟩

/-- Of the devices, the fetch of a step accesses the command device alone. -/
theorem State.fetch_touches {s t : State} {i : Instr} (h : s.fetch = .ok (i, t)) : Touches s.cmdId s t := by
  obtain ⟨cmd, hcmd, -, -, rfl⟩ := State.fetch_ok h
  exact Touches.put hcmd (Accessed.faulted cmd _) rfl rfl

/-- A step that goes on is a fetch and then the effect of the fetched instruction. -/
theorem step_next {s t : State} (h : step s = .next t) : ∃ i u, s.fetch = .ok (i, u) ∧ exec i u = .next t := by
  unfold step at h
  split at h
  · cases h
  · next i u hfetch => exact ⟨i, u, hfetch, h⟩

/-- The same ids have a device before and after a step. -/
theorem step_isSome_device {s t : State} (h : step s = .next t) (j : Nat) : (t.device j).isSome = (s.device j).isSome := by
  obtain ⟨i, u, hfetch, hexec⟩ := step_next h
  exact ((exec_touches hexec).isSome_device j).trans ((State.fetch_touches hfetch).isSome_device j)

/-- Settles O53: an installation is one insertion, and the later insertion under an id wins; a step only updates installed devices. -/
theorem installOverwrites : Obligations.InstallOverwrites := by
  refine ⟨fun s t id d h => ?_, fun s t id h => step_isSome_device h id⟩
  obtain ⟨⟨hid, -⟩, rfl⟩ := State.install_eq_some_iff.mp h
  refine ⟨?_, fun j hj => ?_, fun e he => ?_⟩
  · exact (DeviceMap.find_insert ..).trans (if_pos rfl)
  · exact (DeviceMap.find_insert ..).trans (if_neg hj)
  · rw [State.install, State.install, if_pos ⟨hid, he⟩, if_pos ⟨hid, he⟩, DeviceMap.insert_insert]

end Sys2Proof.Machine

/-! # The length function (30_encoding R104): the fields of the opcode byte as arithmetic on it, and the branches of `lenOf` over them -/

namespace Sys2Proof

theorem toNat_catField (op : Byte) : (catField op).toNat = op.toNat / 32 := by
  rw [catField, BitVec.extractLsb'_toNat, Nat.shiftRight_eq_div_pow, Nat.mod_eq_of_lt (by omega)]

theorem toNat_subField (op : Byte) : (subField op).toNat = op.toNat / 4 % 8 := by
  rw [subField, BitVec.extractLsb'_toNat, Nat.shiftRight_eq_div_pow]

theorem Width.bytes_ofCode : ∀ c : BitVec 2, (Width.ofCode c).bytes = 2 ^ c.toNat := by
  decide

theorem bytes_widthField (op : Byte) : (widthField op).bytes = 2 ^ (op.toNat % 4) := by
  rw [widthField, Width.bytes_ofCode, BitVec.extractLsb'_toNat, Nat.shiftRight_zero]

theorem catField_eq_iff (op : Byte) (c : BitVec 3) : catField op = c ↔ op.toNat / 32 = c.toNat := by
  rw [← BitVec.toNat_inj, toNat_catField]

theorem subField_eq_iff (op : Byte) (c : BitVec 3) : subField op = c ↔ op.toNat / 4 % 8 = c.toNat := by
  rw [← BitVec.toNat_inj, toNat_subField]

/-- The top bit of the sub-instruction, which marks the moves with an immediate. -/
theorem getElem_two_subField (op : Byte) : (subField op)[2] = true ↔ 4 ≤ op.toNat / 4 % 8 := by
  have htop : ∀ x : BitVec 3, x[2] = true ↔ 4 ≤ x.toNat := by decide
  rw [htop, toNat_subField]

theorem hasOperand_iff (op : Byte) :
    hasOperand op = true ↔ op ≠ 0xFF ∧ op.toNat / 32 ≠ 0 ∧ op.toNat / 32 ≠ 3 ∧ op.toNat / 32 ≠ 7 := by
  simp [hasOperand, isHalt, catField_eq_iff, and_assoc]

theorem hasImmediate_iff (op : Byte) :
    hasImmediate op = true ↔ op.toNat / 32 = 4 ∧ 4 ≤ op.toNat / 4 % 8
      ∨ op.toNat / 32 = 6 ∧ (op.toNat / 4 % 8 = 0 ∨ op.toNat / 4 % 8 = 4 ∨ op.toNat / 4 % 8 = 6) := by
  simp [hasImmediate, catField_eq_iff, subField_eq_iff, getElem_two_subField, or_assoc]

theorem lenOf_of_not_hasOperand {op : Byte} (h : ¬ hasOperand op = true) : lenOf op = 1 := by
  rw [lenOf, if_neg h, ite_self]

theorem lenOf_of_hasOperand {op : Byte} (h : hasOperand op = true) :
    lenOf op = if hasImmediate op then 2 + (widthField op).bytes else 2 := by
  have hhalt : ¬ isHalt op = true := fun hh => by simp [isHalt_hasOperand hh] at h
  rw [lenOf, if_neg hhalt, if_pos h]

/-- There are six lengths: without an operand byte, with it alone, and with an immediate of each width. -/
theorem lenOf_mem (op : Byte) : lenOf op ∈ [1, 2, 3, 4, 6, 10] := by
  by_cases ho : hasOperand op = true
  · rw [lenOf_of_hasOperand ho]
    split
    · cases widthField op <;> decide
    · decide
  · rw [lenOf_of_not_hasOperand ho]
    decide

/-- Settles O2: the decoded length is `lenOf`, whose two questions, an operand byte and an immediate, are R104's branches. -/
theorem lengthIsFixedByOpcode : Obligations.LengthIsFixedByOpcode := by
  rintro op operand imm cat sub n rfl rfl rfl
  rw [decodeParts_len]
  refine ⟨?_, lenOf_mem op⟩
  by_cases ho : hasOperand op = true
  · obtain ⟨hhalt, h0, h3, h7⟩ := (hasOperand_iff op).mp ho
    rw [lenOf_of_hasOperand ho, if_neg hhalt, if_neg h0, if_neg h3, if_neg h7, bytes_widthField, ← ite_or]
    exact if_congr (hasImmediate_iff op) rfl rfl
  · rw [lenOf_of_not_hasOperand ho]
    simp only [hasOperand_iff, ne_eq, not_and_or, not_not] at ho
    rcases ho with h | h | h | h <;> simp [h]

end Sys2Proof

/-! # A step with both devices installed always goes on (40 R143, 20_memory R75) -/

namespace Sys2Proof.Machine

/-- The fetch of a step leaves RDR as it is. -/
theorem State.fetch_datId {s t : State} {i : Instr} (h : s.fetch = .ok (i, t)) : t.datId = s.datId := by
  obtain ⟨cmd, -, -, -, rfl⟩ := State.fetch_ok h
  simp [State.datId]

/-- The effect of a fetched instruction finds the data device still installed, so it has a next state. -/
theorem step_next_of_mapped {s : State} (h : s.mapped = true) : ∃ t, step s = .next t := by
  obtain ⟨c, d, hc, hd⟩ := State.mapped_iff.mp h
  have hfetch := State.fetch_of_mapped hc hd
  have hdat := (State.fetch_touches hfetch).isSome_device s.datId
  rw [hd, ← State.fetch_datId hfetch] at hdat
  obtain ⟨e, he⟩ := Option.isSome_iff_exists.mp hdat
  rw [step_eq hc hd]
  exact exec_next he

/-- Settles O10: a successor exists by `step_next_of_mapped`, and it is the only one because `step` is a function. -/
theorem mappedStepHasSuccessor : Obligations.MappedStepHasSuccessor := by
  intro s hmapped
  obtain ⟨t, ht⟩ := step_next_of_mapped hmapped
  exact ⟨t, ht, fun u hu => Host.Outcome.next.inj (hu.symm.trans ht)⟩

end Sys2Proof.Machine

/-! # HALT (40 R151): the step on an opcode byte without operand, and the one flag HALT writes -/

namespace Sys2Proof.Machine

theorem State.lt_cap_and_lane_of_byteAt {s : State} {id x : Nat} {d : Device} {b : Byte} (hd : s.device id = some d)
    (hb : s.byteAt id x = some b) : x < d.cap ∧ d.lane x = b := by
  rw [State.byteAt_of_device hd, Option.ite_none_right_eq_some, Option.some.injEq] at hb
  obtain ⟨hx, hread⟩ := hb
  exact ⟨hx, (Device.lane_of_lt hx).trans hread⟩

/-- A step on a backed opcode byte that no operand byte follows runs what that byte alone decodes to. -/
theorem step_of_not_hasOperand {s : State} {op : Byte} (hmapped : s.mapped = true)
    (hop : s.byteAt s.cmdId (s.get .rip).toNat = some op) (ho : ¬ hasOperand op = true) :
    step s = exec (decodeParts op 0 0) (s.entered (decodeParts op 0 0)) := by
  obtain ⟨c, d, hc, hd⟩ := State.mapped_iff.mp hmapped
  obtain ⟨hlt, hlane⟩ := State.lt_cap_and_lane_of_byteAt hc hop
  have hopAt : opAt c (s.get .rip) = op := hlane
  have hi : ¬ hasImmediate op = true := mt hasImmediate_hasOperand ho
  have hinstr : instrAt c (s.get .rip) = decodeParts op 0 0 := by
    rw [instrAt, operandAt, immAt, hopAt, if_neg ho, if_neg hi]
  have hbacked : fetchFaults c (s.get .rip) = false := by
    simp [fetchFaults, fetchOutside, hopAt, ho, hi, hlt]
  rw [step_eq_exec_entered hc hd hbacked, hinstr]

/-- The step on the halt sentinel, as one state. -/
theorem step_halt {s : State} (hmapped : s.mapped = true) (hop : s.byteAt s.cmdId (s.get .rip).toNat = some 0xFF) :
    step s = .next (s.tick.setFlag flagC true) := by
  have hentered : s.entered .halt = s.tick := State.advanceRip_zero s.tick
  rw [step_of_not_hasOperand hmapped hop (by decide), (decodeParts_halt 0xFF 0 0).mpr rfl, hentered]
  rfl

/-- Writing a flag of RPF changes that flag and nothing else. -/
theorem State.onlyFlag_setFlag (s : State) {k : Nat} (f : Bool) (hk : k < 64) :
    OnlyRegs s (s.setFlag k f) [.rpf] ∧ OnlyFlag s (s.setFlag k f) k f := by
  refine ⟨⟨fun r hr => ?_, rfl, rfl⟩, ?_, fun j hj => ?_⟩
  · rw [State.setFlag_get, if_neg (List.ne_of_not_mem_cons hr)]
  · rw [State.flag_setFlag _ _ _ _ hk, if_pos rfl]
  · rw [State.flag_setFlag _ _ _ _ hk, if_neg hj]

theorem State.onlyRegs_tick (s : State) : OnlyRegs s s.tick [.rtx] :=
  ⟨fun r hr => by rw [State.tick_get, if_neg (List.ne_of_not_mem_cons hr)], rfl, rfl⟩

@[simp] theorem State.tick_flag (s : State) (k : Nat) : s.tick.flag k = s.flag k := rfl

/-- One change after another touches the registers of both. -/
theorem OnlyRegs.trans {s t u : State} {rs qs : List Reg} (h : OnlyRegs s t rs) (g : OnlyRegs t u qs) :
    OnlyRegs s u (rs ++ qs) := by
  obtain ⟨hregs, hdevices, hcfg⟩ := h
  obtain ⟨gregs, gdevices, gcfg⟩ := g
  refine ⟨fun r hr => ?_, gdevices.trans hdevices, gcfg.trans hcfg⟩
  rw [List.mem_append, not_or] at hr
  exact (gregs r hr.2).trans (hregs r hr.1)

/-- Settles O22: HALT's effect is one flag write, and its step (`step_halt`) is that write after the tick. -/
theorem haltSetsCompleted : Obligations.HaltSetsCompleted := by
  refine ⟨fun s => ⟨s.setFlag flagC true, rfl, s.onlyFlag_setFlag true (by decide)⟩, fun s _ hmapped hop => ?_⟩
  obtain ⟨hregs, hset, hkeep⟩ := s.tick.onlyFlag_setFlag (k := flagC) true (by decide)
  refine ⟨_, step_halt hmapped hop, s.onlyRegs_tick.trans hregs, ⟨hset, fun j hj => ?_⟩, ?_, ?_⟩
  · rw [hkeep j hj, State.tick_flag]
  · simp
  · simp

end Sys2Proof.Machine

/-! # The memory frame (20_memory R64, R68): which bytes a data access leaves, and which an instruction does -/

namespace Sys2Proof.Machine

section
variable {s t : State} {dat id x : Nat}

/-- After one device has changed, its capacity kept, a byte reads as before unless it is one that changed on that device. -/
theorem State.byteAt_putDevice {d e : Device} (hd : s.device dat = some d) (hcap : e.cap = d.cap)
    (hread : id = dat → Memory.read e.store x = Memory.read d.store x) : (s.putDevice dat e).byteAt id x = s.byteAt id x := by
  by_cases hid : id = dat
  case pos =>
    have he : (s.putDevice dat e).device id = some e := by rw [State.putDevice_device, if_pos hid, hd, Option.map_some]
    rw [State.byteAt_of_device he, State.byteAt_of_device (hid ▸ hd), hcap, hread hid]
  case neg => rw [State.byteAt, State.putDevice_device, if_neg hid, State.byteAt]

/-- A load leaves every byte as it was, so the bytes after it are those that the rest of the instruction keeps. -/
theorem loadThen_byteAt {a : Word} {w : Width} {k : Word → State → Result} (h : loadThen s dat a w k = .next t)
    (hk : ∀ v u, k v u = .next t → t.byteAt id x = u.byteAt id x) : t.byteAt id x = s.byteAt id x := by
  obtain ⟨d, hd, h⟩ := loadThen_next h
  have hcap : (d.read a w).2.cap = d.cap := (Accessed.read d a w).cap
  exact (hk _ _ h).trans (State.byteAt_putDevice hd hcap fun _ => by rw [Device.read_eq, Device.faulted_store])

/-- A store leaves every byte outside its span as it was. -/
theorem storeThen_byteAt {a : Word} {w : Width} {v : Word} {k : State → Result} (h : storeThen s dat a w v k = .next t)
    (hx : ¬(id = dat ∧ a.toNat ≤ x ∧ x < a.toNat + w.bytes))
    (hk : ∀ u, k u = .next t → t.byteAt id x = u.byteAt id x) : t.byteAt id x = s.byteAt id x := by
  obtain ⟨d, hd, h⟩ := storeThen_next h
  have hcap : (d.write a w v).cap = d.cap := (Accessed.write d a w v).cap
  exact (hk _ h).trans (State.byteAt_putDevice hd hcap fun hid => Device.write_frame d a w v fun hspan => hx ⟨hid, hspan⟩)

theorem loadReg_byteAt {r : Reg} {a : Word} {w : Width} (h : loadReg r a w s = .next t) : t.byteAt id x = s.byteAt id x :=
  loadThen_byteAt h fun _ _ h => by cases h; rfl

theorem popReg_byteAt {r q : Reg} {w : Width} (h : popReg r q w s = .next t) : t.byteAt id x = s.byteAt id x :=
  loadThen_byteAt (s := s.set q (s.get q - widthStep w)) h fun _ _ h => by cases h; rfl

theorem storeValue_byteAt {a : Word} {w : Width} {v : Word} (h : storeValue a w v s = .next t)
    (hx : ¬(id = s.datId ∧ a.toNat ≤ x ∧ x < a.toNat + w.bytes)) : t.byteAt id x = s.byteAt id x :=
  storeThen_byteAt h hx fun _ h => by cases h; rfl

theorem pushReg_byteAt {r q : Reg} {w : Width} (h : pushReg r q w s = .next t)
    (hx : ¬(id = s.datId ∧ (s.get q).toNat ≤ x ∧ x < (s.get q).toNat + w.bytes)) : t.byteAt id x = s.byteAt id x :=
  storeThen_byteAt h hx fun _ h => by cases h; rfl

/-- Of MOV.MM's two accesses only the store can change a byte. -/
theorem movMM_byteAt {a b : Reg} {w : Width}
    (h : loadThen s s.datId (s.get b) w (fun v u => storeThen (u.setBus v) s.datId (s.get a) w (low w v) .next) = .next t)
    (hx : ¬(id = s.datId ∧ (s.get a).toNat ≤ x ∧ x < (s.get a).toNat + w.bytes)) : t.byteAt id x = s.byteAt id x :=
  loadThen_byteAt h fun v u h => storeThen_byteAt (s := u.setBus v) h hx fun _ h => by cases h; rfl

/-- Index 15 raises, which changes no byte; so the bytes an instruction on a field leaves are those it leaves on a register. -/
theorem onReg_byteAt {a : RegField} {k : Reg → Result} (h : onReg a s k = .next t)
    (hk : ∀ r, a = some r → k r = .next t → t.byteAt id x = s.byteAt id x) : t.byteAt id x = s.byteAt id x := by
  rcases onReg_cases h with ⟨r, ha, h⟩ | ⟨-, h⟩
  · exact hk r ha h
  · cases h; rfl

theorem onRegs_byteAt {a b : RegField} {k : Reg → Reg → Result} (h : onRegs a b s k = .next t)
    (hk : ∀ r q, a = some r → b = some q → k r q = .next t → t.byteAt id x = s.byteAt id x) :
    t.byteAt id x = s.byteAt id x :=
  onReg_byteAt h fun r ha h => onReg_byteAt h fun q hb h => hk r q ha hb h

/-- An address outside what the instruction stores to is outside the span it computes. -/
theorem not_mem_span_of_not_storesTo {i : Instr} {a : Word} {w : Width} (hx : ¬ i.storesTo s id x)
    (hspan : i.storeSpan s = some (a, w)) : ¬(id = s.datId ∧ a.toNat ≤ x ∧ x < a.toNat + w.bytes) :=
  fun h => hx ⟨a, w, hspan, h⟩

/-- Every instruction leaves every byte outside its store span as it was. -/
theorem exec_byteAt_of_not_storesTo {i : Instr} (h : exec i s = .next t) (hx : ¬ i.storesTo s id x) :
    t.byteAt id x = s.byteAt id x := by
  cases i with
  | nop | halt | jmpI => cases h; rfl
  | reservedBitwise | reservedStack | reservedArithB4 | reservedArithB8 | reservedJump | reservedCat7 | reservedInc15
  | reservedDec15 => cases h; rfl
  | bitNot | movRI | inc | dec | jmpR => exact onReg_byteAt h fun _ _ h => by cases h; rfl
  | bitAnd | bitOr | bitXor | movRR | add | sub | mul => exact onRegs_byteAt h fun _ _ _ _ h => by cases h; rfl
  | div | mod =>
    refine onRegs_byteAt h fun _ _ _ _ h => ?_
    rcases dividingOp_next h with ⟨-, rfl⟩ | ⟨-, rfl⟩ <;> rfl
  | jzI | jnzI =>
    refine onReg_byteAt h fun _ _ h => ?_
    cases h
    split <;> rfl
  | jzR | jnzR =>
    refine onRegs_byteAt h fun _ _ _ _ h => ?_
    cases h
    split <;> rfl
  | movRA => exact onReg_byteAt h fun _ _ h => loadReg_byteAt h
  | movRM => exact onRegs_byteAt h fun _ _ _ _ h => loadReg_byteAt h
  | pops => exact onReg_byteAt h fun _ _ h => popReg_byteAt h
  | pop => exact onRegs_byteAt h fun _ _ _ _ h => popReg_byteAt h
  | movMI | movAR =>
    refine onReg_byteAt h ?_
    rintro r rfl h
    exact storeValue_byteAt h (not_mem_span_of_not_storesTo hx rfl)
  | movMR =>
    refine onRegs_byteAt h ?_
    rintro r q rfl rfl h
    exact storeValue_byteAt h (not_mem_span_of_not_storesTo hx rfl)
  | movMM =>
    refine onRegs_byteAt h ?_
    rintro r q rfl rfl h
    exact movMM_byteAt h (not_mem_span_of_not_storesTo hx rfl)
  | pushs =>
    refine onReg_byteAt h ?_
    rintro r rfl h
    exact pushReg_byteAt h (not_mem_span_of_not_storesTo hx rfl)
  | push =>
    refine onRegs_byteAt h ?_
    rintro r q rfl rfl h
    exact pushReg_byteAt h (not_mem_span_of_not_storesTo hx rfl)

/-- An access leaves every other device as it was, its latch included. -/
theorem Touches.device_of_ne (h : Touches dat s t) (hid : id ≠ dat) : t.device id = s.device id := by
  obtain ⟨-, hsame | ⟨d, e, -, hupd, -⟩⟩ := h
  · rw [State.device, hsame, State.device]
  · rw [State.device, hupd, DeviceMap.find_update, if_neg hid, State.device]

end

/-- Settles O20: the bytes by `exec_byteAt_of_not_storesTo`; the latches because no device but the data device is accessed. -/
theorem memoryFrame : Obligations.MemoryFrame := by
  intro i s t h
  refine ⟨fun id x hx => exec_byteAt_of_not_storesTo h hx, fun id hid => ?_⟩
  rw [State.faultAt, (exec_touches h).device_of_ne hid, State.faultAt]

end Sys2Proof.Machine

/-! # A step on the bytes of an instruction (40 R141), and the untaken jump (43_jump R204) -/

namespace Sys2Proof

/-- Every instruction but HALT moves RIP past its own bytes (40 R146, R151). -/
theorem Instr.advance_of_ne_halt {i : Instr} (h : i ≠ .halt) : i.advance = i.len := if_neg h

end Sys2Proof

namespace Sys2Proof.Machine

theorem State.device_wf {s : State} {id : Nat} {d : Device} (hwf : s.wf = true) (hd : s.device id = some d) : d.wf = true :=
  DeviceMap.wf_find hwf hd

theorem Device.cap_lt_of_wf {d : Device} (h : d.wf = true) : d.cap < 2 ^ 64 := by
  simp only [Device.wf, Bool.and_eq_true, decide_eq_true_eq] at h
  exact h.1.1

/-- Where the backed bytes at RIP are an instruction, the step is its effect in the entered state, and it has all those bytes.
The capacity is below 2^64, so none of the fetches wraps. -/
theorem step_of_decode {s : State} {bs : List Byte} {i : Instr} (hwf : s.wf = true) (hmapped : s.mapped = true)
    (hdec : decode bs = .ok (i, []))
    (hbytes : ∀ k, k < bs.length → s.byteAt s.cmdId ((s.get .rip).toNat + k) = bs[k]?) :
    step s = exec i (s.entered i) ∧ bs.length = i.len := by
  obtain ⟨c, d, hc, hd⟩ := State.mapped_iff.mp hmapped
  have hcap : c.cap < 2 ^ 64 := Device.cap_lt_of_wf (State.device_wf hwf hc)
  have hlane : ∀ k (hk : k < bs.length), (s.get .rip).toNat + k < c.cap ∧ c.lane ((s.get .rip).toNat + k) = bs[k] := fun k hk =>
    State.lt_cap_and_lane_of_byteAt hc ((hbytes k hk).trans (List.getElem?_eq_getElem hk))
  obtain ⟨hinstr, hlen, -⟩ := decode_instrAt hdec
    (fun k hk => by rw [(hlane k hk).2, List.getElem?_eq_getElem hk])
    (fun k hk _ => (hlane k hk).1.trans hcap)
  rw [List.length_nil, Nat.add_zero] at hlen
  have hfits : (s.get .rip).toNat + i.len ≤ c.cap := by
    obtain ⟨hpos, -⟩ := i.len_bounds
    have hlast := (hlane (i.len - 1) (by omega)).1
    omega
  have hbacked : fetchFaults c (s.get .rip) = false := by
    rw [fetchFaults_eq_outside (.inl (hinstr ▸ hfits.trans hcap.le)), hinstr]
    exact decide_eq_false (Nat.not_lt.mpr hfits)
  rw [step_eq_exec_entered hc hd hbacked, hinstr]
  exact ⟨rfl, hlen⟩

@[simp] theorem State.entered_rtx (s : State) (i : Instr) : (s.entered i).get .rtx = s.get .rtx + 1 := by
  simp [State.entered]

@[simp] theorem State.entered_rip (s : State) (i : Instr) : (s.entered i).get .rip = s.get .rip + BitVec.ofNat 64 i.advance := by
  simp [State.entered]

theorem State.onlyRegs_advanceRip (s : State) (n : Nat) : OnlyRegs s (s.advanceRip n) [.rip] :=
  ⟨fun r hr => by rw [State.advanceRip_get, if_neg (List.ne_of_not_mem_cons hr)], rfl, rfl⟩

/-- Between a step's start and its effect only RTX and RIP change, where all the bytes are backed. -/
theorem State.onlyRegs_entered (s : State) (i : Instr) : OnlyRegs s (s.entered i) [.rtx, .rip] :=
  s.onlyRegs_tick.trans (s.tick.onlyRegs_advanceRip i.advance)

theorem OnlyRegs.refl (s : State) : OnlyRegs s s [] :=
  ⟨fun _ _ => rfl, rfl, rfl⟩

section
variable {w : Width} {a b : Reg} {imm : Word} {i : Instr} {s : State}

theorem NotTaken.ne_halt (h : NotTaken w a b imm i s) : i ≠ .halt := by
  rcases h with ⟨rfl | rfl, -⟩ | ⟨rfl | rfl, -⟩ <;> exact nofun

/-- The effect of an untaken jump is no effect: the test of its condition selects the state on entry. -/
theorem exec_of_notTaken (h : NotTaken w a b imm i s) : exec i s = .next s := by
  rcases h with ⟨rfl | rfl, hcond⟩ | ⟨rfl | rfl, hcond⟩
  case inl.inl | inl.inr => exact congrArg Host.Outcome.next (if_neg hcond)
  case inr.inl | inr.inr => exact congrArg Host.Outcome.next (if_pos hcond)

end

/-- Settles O37: the effect is none (`exec_of_notTaken`), so a step ends in the entered state, whose RIP is past all the bytes
that decode to the jump (`step_of_decode`). -/
theorem untakenJumpsFallThrough : Obligations.UntakenJumpsFallThrough := by
  intro w a b imm i
  refine ⟨fun s hnot => ⟨s, exec_of_notTaken hnot, OnlyRegs.refl s⟩, fun s bs hwf hmapped hdec hbytes hnot => ?_⟩
  obtain ⟨hstep, hlen⟩ := step_of_decode hwf hmapped hdec hbytes
  refine ⟨s.entered i, hstep.trans (exec_of_notTaken hnot), s.onlyRegs_entered i, s.entered_rtx i, ?_, ?_⟩
  · rw [State.entered_rip, Instr.advance_of_ne_halt hnot.ne_halt, hlen]
  · rintro (rfl | rfl) <;> exact hlen

end Sys2Proof.Machine

/-! # The register frame (10_state R23): which registers an effect leaves, and why only a pop changes RIP and RDC together
(70_reset R305, 42_stack R192, R194) -/

namespace Sys2Proof

/-- Two different registers among two are those two, in one order or the other. -/
theorem Reg.pair_of_mem_pair {r q a b : Reg} (hr : r = a ∨ r = b) (hq : q = a ∨ q = b) (hne : r ≠ q) :
    a = r ∧ b = q ∨ a = q ∧ b = r := by
  obtain rfl | rfl := hr
  · exact .inl ⟨rfl, (hq.resolve_left hne.symm).symm⟩
  · exact .inr ⟨(hq.resolve_right hne.symm).symm, rfl⟩

/-- Only the pops have two registers to write, their destination and their pointer. -/
theorem Instr.pop_of_mem_dests {i : Instr} {cfg : Config} {r q : Reg} (hr : r ∈ i.dests cfg) (hq : q ∈ i.dests cfg)
    (hne : r ≠ q) :
    ∃ (w : Width) (a b : Reg), (i = .pop w (some a) (some b) ∨ i = .pops w (some a) ∧ b = cfg.fixedSp)
      ∧ (a = r ∧ b = q ∨ a = q ∧ b = r) := by
  cases i with
  | nop | halt | movMR | movMM | movMI | movAR => cases hr
  | reservedBitwise | reservedStack | reservedArithB4 | reservedArithB8 | reservedJump | reservedCat7 | reservedInc15
  | reservedDec15 => cases hr
  | jmpI | jmpR | jzI | jzR | jnzI | jnzR | pushs =>
    exact absurd ((List.mem_singleton.mp hr).trans (List.mem_singleton.mp hq).symm) hne
  | bitNot | bitAnd | bitOr | bitXor | add | sub | mul | div | mod | movRR | movRM | movRI | movRA | inc | dec | push =>
    exact absurd (Option.mem_unique (Option.mem_toList.mp hr) (Option.mem_toList.mp hq)) hne
  | pops w a =>
    cases a with
    | none => exact absurd ((List.mem_singleton.mp hr).trans (List.mem_singleton.mp hq).symm) hne
    | some a =>
      exact ⟨w, a, cfg.fixedSp, .inr ⟨rfl, rfl⟩,
        Reg.pair_of_mem_pair (List.mem_pair.mp hr).symm (List.mem_pair.mp hq).symm hne⟩
  | pop w a b =>
    cases a with
    | none => exact absurd (Option.mem_unique (Option.mem_toList.mp hr) (Option.mem_toList.mp hq)) hne
    | some a =>
      cases b with
      | none => exact absurd ((List.mem_singleton.mp hr).trans (List.mem_singleton.mp hq).symm) hne
      | some b =>
        exact ⟨w, a, b, .inl rfl, Reg.pair_of_mem_pair (List.mem_pair.mp hr) (List.mem_pair.mp hq) hne⟩

end Sys2Proof

namespace Sys2Proof.Machine

section
variable {s t : State} {r : Reg}

theorem bitwiseOp_get_of_ne {op : AluOp} {w : Width} {a b : Reg} (hne : r ≠ a) : (bitwiseOp op w a b s).get r = s.get r := by
  simp [bitwiseOp, hne]

theorem arithmeticOp_get_of_ne {op : AluOp} {w : Width} {a b : Reg} (hne : r ≠ a) (hrpf : r ≠ .rpf) :
    (arithmeticOp op w a b s).get r = s.get r := by
  simp [arithmeticOp, hne, hrpf]

theorem dividingOp_get_of_ne {op : AluOp} {w : Width} {a b : Reg} (h : dividingOp op w a b s = .next t) (hne : r ≠ a)
    (hrpf : r ≠ .rpf) : t.get r = s.get r := by
  rcases dividingOp_next h with ⟨-, rfl⟩ | ⟨-, rfl⟩
  · simp [hrpf]
  · exact arithmeticOp_get_of_ne hne hrpf

theorem loadReg_get_of_ne {a : Reg} {x : Word} {w : Width} (h : loadReg a x w s = .next t) (hne : r ≠ a) :
    t.get r = s.get r := by
  obtain ⟨d, -, rfl⟩ := loadReg_next h
  simp [hne]

theorem storeValue_get {x v : Word} {w : Width} (h : storeValue x w v s = .next t) : t.get r = s.get r := by
  obtain ⟨d, -, rfl⟩ := storeValue_next h
  rfl

theorem execMovMM_get {a b : Reg} {w : Width} (h : execMovMM w (some a) (some b) s = .next t) : t.get r = s.get r := by
  obtain ⟨d, -, rfl⟩ := execMovMM_next h
  rfl

theorem pushReg_get_of_ne {a b : Reg} {w : Width} (h : pushReg a b w s = .next t) (hne : r ≠ b) : t.get r = s.get r := by
  obtain ⟨d, -, rfl⟩ := pushReg_next h
  simp [hne]

theorem popReg_get_of_ne {a b : Reg} {w : Width} (h : popReg a b w s = .next t) (ha : r ≠ a) (hb : r ≠ b) :
    t.get r = s.get r := by
  obtain ⟨d, -, rfl⟩ := popReg_next h
  simp [ha, hb]

/-- Index 15 raises, which changes RPF alone; so what an instruction on a field leaves is what it leaves on a register. -/
theorem onReg_get {a : RegField} {k : Reg → Result} (h : onReg a s k = .next t) (hrpf : r ≠ .rpf)
    (hk : ∀ ra, a = some ra → k ra = .next t → t.get r = s.get r) : t.get r = s.get r := by
  rcases onReg_cases h with ⟨ra, ha, h⟩ | ⟨-, h⟩
  · exact hk ra ha h
  · cases h; simp [hrpf]

theorem onRegs_get {a b : RegField} {k : Reg → Reg → Result} (h : onRegs a b s k = .next t) (hrpf : r ≠ .rpf)
    (hk : ∀ ra rb, a = some ra → b = some rb → k ra rb = .next t → t.get r = s.get r) : t.get r = s.get r :=
  onReg_get h hrpf fun ra ha h => onReg_get h hrpf fun rb hb h => hk ra rb ha hb h

/-- Every effect leaves every register but RPF that is not one of the instruction's destinations. -/
theorem exec_get_of_not_mem_dests {i : Instr} (h : exec i s = .next t) (hr : r ∉ i.dests s.cfg) (hrpf : r ≠ .rpf) :
    t.get r = s.get r := by
  cases i with
  | nop => cases h; rfl
  | halt => cases h; simp [hrpf]
  | reservedBitwise | reservedStack | reservedArithB4 | reservedArithB8 | reservedJump | reservedCat7 | reservedInc15
  | reservedDec15 => cases h; simp [hrpf]
  | bitNot =>
    refine onReg_get h hrpf ?_
    rintro ra rfl h
    cases h
    exact bitwiseOp_get_of_ne (List.ne_of_not_mem_cons hr)
  | bitAnd | bitOr | bitXor =>
    refine onRegs_get h hrpf ?_
    rintro ra rb rfl - h
    cases h
    exact bitwiseOp_get_of_ne (List.ne_of_not_mem_cons hr)
  | add | sub | mul =>
    refine onRegs_get h hrpf ?_
    rintro ra rb rfl - h
    cases h
    exact arithmeticOp_get_of_ne (List.ne_of_not_mem_cons hr) hrpf
  | div | mod =>
    refine onRegs_get h hrpf ?_
    rintro ra rb rfl - h
    exact dividingOp_get_of_ne h (List.ne_of_not_mem_cons hr) hrpf
  | movRI | inc | dec =>
    refine onReg_get h hrpf ?_
    rintro ra rfl h
    cases h
    simp [List.ne_of_not_mem_cons hr]
  | movRR =>
    refine onRegs_get h hrpf ?_
    rintro ra rb rfl - h
    cases h
    simp [List.ne_of_not_mem_cons hr]
  | movRA =>
    refine onReg_get h hrpf ?_
    rintro ra rfl h
    exact loadReg_get_of_ne h (List.ne_of_not_mem_cons hr)
  | movRM =>
    refine onRegs_get h hrpf ?_
    rintro ra rb rfl - h
    exact loadReg_get_of_ne h (List.ne_of_not_mem_cons hr)
  | movMI | movAR => exact onReg_get h hrpf fun _ _ h => storeValue_get h
  | movMR => exact onRegs_get h hrpf fun _ _ _ _ h => storeValue_get h
  | movMM => exact onRegs_get h hrpf fun _ _ _ _ h => execMovMM_get h
  | pushs => exact onReg_get h hrpf fun _ _ h => pushReg_get_of_ne h (List.ne_of_not_mem_cons hr)
  | push =>
    refine onRegs_get h hrpf ?_
    rintro ra rb - rfl h
    exact pushReg_get_of_ne h (List.ne_of_not_mem_cons hr)
  | pops =>
    refine onReg_get h hrpf ?_
    rintro ra rfl h
    exact popReg_get_of_ne h (List.ne_of_not_mem_cons (List.not_mem_of_not_mem_cons hr)) (List.ne_of_not_mem_cons hr)
  | pop =>
    refine onRegs_get h hrpf ?_
    rintro ra rb rfl rfl h
    exact popReg_get_of_ne h (List.ne_of_not_mem_cons hr) (List.ne_of_not_mem_cons (List.not_mem_of_not_mem_cons hr))
  | jmpI => cases h; simp [List.ne_of_not_mem_cons hr]
  | jmpR => exact onReg_get h hrpf fun _ _ h => by cases h; simp [List.ne_of_not_mem_cons hr]
  | jzI | jnzI =>
    refine onReg_get h hrpf fun _ _ h => ?_
    cases h
    split <;> simp [List.ne_of_not_mem_cons hr]
  | jzR | jnzR =>
    refine onRegs_get h hrpf fun _ _ _ _ h => ?_
    cases h
    split <;> simp [List.ne_of_not_mem_cons hr]

theorem toNat_sub_widthStep (v : Word) (w : Width) : ((v - widthStep w).toNat : Int) = (v.toNat - w.bytes : Int) % 2 ^ 64 := by
  have hstep : (widthStep w).toNat = w.bytes := by cases w <;> rfl
  have hbytes := Width.bytes_le w
  rw [BitVec.toNat_sub, hstep]
  omega

/-- A pop moves its pointer down by the width, unless the destination, written last, is the pointer itself. -/
theorem popReg_get_pointer {a b : Reg} {w : Width} (h : popReg a b w s = .next t) (hne : b ≠ a) :
    t.get b = s.get b - widthStep w := by
  obtain ⟨d, -, rfl⟩ := popReg_next h
  simp [hne]

/-- Both forms of pop are the shared operation on their destination and pointer. -/
theorem popReg_of_exec_pop {i : Instr} {w : Width} {a b : Reg} (h : exec i s = .next t)
    (hi : i = .pop w (some a) (some b) ∨ i = .pops w (some a) ∧ b = s.cfg.fixedSp) : popReg a b w s = .next t := by
  obtain rfl | ⟨rfl, rfl⟩ := hi <;> exact h

end

/-- Settles O57: a register an effect changes is a destination (`exec_get_of_not_mem_dests`), and only a pop has two
(`Instr.pop_of_mem_dests`); its pointer is not its destination here, so it just moves down. -/
theorem ripAndRdcTogether : Obligations.RipAndRdcTogether := by
  intro i s t h hrip hrdc
  have mem_dests : ∀ r, r ≠ .rpf → t.get r ≠ s.get r → r ∈ i.dests s.cfg := fun r hrpf hchanged =>
    Decidable.byContradiction fun hr => hchanged (exec_get_of_not_mem_dests h hr hrpf)
  obtain ⟨w, a, b, hpop, hregs⟩ :=
    Instr.pop_of_mem_dests (mem_dests .rip nofun hrip) (mem_dests .rdc nofun hrdc) nofun
  refine ⟨w, a, b, hpop, hregs, ?_⟩
  have hne : b ≠ a := by obtain ⟨rfl, rfl⟩ | ⟨rfl, rfl⟩ := hregs <;> exact nofun
  rw [popReg_get_pointer (popReg_of_exec_pop h hpop) hne, toNat_sub_widthStep]

end Sys2Proof.Machine

/-! # What every step keeps (10_state R44, R45, R49; 20_memory R64, R78): the canonical form and the
installation, as laws of `Touches` -/

namespace Sys2Proof.Machine

section
variable {dat : Nat} {s t : State}

/-- An access keeps the canonical form of the device map. -/
theorem Touches.wf (h : Touches dat s t) (hs : s.wf = true) : t.wf = true := by
  obtain ⟨-, hsame | ⟨d, e, hd, hupd, hacc⟩⟩ := h
  · rwa [State.wf, hsame]
  · rw [State.wf, hupd]
    exact DeviceMap.wf_update hs hd (hacc.wf (State.device_wf hs hd))

/-- An access changes no id, kind or capacity, and not their order. -/
theorem Touches.map_installed (h : Touches dat s t) :
    t.devices.map (fun e => (e.1, e.2.kind, e.2.cap)) = s.devices.map (fun e => (e.1, e.2.kind, e.2.cap)) := by
  obtain ⟨-, hsame | ⟨d, e, hd, hupd, hacc⟩⟩ := h
  · rw [hsame]
  · rw [hupd]
    exact DeviceMap.map_update _ hd (by simp only [hacc.kind, hacc.cap])

/-- Every installed device is afterwards what accesses to it can leave. -/
theorem Touches.accessed {id : Nat} {d : Device} (h : Touches dat s t) (hd : s.device id = some d) :
    ∃ e, t.device id = some e ∧ Accessed d e := by
  obtain ⟨-, hsame | ⟨d', e, hd', hupd, hacc⟩⟩ := h
  · exact ⟨d, by rw [State.device, hsame, ← hd, State.device], Accessed.refl d⟩
  · by_cases hid : id = dat
    · subst hid
      obtain rfl : d' = d := Option.some.inj (hd'.symm.trans hd)
      exact ⟨e, by rw [State.device, hupd, DeviceMap.find_update, if_pos rfl, ← State.device, hd, Option.map_some], hacc⟩
    · exact ⟨d, by rw [State.device, hupd, DeviceMap.find_update, if_neg hid, ← State.device, hd], Accessed.refl d⟩

/-- A step is an access to the command device and then one to the data device. -/
theorem step_touches (h : step s = .next t) : ∃ u, Touches s.cmdId s u ∧ Touches s.datId u t := by
  obtain ⟨i, u, hfetch, hexec⟩ := step_next h
  exact ⟨u, State.fetch_touches hfetch, State.fetch_datId hfetch ▸ exec_touches hexec⟩

/-- Every device installed before a step is installed after it, as accesses can leave it. -/
theorem step_accessed {id : Nat} {d : Device} (h : step s = .next t) (hd : s.device id = some d) :
    ∃ e, t.device id = some e ∧ Accessed d e := by
  obtain ⟨u, hcmd, hdat⟩ := step_touches h
  obtain ⟨d', hd', hacc⟩ := hcmd.accessed hd
  obtain ⟨e, he, hacc'⟩ := hdat.accessed hd'
  exact ⟨e, he, hacc.trans hacc'⟩

end

/-- Settles O13: a step is two accesses, and each keeps the canonical form. -/
theorem stepKeepsWellFormed : Obligations.StepKeepsWellFormed := by
  intro s t hs h
  obtain ⟨u, hcmd, hdat⟩ := step_touches h
  exact hdat.wf (hcmd.wf hs)

/-- Settles O15: ids, kinds, capacities and FIXED_SP through both accesses of a step; content and latch by `step_accessed`, device
by device. -/
theorem stepKeepsInstallation : Obligations.StepKeepsInstallation := by
  intro s t h
  obtain ⟨u, hcmd, hdat⟩ := step_touches h
  refine ⟨hdat.1.trans hcmd.1, hdat.map_installed.trans hcmd.map_installed, fun id x hkind => ?_, fun id hfault => ?_⟩
  · obtain ⟨d, hd, hconst⟩ := Option.map_eq_some_iff.mp hkind
    obtain ⟨e, he, hacc⟩ := step_accessed h hd
    rw [State.byteAt_of_device he, State.byteAt_of_device hd, hacc.cap, hacc.content hconst]
  · obtain ⟨d, hd, hset⟩ := Option.map_eq_some_iff.mp hfault
    obtain ⟨e, he, hacc⟩ := step_accessed h hd
    exact Option.map_eq_some_iff.mpr ⟨e, he, hacc.fault hset⟩

/-- Settles O14: no device is installed after reset. -/
theorem resetIsWellFormed : Obligations.ResetIsWellFormed := rfl

end Sys2Proof.Machine

/-! # What the host does before the first step and between steps (10_state R48, 70_reset R290 to R297): reset, installation,
loading -/

namespace Sys2Proof.Machine

@[simp] theorem State.bulkReset_get (s : State) (r : Reg) : s.bulkReset.get r = 0 := RegFile.get_zero r
@[simp] theorem State.bulkReset_devices (s : State) : s.bulkReset.devices = s.devices := rfl

/-- Settles O50: by the laws of `State.construct`; reset is the construction without devices. -/
theorem resetValues : Obligations.ResetValues :=
  ⟨fun cfg m => ⟨fun r => State.construct_get r cfg m, State.construct_bus cfg m, State.construct_devices cfg m,
    State.construct_cfg cfg m⟩, rfl⟩

/-- Settles O52: the bulk reset replaces the register file alone, and the canonical form is one of the device map. -/
theorem bulkResetTouchesRegistersOnly : Obligations.BulkResetTouchesRegistersOnly :=
  fun s => ⟨s.bulkReset_get, s.bulkReset_devices, rfl, rfl, id⟩

theorem Device.wf_iff {d : Device} :
    d.wf = true ↔ d.cap < 2 ^ 64 ∧ Memory.wf d.store = true ∧ Memory.below d.store d.cap = true := by
  simp only [Device.wf, Bool.and_eq_true, decide_eq_true_eq, and_assoc]

theorem Device.ofCapacity_wf {cap : Nat} (h : cap < 2 ^ 64) : (Device.ofCapacity cap).wf = true :=
  Device.wf_iff.mpr ⟨h, rfl, rfl⟩

/-- A store loaded from the first address on with all its bytes reads them back. -/
theorem Memory.read_load_zero {content : List Byte} {x : Nat} (h : x < content.length) :
    some (Memory.read (Memory.load [] 0 content) x) = content[x]? := by
  rw [Memory.read_load rfl, dif_pos ⟨Nat.zero_le x, by omega⟩, List.getElem?_eq_getElem h]
  rfl

theorem Device.ofContent_wf {content : List Byte} (h : content.length < 2 ^ 64) : (Device.ofContent content).wf = true :=
  Device.wf_iff.mpr ⟨h, Memory.wf_load rfl 0 content, Memory.below_load rfl 0 content (Nat.zero_add _).le⟩

/-- An installed device is found under its id. -/
theorem State.device_of_install {s t : State} {id : Nat} {d : Device} (h : s.install id d = some t) : t.device id = some d := by
  obtain ⟨-, rfl⟩ := State.install_eq_some_iff.mp h
  exact (DeviceMap.find_insert ..).trans (if_pos rfl)

/-- Settles O56: an empty store reads blank and a loaded one its content (`Memory.read_load_zero`); an installation then finds the
device under its id. -/
theorem constructedDevices : Obligations.ConstructedDevices := by
  refine ⟨fun cap => ⟨rfl, rfl, rfl, fun x _ => rfl, Device.ofCapacity_wf⟩,
    fun content => ⟨rfl, rfl, rfl, fun x => Memory.read_load_zero, Device.ofContent_wf⟩,
    fun s t id x => ⟨fun cap h => ?_, fun content h => ?_⟩⟩
  · have hd := State.device_of_install h
    exact ⟨State.byteAt_of_device hd x, by rw [State.faultAt, hd]; rfl, by rw [State.kindAt, hd]; rfl⟩
  · have hd := State.device_of_install h
    refine ⟨(State.byteAt_of_device hd x).trans ?_, by rw [State.faultAt, hd]; rfl, by rw [State.kindAt, hd]; rfl⟩
    by_cases hx : x < content.length
    · exact (if_pos hx).trans (Memory.read_load_zero hx)
    · exact (if_neg hx).trans (List.getElem?_eq_none (Nat.not_lt.mp hx)).symm

/-- Where the host's load goes through, the bytes fit the Memory under the id, and its store takes them. -/
theorem State.loadBytes_eq_some {s t : State} {id addr : Nat} {bs : List Byte} (h : s.loadBytes id addr bs = some t) :
    ∃ d, s.device id = some d ∧ addr + bs.length ≤ d.cap
      ∧ t = s.putDevice id { d with store := Memory.load d.store addr bs } := by
  unfold State.loadBytes at h
  split at h
  · next d hd =>
    obtain ⟨⟨-, hfits⟩, h⟩ := Option.ite_none_right_eq_some.mp h
    exact ⟨d, hd, hfits, (Option.some.inj h).symm⟩
  · cases h

theorem Device.load_wf {d : Device} {addr : Nat} {bs : List Byte} (hd : d.wf = true) (hfits : addr + bs.length ≤ d.cap) :
    ({ d with store := Memory.load d.store addr bs } : Device).wf = true := by
  obtain ⟨hcap, hstore, hbelow⟩ := Device.wf_iff.mp hd
  exact Device.wf_iff.mpr ⟨hcap, Memory.wf_load hstore addr bs, Memory.below_load hbelow addr bs hfits⟩

/-- Settles O55: an insertion and an update with a well-formed device keep the form (`DeviceMap.wf_insert`,
`DeviceMap.wf_update`); a load places exactly its bytes by `Memory.read_load`. -/
theorem hostKeepsWellFormed : Obligations.HostKeepsWellFormed := by
  refine ⟨fun cfg m hm => hm, fun s t id d hs hd h => ?_, fun s t id addr bs hs h => ?_, fun s r v hs => ⟨hs, hs⟩⟩
  · obtain ⟨⟨hid, -⟩, rfl⟩ := State.install_eq_some_iff.mp h
    exact DeviceMap.wf_insert hs hid hd
  · obtain ⟨d, hd, hfits, rfl⟩ := State.loadBytes_eq_some h
    have hwf := State.device_wf hs hd
    refine ⟨DeviceMap.wf_update hs hd (Device.load_wf hwf hfits), fun k hk => ?_, fun j x hx => ?_⟩
    · have he := State.putDevice_device s id id { d with store := Memory.load d.store addr bs }
      rw [if_pos rfl, hd, Option.map_some] at he
      rw [State.byteAt_of_device he, if_pos (show addr + k < d.cap by omega), Memory.read_load (Device.wf_store hwf),
        dif_pos ⟨by omega, by omega⟩, List.getElem?_eq_getElem hk]
      simp
    · refine State.byteAt_putDevice hd rfl fun hj => ?_
      rw [Memory.read_load (Device.wf_store hwf), dif_neg fun hspan => hx ⟨hj, hspan⟩]

end Sys2Proof.Machine

/-! # The decoder by category (30_encoding R113): totality, the opcode table (R116), ignored fields (R112) -/

namespace Sys2Proof

/-- Settles O3: enough bytes decode (`decode_total`), and the rest starts after the instruction's length (`decode_rest`). -/
theorem decoderIsTotal : Obligations.DecoderIsTotal := by
  intro bs hlen
  obtain ⟨i, rest, h⟩ := decode_total hlen
  exact ⟨i, decode_rest h ▸ h⟩

/-- Settles O6: the decoder evaluated on the six words. -/
theorem specWordsDecode : Obligations.SpecWordsDecode := by
  unfold Obligations.SpecWordsDecode
  decide

/-- The instruction that the fields of an encoding with an operand byte spell, by category; the other three categories have none. -/
def decodeFields (cat sub : BitVec 3) (w : Width) (a b : RegField) (imm : Word) : Instr :=
  match cat with
  | 1 => decodeBitwise sub w a b
  | 2 => decodeStack sub w a b
  | 4 => decodeMove sub w a b imm
  | 5 => decodeArithmetic sub w a b
  | 6 => decodeJump sub w a b imm
  | 0 | 3 | 7 => .nop

theorem decodeParts_of_hasOperand {op : Byte} (x : Byte) (imm : Word) (ho : hasOperand op = true) :
    decodeParts op x imm = decodeFields (catField op) (subField op) (widthField op) (fieldA x) (fieldB x) imm := by
  have hhalt : ¬ isHalt op = true := fun hh => by simp [isHalt_hasOperand hh] at ho
  rw [decodeParts, if_neg hhalt]
  split <;> simp_all [hasOperand, decodeFields]

/-- Without an operand byte the opcode byte is the whole instruction. -/
theorem decodeParts_of_not_hasOperand {op : Byte} (x : Byte) (imm : Word) (ho : ¬ hasOperand op = true) :
    decodeParts op x imm = decodeParts op 0 0 := by
  unfold decodeParts
  split
  · rfl
  · split <;> simp_all [hasOperand]

theorem decodeParts_of_catField_zero {op : Byte} (x : Byte) (imm : Word) (h : catField op = 0) : decodeParts op x imm = .nop := by
  have hhalt : ¬ isHalt op = true := fun hh => by simp [beq_iff_eq.mp hh, catField] at h
  rw [decodeParts, if_neg hhalt, h]
  rfl

/-- How a category's decoder uses the operand byte's fields and the immediate: the row depends on none of them, and what the row
ignores (R112) is dropped. -/
structure OperandUse (f : RegField → RegField → Word → Instr) : Prop where
  row : ∀ a b imm a' b' imm', (f a b imm).row = (f a' b' imm').row
  fieldB : ∀ a b b' imm, (f a b imm).row ∈ [Row.not, .pushs, .pops, .movRI, .movMI, .movRA, .movAR, .jmpR, .jzI, .jnzI] →
    f a b imm = f a b' imm
  operand : ∀ a b a' b' imm,
    (f a b imm).row ∈ [Row.jmpI, .reservedBitwise, .reservedStack, .reservedArithB4, .reservedArithB8, .reservedJump] →
      f a b imm = f a' b' imm

theorem OperandUse.const (i : Instr) : OperandUse fun _ _ _ => i where
  row _ _ _ _ _ _ := rfl
  fieldB _ _ _ _ _ := rfl
  operand _ _ _ _ _ _ := rfl

theorem OperandUse.bitwise (sub : BitVec 3) (w : Width) : OperandUse fun a b _ => decodeBitwise sub w a b where
  row a b _ a' b' _ := by unfold decodeBitwise; split <;> rfl
  fieldB a b b' _ := by unfold decodeBitwise; split <;> simp [Instr.row]
  operand a b a' b' _ := by unfold decodeBitwise; split <;> simp [Instr.row]

theorem OperandUse.stack (sub : BitVec 3) (w : Width) : OperandUse fun a b _ => decodeStack sub w a b where
  row a b _ a' b' _ := by unfold decodeStack; split <;> rfl
  fieldB a b b' _ := by unfold decodeStack; split <;> simp [Instr.row]
  operand a b a' b' _ := by unfold decodeStack; split <;> simp [Instr.row]

theorem OperandUse.move (sub : BitVec 3) (w : Width) : OperandUse (decodeMove sub w) where
  row a b imm a' b' imm' := by unfold decodeMove; split <;> rfl
  fieldB a b b' imm := by unfold decodeMove; split <;> simp [Instr.row]
  operand a b a' b' imm := by unfold decodeMove; split <;> simp [Instr.row]

theorem OperandUse.arithmetic (sub : BitVec 3) (w : Width) : OperandUse fun a b _ => decodeArithmetic sub w a b where
  row a b _ a' b' _ := by unfold decodeArithmetic; split <;> rfl
  fieldB a b b' _ := by unfold decodeArithmetic; split <;> simp [Instr.row]
  operand a b a' b' _ := by unfold decodeArithmetic; split <;> simp [Instr.row]

theorem OperandUse.jump (sub : BitVec 3) (w : Width) : OperandUse (decodeJump sub w) where
  row a b imm a' b' imm' := by unfold decodeJump; split <;> rfl
  fieldB a b b' imm := by unfold decodeJump; split <;> simp [Instr.row]
  operand a b a' b' imm := by unfold decodeJump; split <;> simp [Instr.row]

theorem OperandUse.decodeFields (cat sub : BitVec 3) (w : Width) : OperandUse (decodeFields cat sub w) := by
  match cat with
  | 1 => exact .bitwise sub w
  | 2 => exact .stack sub w
  | 4 => exact .move sub w
  | 5 => exact .arithmetic sub w
  | 6 => exact .jump sub w
  | 0 | 3 | 7 => exact .const .nop

/-- For every opcode byte the decoder is a function of the two fields and the immediate that uses them as its row says. -/
theorem decodeParts_operandUse (op : Byte) :
    ∃ f, OperandUse f ∧ ∀ x imm, decodeParts op x imm = f (fieldA x) (fieldB x) imm := by
  by_cases ho : hasOperand op = true
  · exact ⟨_, .decodeFields _ _ _, fun x imm => decodeParts_of_hasOperand x imm ho⟩
  · exact ⟨_, .const (decodeParts op 0 0), fun x imm => decodeParts_of_not_hasOperand x imm ho⟩

/-- The table over the 256 opcode bytes: one covering row has the largest mask, and it is the decoded one. -/
theorem covering_row_of_opcode : ∀ op : Byte, ∃ r ∈ opcodeTable, r.covers op = true ∧ r.row = (decodeParts op 0 0).row
    ∧ ∀ q ∈ opcodeTable, q.covers op = true → q ≠ r → q.weight < r.weight := by
  decide +kernel

/-- Settles O4: the row is fixed by the opcode byte alone (`OperandUse.row`), and over the opcode bytes the table is finite. -/
theorem decoderFollowsTable : Obligations.DecoderFollowsTable := by
  intro op operand imm
  obtain ⟨f, huse, hf⟩ := decodeParts_operandUse op
  have hrow : (decodeParts op operand imm).row = (decodeParts op 0 0).row := by rw [hf, hf]; exact huse.row ..
  rw [hrow]
  exact covering_row_of_opcode op

/-- Settles O5: each category's decoder drops the fields that its row ignores (`OperandUse`). -/
theorem ignoredFieldsHaveNoEffect : Obligations.IgnoredFieldsHaveNoEffect := by
  intro op x y imm
  obtain ⟨f, huse, hf⟩ := decodeParts_operandUse op
  rw [hf, hf]
  refine ⟨fun hrow hA => ?_, huse.operand _ _ _ _ _⟩
  have hfield : fieldA x = fieldA y := congrArg RegField.ofCode hA
  rw [← hfield]
  exact huse.fieldB _ _ _ _ hrow

end Sys2Proof

/-! # The encoder (30_encoding R130): the fields of what it writes, and decoding it back -/

namespace Sys2Proof

/-! ## The opcode byte -/

theorem toNat_code_lt (w : Width) : w.code.toNat < 4 := w.code.isLt

/-- The halt sentinel is in a category without an operand byte. -/
theorem hasOperand_eq_catField (op : Byte) : hasOperand op = (catField op != 0 && catField op != 3 && catField op != 7) := by
  by_cases hh : isHalt op = true
  · rw [isHalt_hasOperand hh, beq_iff_eq.mp hh]
    rfl
  · simp [hasOperand, hh]

section
variable {base : Byte} (hbase : base.toNat % 4 = 0) (w : Width)
include hbase

theorem toNat_opByte : (opByte base w).toNat = base.toNat + w.code.toNat := by
  have hcode := toNat_code_lt w
  have hlt := base.isLt
  rw [opByte, BitVec.toNat_add, BitVec.toNat_setWidth]
  omega

theorem catField_opByte : catField (opByte base w) = catField base := by
  have hcode := toNat_code_lt w
  rw [catField_eq_iff, toNat_catField, toNat_opByte hbase]
  omega

theorem subField_opByte : subField (opByte base w) = subField base := by
  have hcode := toNat_code_lt w
  rw [subField_eq_iff, toNat_subField, toNat_opByte hbase]
  omega

theorem widthField_opByte : widthField (opByte base w) = w := by
  have hcode : (opByte base w).extractLsb' 0 2 = w.code := by
    apply BitVec.eq_of_toNat_eq
    have hlt := toNat_code_lt w
    rw [BitVec.extractLsb'_toNat, toNat_opByte hbase]
    omega
  rw [widthField, hcode]
  cases w <;> rfl

theorem hasImmediate_opByte : hasImmediate (opByte base w) = hasImmediate base := by
  rw [hasImmediate, hasImmediate, catField_opByte hbase, subField_opByte hbase]

theorem hasOperand_opByte : hasOperand (opByte base w) = hasOperand base := by
  rw [hasOperand_eq_catField, hasOperand_eq_catField, catField_opByte hbase]

end

/-! ## The operand byte and the immediate -/

theorem RegField.ofCode_code (a : RegField) : RegField.ofCode a.code = a := by
  rcases a with _ | r
  · rfl
  · cases r <;> rfl

theorem fieldA_operandByte (a : RegField) (b : BitVec 4) : fieldA (operandByte a.code b) = a := by
  rw [fieldA, operandByte, BitVec.extractLsb'_append_eq_left, RegField.ofCode_code]

theorem fieldB_operandByte (a : BitVec 4) (b : RegField) : fieldB (operandByte a b.code) = b := by
  rw [fieldB, operandByte, BitVec.extractLsb'_append_eq_right, RegField.ofCode_code]

theorem beBytes_eq_map (n : Nat) (v : Word) : beBytes n v = (List.range n).map fun k => byteOf v (n - 1 - k) := by
  induction n with
  | zero => rfl
  | succ n ih =>
    rw [beBytes, ih, List.range_succ_eq_map, List.map_cons, List.map_map]
    refine congrArg _ (List.map_congr_left fun k _ => ?_)
    rw [Function.comp_apply, Nat.succ_eq_add_one, Nat.add_sub_cancel, Nat.sub_add_eq, Nat.sub_right_comm]

theorem length_beBytes (n : Nat) (v : Word) : (beBytes n v).length = n := by
  rw [beBytes_eq_map, List.length_map, List.length_range]

open Sys2Proof.Machine in
/-- The bytes written for an immediate that fits its width spell it. -/
theorem beWord_beBytes {w : Width} {imm : Word} (h : immFits w imm = true) : beWord (beBytes w.bytes imm) = imm := by
  apply BitVec.eq_of_toNat_eq
  rw [beWord, toNat_beWord _ ((length_beBytes ..).trans_le (Width.bytes_le w)), beBytes_eq_map, beNat_byteOf]
  refine Nat.mod_eq_of_lt ((of_decide_eq_true h).trans_eq ?_)
  rw [Width.bits_eq, Nat.pow_mul]

/-! ## Decoding what a format writes -/

theorem decode_of_not_hasOperand {op : Byte} (rest : List Byte) (ho : hasOperand op = false) :
    decode (op :: rest) = .ok (decodeParts op 0 0, rest) := by
  simp [decode, ho]

theorem decode_of_hasOperand {op : Byte} (x : Byte) (rest : List Byte) (ho : hasOperand op = true)
    (hi : hasImmediate op = false) : decode (op :: x :: rest) = .ok (decodeParts op x 0, rest) := by
  simp [decode, ho, hi]

theorem decode_of_hasImmediate {op : Byte} (x : Byte) {bs : List Byte} (rest : List Byte) (hi : hasImmediate op = true)
    (hlen : bs.length = (widthField op).bytes) : decode (op :: x :: (bs ++ rest)) = .ok (decodeParts op x (beWord bs), rest) := by
  simp [decode, hasImmediate_hasOperand hi, hi, ← hlen]

section
variable {rest : List Byte} (base : Byte) (w : Width) (a b : RegField)

/-- Decoding format R: the fields are those written, and the row is that of the base byte. -/
theorem decode_formatR (hbase : base.toNat % 4 = 0) (ho : hasOperand base = true) (hi : hasImmediate base = false) :
    decode (formatR base w a.code b.code ++ rest) = .ok (decodeFields (catField base) (subField base) w a b 0, rest) := by
  have ho' : hasOperand (opByte base w) = true := (hasOperand_opByte hbase w).trans ho
  have hi' : hasImmediate (opByte base w) = false := (hasImmediate_opByte hbase w).trans hi
  refine (decode_of_hasOperand _ _ ho' hi').trans ?_
  rw [decodeParts_of_hasOperand _ _ ho', catField_opByte hbase, subField_opByte hbase, widthField_opByte hbase,
    fieldA_operandByte, fieldB_operandByte]
  rfl

/-- Decoding format I: as format R, with the immediate written; field b is written 0, which is the index of RM0. -/
theorem decode_formatI {imm : Word} (hfit : immFits w imm = true) (hbase : base.toNat % 4 = 0)
    (hi : hasImmediate base = true) :
    decode (formatI base w a.code imm ++ rest)
      = .ok (decodeFields (catField base) (subField base) w a (some .rm0) imm, rest) := by
  have hi' : hasImmediate (opByte base w) = true := (hasImmediate_opByte hbase w).trans hi
  have hlen : (beBytes w.bytes imm).length = (widthField (opByte base w)).bytes := by
    rw [length_beBytes, widthField_opByte hbase]
  refine (decode_of_hasImmediate (operandByte a.code 0) rest hi' hlen).trans ?_
  rw [beWord_beBytes hfit, decodeParts_of_hasOperand _ _ (hasImmediate_hasOperand hi'), catField_opByte hbase,
    subField_opByte hbase, widthField_opByte hbase, fieldA_operandByte, show (0 : BitVec 4) = RegField.code (some .rm0) from rfl,
    fieldB_operandByte]

end

/-- A form of one byte is its opcode byte. -/
theorem decode_byte {op : Byte} {rest : List Byte} {i : Instr} (ho : hasOperand op = false) (hi : decodeParts op 0 0 = i) :
    decode ([op] ++ rest) = .ok (i, rest) :=
  hi ▸ decode_of_not_hasOperand rest ho

/-- The reserved category's bytes (R122) are one-byte forms, but for 0xFF. -/
theorem decode_reservedCat7 {sub : BitVec 3} {w : Width} {rest : List Byte} (h : (Instr.reservedCat7 sub w).notHaltByte = true) :
    decode (encode (.reservedCat7 sub w) ++ rest) = .ok (.reservedCat7 sub w, rest) := by
  have hparts : ∀ sub, (Instr.reservedCat7 sub w).notHaltByte = true →
      hasOperand (opByte (0xE0 + (sub.setWidth 8 <<< 2)) w) = false
        ∧ decodeParts (opByte (0xE0 + (sub.setWidth 8 <<< 2)) w) 0 0 = .reservedCat7 sub w := by
    cases w <;> decide
  obtain ⟨ho, hi⟩ := hparts sub h
  exact decode_byte ho hi

theorem decode_inc (r : Reg) (rest : List Byte) : decode (encode (.inc (some r)) ++ rest) = .ok (.inc (some r), rest) := by
  cases r <;> rfl

theorem decode_dec (r : Reg) (rest : List Byte) : decode (encode (.dec (some r)) ++ rest) = .ok (.dec (some r), rest) := by
  cases r <;> rfl

/-- Settles O1: each row's format decodes to the row of its base byte (`decode_formatR`, `decode_formatI`). A reserved row writes
0, the index of RM0, in both fields; index 15 in a short form and 0xFF in the reserved category are what `wellFormed` rules out. -/
theorem encodeThenDecode : Obligations.EncodeThenDecode := by
  intro i rest hwf
  simp only [Instr.wellFormed, Bool.and_eq_true, Bool.not_eq_true'] at hwf
  obtain ⟨⟨hreg, himm⟩, hhalt⟩ := hwf
  cases i with
  | nop | halt | reservedInc15 | reservedDec15 => exact decode_byte rfl rfl
  | inc r =>
    obtain _ | r := r
    · cases hreg
    · exact decode_inc r rest
  | dec r =>
    obtain _ | r := r
    · cases hreg
    · exact decode_dec r rest
  | bitNot w a | pushs w a | pops w a | jmpR w a => exact decode_formatR _ w a (some .rm0) rfl rfl rfl
  | bitAnd w a b | bitOr w a b | bitXor w a b | push w a b | pop w a b | movRR w a b | movRM w a b | movMR w a b | movMM w a b
  | add w a b | sub w a b | mul w a b | div w a b | mod w a b | jzR w a b | jnzR w a b =>
    exact decode_formatR _ w a b rfl rfl rfl
  | movRI w a imm | movMI w a imm | movRA w a imm | movAR w a imm | jzI w a imm | jnzI w a imm =>
    exact decode_formatI _ w a himm rfl rfl
  | jmpI w imm => exact decode_formatI _ w (some .rm0) himm rfl rfl
  | reservedBitwise sub w | reservedStack sub w =>
    match sub with
    | 0 | 1 | 2 | 3 => exact decode_formatR _ w (some .rm0) (some .rm0) rfl rfl rfl
  | reservedArithB4 w => exact decode_formatR _ w (some .rm0) (some .rm0) rfl rfl rfl
  | reservedArithB8 sub w | reservedJump sub w =>
    match sub with
    | 0 | 1 => exact decode_formatR _ w (some .rm0) (some .rm0) rfl rfl rfl
  | reservedCat7 sub w => exact decode_reservedCat7 hhalt

end Sys2Proof

/-! # What the fetch of a step leaves (40 R141, R145, R146; 20_memory R63): the registers on entry and the command device's latch -/

namespace Sys2Proof.Machine

/-- Of the devices of `s` only the latch under `id` may differ in `t`, and it holds `latch` there. -/
structure OnlyLatch (s t : State) (id : Nat) (latch : Bool) : Prop where
  byteAt : ∀ j x, t.byteAt j x = s.byteAt j x
  parameters : ∀ j, t.kindAt j = s.kindAt j ∧ t.capAt j = s.capAt j
  faultAt_of_ne : ∀ j, j ≠ id → t.faultAt j = s.faultAt j
  faultAt : t.faultAt id = some latch

/-- A device put back with its latch changed differs in the latch alone. -/
theorem State.onlyLatch_putDevice {s : State} {id : Nat} {d : Device} (hd : s.device id = some d) (f : Bool) :
    OnlyLatch s (s.putDevice id (d.faulted f)) id (d.fault || f) := by
  have hput : ∀ j, (s.putDevice id (d.faulted f)).device j = if j = id then some (d.faulted f) else s.device j := fun j => by
    rw [State.putDevice_device, hd, Option.map_some]
  refine ⟨fun j x => State.byteAt_putDevice hd rfl fun _ => rfl, fun j => ?_, fun j hj => ?_, ?_⟩
  · rw [State.kindAt, State.capAt, hput]
    by_cases hj : j = id
    · rw [if_pos hj, State.kindAt, State.capAt, hj, hd]
      exact ⟨rfl, rfl⟩
    · rw [if_neg hj]
      exact ⟨rfl, rfl⟩
  · rw [State.faultAt, hput, if_neg hj, State.faultAt]
  · rw [State.faultAt, hput, if_pos rfl]
    rfl

/-- The fetch of a step, observed: the instruction at RIP; the registers on entry; the command device's latch. -/
theorem State.fetch_observed {s t : State} {i : Instr} {c : Device} (h : s.fetch = .ok (i, t))
    (hc : s.device s.cmdId = some c) :
    i = instrAt c (s.get .rip) ∧ (∀ r, t.get r = (s.entered i).get r) ∧ t.cfg = s.cfg
      ∧ OnlyLatch s t s.cmdId (c.fault || fetchFaults c (s.get .rip)) := by
  obtain ⟨cmd, hcmd, -, hi, rfl⟩ := State.fetch_ok h
  obtain rfl : cmd = c := Option.some.inj (hcmd.symm.trans hc)
  obtain ⟨hbyte, hparam, hne, hfault⟩ := State.onlyLatch_putDevice hc (fetchFaults cmd (s.get .rip))
  exact ⟨hi, fun r => rfl, rfl, hbyte, hparam, hne, hfault⟩

/-- Settles O9: the state after the fetch has the registers of the entered state. -/
theorem fetchBookkeeping : Obligations.FetchBookkeeping := by
  intro s t i h
  obtain ⟨c, hc, -, -, -⟩ := State.fetch_ok h
  obtain ⟨-, hget, hcfg, hlatch⟩ := State.fetch_observed h hc
  obtain ⟨hregs, -, -⟩ := s.onlyRegs_entered i
  refine ⟨(hget .rtx).trans (s.entered_rtx i), (hget .rip).trans (s.entered_rip i), fun r hrtx hrip => ?_, hcfg, hlatch.byteAt⟩
  rw [hget, hregs r (by simp [hrtx, hrip])]

/-- A step that can fetch runs the fetched instruction. -/
theorem step_of_fetch {s t : State} {i : Instr} (h : s.fetch = .ok (i, t)) : step s = exec i t := by
  rw [step, h]

theorem State.getD_byteAt {s : State} {id : Nat} {d : Device} (hd : s.device id = some d) (x : Nat) :
    (s.byteAt id x).getD 0x00 = d.lane x := by
  rw [State.byteAt_of_device hd, Device.lane]
  split <;> rfl

/-- The ten bytes the fetches can reach decode to the instruction at RIP, at any RIP. -/
theorem State.decode_fetchBytes {s : State} {c : Device} (hc : s.device s.cmdId = some c) :
    ∃ rest, decode s.fetchBytes = .ok (instrAt c (s.get .rip), rest) := by
  have hlen : s.fetchBytes.length = 10 := by simp [State.fetchBytes]
  obtain ⟨i, rest, h⟩ := decode_total hlen.ge
  obtain ⟨hi, -, -⟩ := decode_instrAt_fetched h fun k hk => by
    rw [State.fetchBytes, List.getElem?_map, List.getElem?_range (hlen ▸ hk), Option.map_some, State.getD_byteAt hc]
  exact ⟨rest, hi ▸ h⟩

/-- Settles O8: the bytes the fetches reach decode to the instruction at RIP, and `State.fetch_observed` says the rest. -/
theorem fetchReadsZeroOutside : Obligations.FetchReadsZeroOutside := by
  intro s c hmapped hc
  obtain ⟨c', d, hc', hd⟩ := State.mapped_iff.mp hmapped
  have hfetch := State.fetch_of_mapped hc' hd
  obtain ⟨hi, hget, hcfg, hbyte, hparam, hne, hfault⟩ := State.fetch_observed hfetch hc
  obtain ⟨rest, hdec⟩ := State.decode_fetchBytes hc
  refine ⟨_, rest, _, hi ▸ hdec, step_of_fetch hfetch, hget, hcfg, hbyte, hparam, hne, ?_⟩
  rw [hfault, fetchFaults_eq_any, hi]

/-- Settles O7: `step_of_decode`. -/
theorem stepRunsDecodedInstruction : Obligations.StepRunsDecodedInstruction :=
  fun _ _ _ hwf hmapped hdec hbytes => (step_of_decode hwf hmapped hdec hbytes).1

/-- Settles O11: the fetch looks RDC's device up first, then RDR's. -/
theorem unmappedStepFaults : Obligations.UnmappedStepFaults := by
  intro s
  refine ⟨fun hc => ?_, fun d hc hd => ?_⟩
  · simp only [step, State.fetch, hc]
  · simp only [step, State.fetch, hc, hd]

end Sys2Proof.Machine

/-! # The first step: after reset (70_reset R292), and on the host's load (logs 3 and 8) -/

namespace Sys2Proof.Machine

/-- From address 0 the bytes the fetches reach are one after another. -/
theorem State.fetchBytes_of_rip_zero {s : State} (h : s.get .rip = 0) : s.fetchBytes = s.lanes s.cmdId 0 10 := by
  refine List.map_congr_left fun k _ => ?_
  have haddr : fetchAddr 0 k = 0 + k := fetchAddr_of_lt (by simp)
  rw [h, haddr]

/-- The entry point, of any state whose registers are all zero. -/
theorem entryPoint_of_get_zero {s : State} (hzero : ∀ r, s.get r = 0) :
    (s.get .rip).toNat = 0 ∧ s.cmdId = 0 ∧ s.datId = 0
      ∧ ∀ d, s.device 0 = some d →
          ∃ i rest t, decode (s.lanes 0 0 10) = .ok (i, rest) ∧ step s = exec i t ∧ t.datId = 0
            ∧ t.get .rip = BitVec.ofNat 64 i.advance ∧ t.get .rtx = 1 := by
  have hcmd : s.cmdId = 0 := congrArg BitVec.toNat (hzero .rdc)
  have hdat : s.datId = 0 := congrArg BitVec.toNat (hzero .rdr)
  refine ⟨congrArg BitVec.toNat (hzero .rip), hcmd, hdat, fun d hd => ?_⟩
  have hc : s.device s.cmdId = some d := hcmd ▸ hd
  have hfetch := State.fetch_of_mapped hc (hdat ▸ hd)
  obtain ⟨-, hget, -, -⟩ := State.fetch_observed hfetch hc
  obtain ⟨rest, hdec⟩ := State.decode_fetchBytes hc
  rw [State.fetchBytes_of_rip_zero (hzero .rip), hcmd] at hdec
  refine ⟨_, rest, _, hdec, step_of_fetch hfetch, (State.fetch_datId hfetch).trans hdat, ?_, ?_⟩
  · rw [hget, State.entered_rip, hzero, zero_add]
  · rw [hget, State.entered_rtx, hzero, zero_add]

/-- Settles O51: both resets leave every register zero. -/
theorem resetEntryPoint : Obligations.ResetEntryPoint := by
  rintro s (⟨cfg, m, rfl⟩ | ⟨u, rfl⟩)
  · exact entryPoint_of_get_zero fun r => State.construct_get r cfg m
  · exact entryPoint_of_get_zero u.bulkReset_get

/-- Installing a missing device leaves every installed one, and puts the load's target under the id. -/
theorem State.ensureDevice_device (s : State) (id j : Nat) :
    (s.ensureDevice id).device j = if j = id then some (s.loadTarget id) else s.device j := by
  unfold State.ensureDevice State.loadTarget
  split
  · next d hd =>
    split
    · next hj => rw [hj, hd, Option.getD_some]
    · rfl
  · next hd => rw [State.device, DeviceMap.find_insert, hd, Option.getD_none, State.device]

@[simp] theorem State.ensureDevice_get (s : State) (id : Nat) (r : Reg) : (s.ensureDevice id).get r = s.get r := by
  unfold State.ensureDevice
  split <;> rfl

/-- The registers after the host's load are those before it. -/
@[simp] theorem State.withCode_get (s : State) (bs : List Byte) (r : Reg) : (s.withCode bs).get r = s.get r :=
  State.ensureDevice_get ..

theorem State.withCode_cmdId (s : State) (bs : List Byte) : (s.withCode bs).cmdId = s.cmdId :=
  congrArg BitVec.toNat (s.withCode_get bs .rdc)

theorem State.withCode_datId (s : State) (bs : List Byte) : (s.withCode bs).datId = s.datId :=
  congrArg BitVec.toNat (s.withCode_get bs .rdr)

/-- The host's load puts the bytes in the device under RDC. -/
theorem State.withCode_device_cmdId (s : State) (bs : List Byte) :
    (s.withCode bs).device s.cmdId = some ((s.loadTarget s.cmdId).withBytes (s.get .rip).toNat bs) := by
  have hfind : ∀ d : Device, ({ s with devices := s.devices.insert s.cmdId d } : State).device s.cmdId = some d := fun d =>
    (DeviceMap.find_insert ..).trans (if_pos rfl)
  refine (State.ensureDevice_device ..).trans ?_
  split
  · next hid => rw [State.loadTarget, ← hid, hfind, Option.getD_some]
  · exact hfind _

/-- After the host's load there is a device under RDR as well. -/
theorem State.withCode_device_datId (s : State) (bs : List Byte) : ∃ d, (s.withCode bs).device s.datId = some d :=
  ⟨_, (State.ensureDevice_device ..).trans (if_pos rfl)⟩

theorem State.loadTarget_wf {s : State} (hwf : s.wf = true) (id : Nat) : (s.loadTarget id).wf = true := by
  unfold State.loadTarget
  cases hd : s.device id with
  | none => exact Device.ofCapacity_wf (by decide)
  | some d => exact State.device_wf hwf hd

/-- Loaded bytes are backed and read back. -/
theorem Device.lane_withBytes {d : Device} (hwf : d.wf = true) (addr : Nat) {bs : List Byte} {k : Nat} (hk : k < bs.length) :
    (d.withBytes addr bs).lane (addr + k) = bs[k] := by
  have hcap : addr + k < max d.cap (addr + bs.length) := lt_max_of_lt_right (by omega)
  rw [Device.lane_of_lt hcap, Device.withBytes, Memory.read_load (Device.wf_store hwf), dif_pos ⟨by omega, by omega⟩]
  simp only [Nat.add_sub_cancel_left]

theorem decode_tableBytes {nbits w : Nat} {i : Instr} (h : decodeTableWord nbits w = some i) :
    ∃ rest, decode (tableBytes nbits w) = .ok (i, rest) := by
  unfold decodeTableWord at h
  split at h
  · next j rest hdec => exact ⟨rest, Option.some.inj h ▸ hdec⟩
  · cases h

/-- The step after a load runs what the loaded bytes decode to: they are backed and do not wrap. -/
theorem step_withCode {s : State} {bs rest : List Byte} {i : Instr} (hwf : s.wf = true)
    (hrip : (s.get .rip).toNat + bs.length < 2 ^ 64) (hdec : decode bs = .ok (i, rest)) :
    step (s.withCode bs) = exec i ((s.withCode bs).entered i) := by
  obtain ⟨d, hd⟩ := s.withCode_device_datId bs
  have hc := s.withCode_device_cmdId bs
  generalize hcode : (s.loadTarget s.cmdId).withBytes (s.get .rip).toNat bs = c at hc
  have hcap : (s.get .rip).toNat + bs.length ≤ c.cap := hcode ▸ le_max_right ..
  obtain ⟨hi, hsplit, -⟩ := decode_instrAt (c := c) (rip := s.get .rip) hdec
    (fun k hk => by rw [← hcode, Device.lane_withBytes (State.loadTarget_wf hwf _) _ hk, List.getElem?_eq_getElem hk])
    (fun k hk _ => by omega)
  have hbacked : fetchFaults c (s.get .rip) = false := by
    rw [fetchFaults_eq_outside (.inl (by rw [hi]; omega)), hi]
    exact decide_eq_false (by omega)
  rw [← s.withCode_get bs .rip] at hi hbacked
  rw [step_eq_exec_entered (State.withCode_cmdId s bs ▸ hc) (State.withCode_datId s bs ▸ hd) hbacked, hi]

/-- Settles O54: a word's bytes are loaded like any others (`step_withCode`). -/
theorem fetchWordRunsNext : Obligations.FetchWordRunsNext := by
  intro s nbits w i hwf hrip h
  obtain ⟨rest, hdec⟩ := decode_tableBytes h
  have hlen : (tableBytes nbits w).length = 10 := by simp [tableBytes]
  exact step_withCode hwf (hlen ▸ hrip) hdec

end Sys2Proof.Machine

/-! # Runs of steps that do nothing but count: NOP (40 R150), HALT again and again (R152), and off the end of the device (R156) -/

namespace Sys2Proof.Machine

/-- Settles O21: NOP's effect is none, and category 000 has no operand byte. -/
theorem nopDoesNothing : Obligations.NopDoesNothing := by
  refine ⟨fun s => ⟨s, rfl, OnlyRegs.refl s⟩, fun s op _ hmapped hop hlt => ?_⟩
  have hcat : op.toNat / 32 = 0 := Nat.div_eq_of_lt hlt
  have hnop : decodeParts op 0 0 = .nop := decodeParts_of_catField_zero 0 0 ((catField_eq_iff op 0).mpr hcat)
  have hstep := step_of_not_hasOperand hmapped hop fun ho => by
    obtain ⟨-, h0, -, -⟩ := (hasOperand_iff op).mp ho
    exact h0 hcat
  rw [hnop] at hstep
  exact ⟨s.entered .nop, hstep, s.onlyRegs_entered .nop, s.entered_rtx .nop, s.entered_rip .nop⟩

/-- Changes of registers alone leave every byte. -/
theorem OnlyRegs.byteAt {s t : State} {rs : List Reg} (h : OnlyRegs s t rs) (id x : Nat) : t.byteAt id x = s.byteAt id x := by
  obtain ⟨-, hdevices, -⟩ := h
  rw [State.byteAt, State.device, hdevices, State.byteAt, State.device]

/-- A larger list of registers says less. -/
theorem OnlyRegs.mono {s t : State} {rs qs : List Reg} (h : OnlyRegs s t rs) (hsub : rs ⊆ qs) : OnlyRegs s t qs := by
  obtain ⟨hregs, hrest⟩ := h
  exact ⟨fun r hr => hregs r fun hmem => hr (hsub hmem), hrest⟩

/-- With the selectors as they were, the same devices are installed under them. -/
theorem OnlyRegs.selected {s t : State} {rs : List Reg} (h : OnlyRegs s t rs) (hrdc : Reg.rdc ∉ rs) (hrdr : Reg.rdr ∉ rs) :
    t.cmdId = s.cmdId ∧ t.mapped = s.mapped := by
  obtain ⟨hregs, hdevices, -⟩ := h
  have hcmd : t.cmdId = s.cmdId := congrArg BitVec.toNat (hregs .rdc hrdc)
  have hdat : t.datId = s.datId := congrArg BitVec.toNat (hregs .rdr hrdr)
  refine ⟨hcmd, ?_⟩
  rw [State.mapped, hcmd, hdat, State.device, State.device, hdevices]
  rfl

/-- A flag set twice is set, and the others are as before the first time. -/
theorem OnlyFlag.trans {s t u : State} {k : Nat} {f g : Bool} (h : OnlyFlag s t k f) (h' : OnlyFlag t u k g) : OnlyFlag s u k g :=
  ⟨h'.1, fun j hj => (h'.2 j hj).trans (h.2 j hj)⟩

theorem ofNat_succ_word (k : Nat) : BitVec.ofNat 64 (k + 1) = 1 + BitVec.ofNat 64 k := by
  rw [Nat.add_comm, BitVec.ofNat_add]
  rfl

/-- Settles O23, by induction on the number of steps: a step on the halt sentinel (O22) leaves RIP and every byte, so the sentinel
is there for the next one. -/
theorem haltIsFixedPoint : Obligations.HaltIsFixedPoint := by
  intro s k hwf hmapped hop hk
  obtain ⟨k, rfl⟩ := Nat.exists_eq_add_one_of_ne_zero hk.ne'
  clear hk
  induction k generalizing s with
  | zero =>
    obtain ⟨t, hstep, hregs, hflag, hrtx, -⟩ := haltSetsCompleted.2 s hwf hmapped hop
    exact ⟨t, core_run_succ hstep, hregs, hflag, hrtx⟩
  | succ k ih =>
    obtain ⟨t, hstep, hregs, hflag, hrtx, hrip⟩ := haltSetsCompleted.2 s hwf hmapped hop
    obtain ⟨hcmd, hsel⟩ := hregs.selected (by decide) (by decide)
    obtain ⟨u, hrun, uregs, uflag, urtx⟩ := ih t (stepKeepsWellFormed s t hwf hstep) (hsel.trans hmapped)
      (by rw [hregs.byteAt, hcmd, hrip, hop])
    refine ⟨u, (core_run_succ hstep).trans hrun, (hregs.trans uregs).mono (by decide), hflag.trans uflag, ?_⟩
    rw [urtx, hrtx, ofNat_succ_word (k + 1), BitVec.add_assoc]

/-- `k` steps off the end of the command device: RIP and RTX have moved on by `k`, and nothing else has changed but the command
device's latch, which is set. -/
structure RanOff (s t : State) (k : Nat) : Prop where
  rip : t.get .rip = s.get .rip + BitVec.ofNat 64 k
  rtx : t.get .rtx = s.get .rtx + BitVec.ofNat 64 k
  get : ∀ r, r ≠ .rip → r ≠ .rtx → t.get r = s.get r
  cfg : t.cfg = s.cfg
  latch : OnlyLatch s t s.cmdId true

section
variable {s t u : State} {m n : Nat}

theorem RanOff.cmdId (h : RanOff s t m) : t.cmdId = s.cmdId :=
  congrArg BitVec.toNat (h.get .rdc nofun nofun)

theorem RanOff.datId (h : RanOff s t m) : t.datId = s.datId :=
  congrArg BitVec.toNat (h.get .rdr nofun nofun)

theorem OnlyLatch.trans {id : Nat} {f g : Bool} (h : OnlyLatch s t id f) (h' : OnlyLatch t u id g) : OnlyLatch s u id g where
  byteAt j x := (h'.byteAt j x).trans (h.byteAt j x)
  parameters j := ⟨(h'.parameters j).1.trans (h.parameters j).1, (h'.parameters j).2.trans (h.parameters j).2⟩
  faultAt_of_ne j hj := (h'.faultAt_of_ne j hj).trans (h.faultAt_of_ne j hj)
  faultAt := h'.faultAt

theorem RanOff.trans (h : RanOff s t m) (h' : RanOff t u n) : RanOff s u (m + n) where
  rip := by rw [h'.rip, h.rip, BitVec.ofNat_add, BitVec.add_assoc]
  rtx := by rw [h'.rtx, h.rtx, BitVec.ofNat_add, BitVec.add_assoc]
  get r hrip hrtx := (h'.get r hrip hrtx).trans (h.get r hrip hrtx)
  cfg := h'.cfg.trans h.cfg
  latch := h.latch.trans (h.cmdId ▸ h'.latch)

/-- One step off the end: the opcode byte reads 0x00, which is NOP, and latches (20_memory R63). -/
theorem step_ranOff {c : Nat} (hmapped : s.mapped = true) (hcap : s.capAt s.cmdId = some c) (hoff : c ≤ (s.get .rip).toNat) :
    ∃ t, step s = .next t ∧ RanOff s t 1 := by
  obtain ⟨dev, d, hdev, hd⟩ := State.mapped_iff.mp hmapped
  obtain rfl : dev.cap = c := by simpa [State.capAt, hdev] using hcap
  have hop : opAt dev (s.get .rip) = 0 := if_neg (Nat.not_lt.mpr hoff)
  have hnop : instrAt dev (s.get .rip) = .nop := by
    rw [instrAt, hop]
    exact decodeParts_of_catField_zero _ _ rfl
  have hfault : fetchFaults dev (s.get .rip) = true := by
    have h1 : fetchOutside dev (s.get .rip) 1 = true := decide_eq_true (Nat.lt_succ_of_le hoff)
    rw [fetchFaults, h1, Bool.true_or, Bool.true_or]
  have hfetch := State.fetch_of_mapped hdev hd
  obtain ⟨-, hget, hcfg, hlatch⟩ := State.fetch_observed hfetch hdev
  obtain ⟨hregs, -, -⟩ := s.onlyRegs_entered .nop
  rw [hnop, hfault] at hfetch hget hcfg hlatch
  rw [Bool.or_true] at hlatch
  refine ⟨_, step_of_fetch hfetch, (hget _).trans (s.entered_rip .nop), (hget _).trans (s.entered_rtx .nop),
    fun r hrip hrtx => ?_, hcfg, hlatch⟩
  rw [hget, hregs r (by simp [hrip, hrtx])]

/-- As RIP does not wrap, it stays past the end. -/
theorem run_ranOff {c k : Nat} (hmapped : s.mapped = true) (hcap : s.capAt s.cmdId = some c) (hoff : c ≤ (s.get .rip).toNat)
    (hwrap : (s.get .rip).toNat + (k + 1) ≤ 2 ^ 64) :
    ∃ t, Sys2Proof.core.run (k + 1) s = .next t ∧ RanOff s t (k + 1) := by
  induction k generalizing s with
  | zero =>
    obtain ⟨t, hstep, hran⟩ := step_ranOff hmapped hcap hoff
    exact ⟨t, core_run_succ hstep, hran⟩
  | succ k ih =>
    obtain ⟨t, hstep, hran⟩ := step_ranOff hmapped hcap hoff
    have hrip : (t.get .rip).toNat = (s.get .rip).toNat + 1 := by
      rw [hran.rip, Word.toNat_add_of_lt _ 1 (by omega)]
    have hmapped' : t.mapped = true := by
      rw [State.mapped, hran.cmdId, hran.datId, step_isSome_device hstep, step_isSome_device hstep]
      exact hmapped
    have hcap' : t.capAt t.cmdId = some c := by rw [hran.cmdId, (hran.latch.parameters _).2, hcap]
    obtain ⟨u, hrun, hran'⟩ := ih hmapped' hcap' (by omega) (by omega)
    exact ⟨u, (core_run_succ hstep).trans hrun, Nat.add_comm 1 (k + 1) ▸ hran.trans hran'⟩

end

/-- Settles O24: `run_ranOff`. -/
theorem runsOffAsNops : Obligations.RunsOffAsNops := by
  intro s c k hmapped hcap hoff hwrap hk
  obtain ⟨k, rfl⟩ := Nat.exists_eq_add_one_of_ne_zero hk.ne'
  obtain ⟨t, hrun, h⟩ := run_ranOff hmapped hcap hoff hwrap
  exact ⟨t, hrun, h.rip, h.rtx, h.get, h.latch.faultAt, h.latch.faultAt_of_ne, h.latch.byteAt, h.latch.parameters, h.cfg⟩

end Sys2Proof.Machine

/-! # Raising (60_exceptions R261, R262): reserved rows, index 15 in a used field, and a zero divisor all do nothing but
latch Interrupt -/

namespace Sys2Proof.Machine

section
variable {i : Instr} {s : State}

theorem exec_of_reserved (h : i.reserved = true) : exec i s = .next s.raise := by
  cases i with
  | reservedBitwise | reservedStack | reservedArithB4 | reservedArithB8 | reservedJump | reservedCat7 | reservedInc15
  | reservedDec15 => rfl
  | _ => cases h

theorem exec_of_badReg (h : i.badReg = true) : exec i s = .next s.raise := by
  cases i with
  | bitNot w a | pushs w a | pops w a | movRI w a imm | movMI w a imm | movRA w a imm | movAR w a imm | jmpR w a | jzI w a imm
  | jnzI w a imm | inc a | dec a =>
    cases a with
    | none => rfl
    | some a => cases h
  | bitAnd w a b | bitOr w a b | bitXor w a b | push w a b | pop w a b | movRR w a b | movRM w a b | movMR w a b | movMM w a b
  | add w a b | sub w a b | mul w a b | div w a b | mod w a b | jzR w a b | jnzR w a b =>
    cases a with
    | none => rfl
    | some a =>
      cases b with
      | none => rfl
      | some b => cases h
  | _ => cases h

theorem dividingOp_of_zero {op : AluOp} {w : Width} {a b : Reg} (hop : op.divides = true) (hb : s.get b = 0) :
    dividingOp op w a b s = .next s.raise := by
  have hdz : (alu op w (s.get a) (s.get b)).dz = true := by simp [alu, hop, hb]
  rw [dividingOp, if_pos hdz, raiseDivideByZero]

theorem onRegs_dividingOp_of_zero {op : AluOp} {w : Width} {a b : RegField} (hop : op.divides = true)
    (hb : b.any (fun rb => s.get rb == 0) = true) : onRegs a b s (fun ra rb => dividingOp op w ra rb s) = .next s.raise := by
  obtain ⟨rb, rfl, hzero⟩ := (Option.any_eq_true ..).mp hb
  cases a with
  | none => rfl
  | some ra => exact dividingOp_of_zero hop (beq_iff_eq.mp hzero)

theorem exec_of_dividesByZero (h : i.dividesByZero s = true) : exec i s = .next s.raise := by
  cases i with
  | div w a b | mod w a b => exact onRegs_dividingOp_of_zero rfl h
  | _ => cases h

theorem exec_of_raises (h : i.raises s = true) : exec i s = .next s.raise := by
  simp only [Instr.raises, Bool.or_eq_true] at h
  rcases h with (h | h) | h
  · exact exec_of_reserved h
  · exact exec_of_badReg h
  · exact exec_of_dividesByZero h

end

/-- Settles O25: `exec_of_reserved`. -/
theorem reservedRowsLatch : Obligations.ReservedRowsLatch :=
  fun _ s h => ⟨s.raise, exec_of_reserved h, s.onlyFlag_raise⟩

/-- Settles O26: `exec_of_badReg`. -/
theorem indexFifteenLatches : Obligations.IndexFifteenLatches :=
  fun _ s h => ⟨s.raise, exec_of_badReg h, s.onlyFlag_raise⟩

/-- Settles O41: `exec_of_dividesByZero`. -/
theorem divideByZeroLatches : Obligations.DivideByZeroLatches := by
  rintro w a b s i hzero (rfl | rfl)
  case inl | inr => exact ⟨s.raise, dividingOp_of_zero rfl hzero, s.onlyFlag_raise⟩

end Sys2Proof.Machine

/-! # The registers an effect writes (10_state R23), and the bits of RPF (R31 to R36) -/

namespace Sys2Proof.Machine

/-- Settles O18: `exec_get_of_not_mem_dests`. -/
theorem registerFrame : Obligations.RegisterFrame :=
  fun _ _ _ _ h hdest hrpf => exec_get_of_not_mem_dests h hdest hrpf

section
variable {i : Instr} {s t : State}

theorem ne_none_of_not_raises (h : i.raises s = false) : ∀ a ∈ i.usedFields, a ≠ none := by
  simp only [Instr.raises, Bool.or_eq_false_iff] at h
  obtain ⟨⟨-, hreg⟩, -⟩ := h
  rintro a ha rfl
  exact Bool.false_ne_true (hreg.symm.trans (List.any_eq_true.mpr ⟨none, ha, rfl⟩))

theorem onReg_of_ne_none {a : RegField} {k : Reg → Result} (h : onReg a s k = .next t) (ha : a ≠ none) :
    ∃ r, a = some r ∧ k r = .next t := by
  obtain ⟨r, rfl⟩ := Option.ne_none_iff_exists'.mp ha
  exact ⟨r, rfl, h⟩

theorem onRegs_of_ne_none {a b : RegField} {k : Reg → Reg → Result} (h : onRegs a b s k = .next t) (ha : a ≠ none)
    (hb : b ≠ none) : ∃ r q, a = some r ∧ b = some q ∧ k r q = .next t := by
  obtain ⟨r, rfl⟩ := Option.ne_none_iff_exists'.mp ha
  obtain ⟨q, rfl⟩ := Option.ne_none_iff_exists'.mp hb
  exact ⟨r, q, rfl, rfl, h⟩

/-- An arithmetic instruction that does not raise writes its left operand and Overflow. -/
theorem exec_of_arithmetic (h : exec i s = .next t) (harith : i.arithmetic = true) (hraises : i.raises s = false) :
    ∃ op w a b, i.dests s.cfg = [a] ∧ t = arithmeticOp op w a b s := by
  have hused := ne_none_of_not_raises hraises
  cases i with
  | add w a b | sub w a b | mul w a b =>
    obtain ⟨ra, rb, rfl, rfl, h⟩ := onRegs_of_ne_none h (hused a (.head _)) (hused b (.tail _ (.head _)))
    cases h
    exact ⟨_, w, ra, rb, rfl, rfl⟩
  | div w a b | mod w a b =>
    obtain ⟨ra, rb, rfl, rfl, h⟩ := onRegs_of_ne_none h (hused a (.head _)) (hused b (.tail _ (.head _)))
    rcases dividingOp_next h with ⟨hdz, -⟩ | ⟨-, rfl⟩
    · cases hdz.symm.trans hraises
    · exact ⟨_, w, ra, rb, rfl, rfl⟩
  | _ => cases harith

/-- HALT, the arithmetic instructions and the raising ones are the only writers of RPF's flags. -/
theorem exec_get_rpf (h : exec i s = .next t) (hdest : Reg.rpf ∉ i.dests s.cfg) (hraises : i.raises s = false)
    (harith : i.arithmetic = false) (hhalt : i ≠ .halt) : t.get .rpf = s.get .rpf := by
  have hused := ne_none_of_not_raises hraises
  have one : ∀ {a}, i.usedFields = [a] → a ≠ none := fun hf => hused _ (by simp [hf])
  have two : ∀ {a b}, i.usedFields = [a, b] → a ≠ none ∧ b ≠ none := fun hf =>
    ⟨hused _ (by simp [hf]), hused _ (by simp [hf])⟩
  cases i with
  | nop => cases h; rfl
  | halt => exact absurd rfl hhalt
  | jmpI => cases h; rfl
  | bitNot =>
    obtain ⟨ra, rfl, h⟩ := onReg_of_ne_none h (one rfl)
    cases h
    exact bitwiseOp_get_of_ne (List.ne_of_not_mem_cons hdest)
  | bitAnd | bitOr | bitXor =>
    obtain ⟨ra, rb, rfl, rfl, h⟩ := onRegs_of_ne_none h (two rfl).1 (two rfl).2
    cases h
    exact bitwiseOp_get_of_ne (List.ne_of_not_mem_cons hdest)
  | movRI | inc | dec =>
    obtain ⟨ra, rfl, h⟩ := onReg_of_ne_none h (one rfl)
    cases h
    simp [List.ne_of_not_mem_cons hdest]
  | movRR =>
    obtain ⟨ra, rb, rfl, rfl, h⟩ := onRegs_of_ne_none h (two rfl).1 (two rfl).2
    cases h
    simp [List.ne_of_not_mem_cons hdest]
  | movRA =>
    obtain ⟨ra, rfl, h⟩ := onReg_of_ne_none h (one rfl)
    exact loadReg_get_of_ne h (List.ne_of_not_mem_cons hdest)
  | movRM =>
    obtain ⟨ra, rb, rfl, rfl, h⟩ := onRegs_of_ne_none h (two rfl).1 (two rfl).2
    exact loadReg_get_of_ne h (List.ne_of_not_mem_cons hdest)
  | movMI | movAR =>
    obtain ⟨ra, rfl, h⟩ := onReg_of_ne_none h (one rfl)
    exact storeValue_get h
  | movMR =>
    obtain ⟨ra, rb, rfl, rfl, h⟩ := onRegs_of_ne_none h (two rfl).1 (two rfl).2
    exact storeValue_get h
  | movMM =>
    obtain ⟨ra, rb, rfl, rfl, h⟩ := onRegs_of_ne_none h (two rfl).1 (two rfl).2
    exact execMovMM_get h
  | pushs =>
    obtain ⟨ra, rfl, h⟩ := onReg_of_ne_none h (one rfl)
    exact pushReg_get_of_ne h (List.ne_of_not_mem_cons hdest)
  | push =>
    obtain ⟨ra, rb, rfl, rfl, h⟩ := onRegs_of_ne_none h (two rfl).1 (two rfl).2
    exact pushReg_get_of_ne h (List.ne_of_not_mem_cons hdest)
  | pops =>
    obtain ⟨ra, rfl, h⟩ := onReg_of_ne_none h (one rfl)
    exact popReg_get_of_ne h (List.ne_of_not_mem_cons (List.not_mem_of_not_mem_cons hdest)) (List.ne_of_not_mem_cons hdest)
  | pop =>
    obtain ⟨ra, rb, rfl, rfl, h⟩ := onRegs_of_ne_none h (two rfl).1 (two rfl).2
    exact popReg_get_of_ne h (List.ne_of_not_mem_cons hdest) (List.ne_of_not_mem_cons (List.not_mem_of_not_mem_cons hdest))
  | jmpR =>
    obtain ⟨ra, rfl, h⟩ := onReg_of_ne_none h (one rfl)
    cases h
    rfl
  | jzI | jnzI =>
    obtain ⟨ra, rfl, h⟩ := onReg_of_ne_none h (one rfl)
    cases h
    split <;> rfl
  | jzR | jnzR =>
    obtain ⟨ra, rb, rfl, rfl, h⟩ := onRegs_of_ne_none h (two rfl).1 (two rfl).2
    cases h
    split <;> rfl
  | add | sub | mul | div | mod => cases harith
  | reservedBitwise | reservedStack | reservedArithB4 | reservedArithB8 | reservedJump | reservedCat7 | reservedInc15
  | reservedDec15 => cases hraises

end

/-- Settles O19: an instruction raises, or halts, or is arithmetic and writes Overflow alone, or leaves RPF (`exec_get_rpf`). -/
theorem rpfBits : Obligations.RpfBits := by
  intro i s t h hdest
  by_cases hraises : i.raises s = true
  · have hhalt : i ≠ .halt := by rintro rfl; cases hraises
    obtain rfl : s.raise = t := Host.Outcome.next.inj ((exec_of_raises hraises).symm.trans h)
    obtain ⟨-, hset, hkeep⟩ := s.onlyFlag_raise
    exact ⟨by simp [hset, hraises], by simp [hkeep 31, hhalt], fun _ => hkeep 1 (by decide), fun k h0 _ _ => hkeep k h0⟩
  rw [Bool.not_eq_true] at hraises
  by_cases hhalt : i = .halt
  · subst hhalt
    cases h
    obtain ⟨-, hset, hkeep⟩ := s.onlyFlag_setFlag true (show flagC < 64 by decide)
    exact ⟨by simp [hkeep 0 (by decide), hraises], hset.trans (by simp), fun _ => hkeep 1 (by decide),
      fun k _ _ h31 => hkeep k h31⟩
  by_cases harith : i.arithmetic = true
  · obtain ⟨op, w, a, b, hdests, rfl⟩ := exec_of_arithmetic h harith hraises
    have ha : a ≠ .rpf := by rintro rfl; simp [hdests] at hdest
    obtain ⟨-, -, -, hflag⟩ := arithmeticOp_spec op w a b s
    obtain ⟨-, hkeep⟩ := hflag ha
    exact ⟨by simp [hkeep 0, hraises], by simp [hkeep 31, hhalt], fun hno => by simp [hno] at harith,
      fun k _ h1 _ => hkeep k h1⟩
  · rw [Bool.not_eq_true] at harith
    have hsame : ∀ k, t.flag k = s.flag k := fun k => by
      rw [State.flag_eq, exec_get_rpf h hdest hraises harith hhalt, State.flag_eq]
    exact ⟨by simp [hsame, hraises], by simp [hsame, hhalt], fun _ => hsame 1, fun k _ _ _ => hsame k⟩

end Sys2Proof.Machine

/-! # Flags and device accesses (10_state R27, 20_memory R61 to R66) -/

namespace Sys2Proof.Machine

/-- Settles O48: `getLsbD_putFlag`. -/
theorem flagAccess : Obligations.FlagAccess := by
  intro v k f hk
  exact ⟨(getLsbD_putFlag v k k f hk).trans (if_pos rfl), fun j hj => (getLsbD_putFlag v k j f hk).trans (if_neg hj)⟩

/-- Settles O43: `Device.toNat_read` and `Device.read_eq`. -/
theorem deviceReadValue : Obligations.DeviceReadValue :=
  fun d x w => ⟨Device.toNat_read d x w, congrArg Prod.snd (Device.read_eq d x w)⟩

/-- Settles O45: both tests come before the lanes, and each answers with the latch alone. -/
theorem droppedWrites : Obligations.DroppedWrites := by
  intro d x w v h
  have hdrop : d.write x w v = d.latch := by
    rw [Device.write]
    rcases h with hconst | hgate
    · exact if_pos hconst
    · rw [if_pos hgate, ite_self]
  rw [hdrop]
  exact ⟨rfl, rfl, rfl, rfl⟩

/-- Inside the storage of a Memory, a read gives the low bytes of what was written. -/
theorem Device.toNat_read_write {d : Device} {x : Word} {w : Width} (v : Word) (hwf : d.wf = true) (hkind : d.kind = .memory)
    (hroom : x.toNat + w.bytes ≤ d.cap) : ((d.write x w v).read x w).1.toNat = v.toNat % 2 ^ w.bits := by
  have hcap : (d.write x w v).cap = d.cap := (Accessed.write d x w v).cap
  have hlanes : (List.range w.bytes).map (fun k => Memory.read (d.write x w v).store (x.toNat + k))
      = (List.range w.bytes).map fun k => byteOf v (w.bytes - 1 - k) :=
    List.map_congr_left fun k hk => Device.read_store_write_of_le v hwf hkind hroom (List.mem_range.mp hk)
  rw [Device.toNat_read_of_le (hcap ▸ hroom), hlanes, beNat_byteOf, Width.bits_eq, Nat.pow_mul]

/-- Settles O46: the value by `Device.toNat_read_write`; neither access leaves the storage. -/
theorem deviceReadsBackWrite : Obligations.DeviceReadsBackWrite := by
  intro d x w v hwf hkind hroom
  refine ⟨Device.toNat_read_write v hwf hkind hroom, ?_⟩
  obtain ⟨-, hcap, hfault, -, -, -⟩ := Device.write_spec d x w v
  have hin : decide (d.cap < x.toNat + w.bytes) = false := decide_eq_false (Nat.not_lt.mpr hroom)
  rw [Device.read_eq, hcap, Device.faulted_fault, hfault, hin, hkind]
  simp

end Sys2Proof.Machine

/-! # The moves (41_move): a sub-width write, a load, a store, and a load then a store -/

namespace Sys2Proof.Machine

section
variable {s : State} {d : Device} (w : Width) (a : Reg) (x v : Word)

theorem State.onlyRegs_set (s : State) (r : Reg) (v : Word) : OnlyRegs s (s.set r v) [r] :=
  ⟨fun q hq => by rw [State.get_set, if_neg (List.ne_of_not_mem_cons hq)], rfl, rfl⟩

/-- A sub-width write of a value replaces the low bytes by the value's. -/
theorem lowReplaced_mergeLow_toNat (old : Word) : LowReplaced w old (mergeLow w old v) v.toNat :=
  lowReplaced_mergeLow w old v _ rfl

/-- The number a load reads is the one the lanes of its device spell. -/
theorem State.toNat_read {id : Nat} (hd : s.device id = some d) :
    (d.read x w).1.toNat = beNat (s.lanes id x.toNat w.bytes) := by
  rw [Device.toNat_read, State.lanes_of_device hd]

/-- A load into a register: its low bytes are the lanes of the data device, whose latch says whether one was outside. -/
theorem loadReg_spec (hd : s.device s.datId = some d) :
    ∃ t, loadReg a x w s = .next t ∧ OnlyRegsAndLatch s t [a] (d.fault || outside d.cap x.toNat w.bytes)
      ∧ LowReplaced w (s.get a) (t.get a) (beNat (s.lanes s.datId x.toNat w.bytes)) := by
  obtain ⟨hcfg, hdevices⟩ := State.after_read hd w x s rfl
  refine ⟨_, loadThen_some hd x w _, ⟨fun r hr => ?_, hcfg, hdevices⟩, ?_⟩
  · simp [List.ne_of_not_mem_cons hr]
  · rw [State.writeLow_get, if_pos rfl, ← State.toNat_read w x hd]
    exact lowReplaced_mergeLow_toNat ..

/-- A store on the data device leaves the low bytes of the value there; the state it is made in may have its latch changed. -/
theorem stored_putDevice (hwf : s.wf = true) (hd : s.device s.datId = some d) {u : State} {f : Bool}
    (hu : ∀ j, u.device j = if j = s.datId then some (d.faulted f) else s.device j) :
    Stored s (u.putDevice s.datId ((d.faulted f).write x w (low w v))) x.toNat w v.toNat
      (storeLatch d (d.fault || f) x.toNat w.bytes) :=
  stored_low (toNat_low w v ▸ State.after_write hwf hd ⟨f, rfl⟩ w x (low w v) hu)

theorem stored_putDevice_self (hwf : s.wf = true) (hd : s.device s.datId = some d) :
    Stored s (s.putDevice s.datId (d.write x w (low w v))) x.toNat w v.toNat (storeLatch d d.fault x.toNat w.bytes) := by
  have h := stored_putDevice w x v hwf hd (u := s) (f := false) fun j => by
    rw [Device.faulted_false, ← hd]
    split
    · next hj => rw [hj]
    · rfl
  rwa [Device.faulted_false, Bool.or_false] at h

theorem storeValue_spec (hwf : s.wf = true) (hd : s.device s.datId = some d) :
    ∃ t, storeValue x w v s = .next t ∧ (∀ r, t.get r = s.get r) ∧ t.cfg = s.cfg
      ∧ Stored s t x.toNat w v.toNat (storeLatch d d.fault x.toNat w.bytes) :=
  ⟨_, storeThen_some hd x w _ _, fun _ => rfl, rfl, stored_putDevice_self w x v hwf hd⟩

end

/-- Settles O27: the low bytes of the source are what the sub-width write takes. -/
theorem moveRegister : Obligations.MoveRegister := by
  intro w a b s
  refine ⟨_, rfl, s.onlyRegs_set a _, ?_⟩
  rw [State.writeLow_get, if_pos rfl, mergeLow_low]
  exact lowReplaced_mergeLow_toNat ..

/-- Settles O28: one sub-width write. -/
theorem moveImmediate : Obligations.MoveImmediate := by
  intro w a imm s
  refine ⟨_, rfl, s.onlyRegs_set a _, ?_⟩
  rw [State.writeLow_get, if_pos rfl]
  exact lowReplaced_mergeLow_toNat ..

/-- Settles O29: `loadReg_spec` at the address of each form. -/
theorem loads : Obligations.Loads := by
  rintro w a b imm s d i x hd (⟨rfl, rfl⟩ | ⟨rfl, rfl⟩)
  · exact loadReg_spec w a (s.get b) hd
  · rw [← toNat_low]
    exact loadReg_spec w a (low w imm) hd

/-- Settles O30: `storeValue_spec` at the address and value of each form. -/
theorem stores : Obligations.Stores := by
  rintro w a b imm s d i x v hwf hd (⟨rfl, rfl, rfl⟩ | ⟨rfl, rfl, rfl⟩ | ⟨rfl, rfl, rfl⟩)
  · exact storeValue_spec w (s.get a) (s.get b) hwf hd
  · exact storeValue_spec w (s.get a) imm hwf hd
  · rw [← toNat_low]
    exact storeValue_spec w (low w imm) (s.get a) hwf hd

/-- Settles O31: the store is made in the state the load leaves, on the data device with its latch changed. -/
theorem moveMemory : Obligations.MoveMemory := by
  intro w a b s d hwf hd
  obtain ⟨t, ht⟩ := exec_next (i := .movMM w (some a) (some b)) hd
  obtain ⟨d', hd', rfl⟩ := execMovMM_next ht
  obtain rfl : d = d' := Option.some.inj (hd.symm.trans hd')
  refine ⟨_, ht, fun _ => rfl, rfl, ?_⟩
  rw [← State.toNat_read w (s.get b) hd, Device.read_eq]
  refine stored_putDevice w (s.get a) _ hwf hd fun j => ?_
  rw [State.setBus_device, State.putDevice_device, hd, Option.map_some]

end Sys2Proof.Machine

/-! # The stack (42_stack): a push, a pop, and one after the other -/

namespace Sys2Proof.Machine

section
variable {s t u : State} {d : Device} {w : Width} {a b c : Reg}

/-- Both forms of push are the shared operation on their source and pointer. -/
theorem exec_push_eq {i : Instr} (hi : i = .push w (some a) (some b) ∨ i = .pushs w (some a) ∧ b = s.cfg.fixedSp) :
    exec i s = pushReg a b w s := by
  obtain rfl | ⟨rfl, rfl⟩ := hi <;> rfl

theorem exec_pop_eq {i : Instr} (hi : i = .pop w (some a) (some b) ∨ i = .pops w (some a) ∧ b = s.cfg.fixedSp) :
    exec i s = popReg a b w s := by
  obtain rfl | ⟨rfl, rfl⟩ := hi <;> rfl

theorem toNat_widthStep (w : Width) : (widthStep w).toNat = w.bytes := by
  cases w <;> rfl

/-- After a push on a pointer other than RDR, a pop on it reads the device written and at the same address. -/
theorem popReg_after_pushReg (hpush : pushReg a b w s = .next t) (hpop : popReg c b w t = .next u) (hrdr : b ≠ .rdr)
    (hcb : c ≠ b) (hd : s.device s.datId = some d) :
    u.get b = s.get b
      ∧ u.get c = mergeLow w (s.get c) ((d.write (s.get b) w (low w (s.get a))).read (s.get b) w).1 := by
  obtain ⟨d', hd', rfl⟩ := pushReg_next hpush
  obtain rfl : d = d' := Option.some.inj (hd.symm.trans hd')
  obtain ⟨e, he, rfl⟩ := popReg_next hpop
  have hdat : ((s.putDevice s.datId (d.write (s.get b) w (low w (s.get a)))).set b (s.get b + widthStep w)).datId = s.datId := by
    simp [State.datId, Ne.symm hrdr]
  rw [hdat, State.set_device, State.putDevice_device, if_pos rfl, hd, Option.map_some, Option.some.injEq] at he
  subst he
  simp [hcb, Ne.symm hcb]

end

/-- Settles O32: the store is `stored_putDevice_self`, at the pointer before it moves. -/
theorem pushWritesThenIncrements : Obligations.PushWritesThenIncrements := by
  intro w a b s d i hwf hd hi
  rw [exec_push_eq hi, pushReg, storeThen_some hd]
  refine ⟨_, rfl, fun r hr => ?_, rfl, ?_, stored_putDevice_self w (s.get b) (s.get a) hwf hd⟩
  · rw [State.get_set, if_neg hr, State.putDevice_get]
  · rw [State.get_set, if_pos rfl, BitVec.toNat_add, toNat_widthStep]

/-- Settles O33: the read is on the device RDR named on entry, at the moved pointer, which the destination's write may replace. -/
theorem popDecrementsThenReads : Obligations.PopDecrementsThenReads := by
  intro w a b s d i p hd hi hp
  obtain rfl : p = s.get b - widthStep w := by
    apply BitVec.eq_of_toNat_eq
    have := (toNat_sub_widthStep (s.get b) w).trans hp.symm
    exact_mod_cast this.symm
  obtain ⟨hcfg, hdevices⟩ := State.after_read hd w (s.get b - widthStep w) (s.set b (s.get b - widthStep w)) rfl
  rw [exec_pop_eq hi, popReg, loadThen_some (s := s.set b _) (d := d) hd]
  refine ⟨_, rfl, ⟨fun r hr => ?_, hcfg, hdevices⟩, fun hab => ?_, ?_⟩
  · simp [List.ne_of_not_mem_cons hr, List.ne_of_not_mem_cons (List.not_mem_of_not_mem_cons hr)]
  · simp [Ne.symm hab]
  · rw [State.writeLow_get, if_pos rfl, ← State.toNat_read w _ hd, State.putDevice_get, State.get_set]
    split <;> exact lowReplaced_mergeLow_toNat ..

/-- Settles O34: the popped number is what was pushed by `Device.toNat_read_write`. -/
theorem pushThenPopRestores : Obligations.PushThenPopRestores := by
  intro w a b c s t u d i j hwf hd hkind hroom hrdr hcb hi hj hpush hpop
  rw [exec_push_eq hi] at hpush
  have hcfg : t.cfg = s.cfg := (pushReg_touches hpush).1
  rw [exec_pop_eq (hcfg ▸ hj)] at hpop
  obtain ⟨hb, hc⟩ := popReg_after_pushReg hpush hpop hrdr hcb hd
  refine ⟨hb, ?_⟩
  rw [hc]
  refine lowReplaced_mergeLow w _ _ _ ?_
  rw [Device.toNat_read_write _ (State.device_wf hwf hd) hkind hroom, toNat_low]
  simp

end Sys2Proof.Machine

/-! # Jumps taken (43_jump), and the ALU's instructions (44_bitwise, 45_arithmetic, 46) -/

namespace Sys2Proof.Machine

section
variable {s : State} {start : Word} {n : Nat} (w : Width)

/-- On entry RIP is past the instruction, so its start is the opcode byte's address. -/
theorem State.start_of_rip (h : s.get .rip = start + BitVec.ofNat 64 n) : s.start n = start := by
  rw [State.start, h, BitVec.add_sub_cancel]

theorem toNat_immTarget {imm : Word} (h : s.get .rip = start + BitVec.ofNat 64 (2 + w.bytes)) :
    ((immTarget w imm s).toNat : Int) = (start.toNat + signedLow w imm) % 2 ^ 64 := by
  rw [immTarget, State.start_of_rip h, toNat_relativeTarget]

theorem toNat_regTarget {b : Reg} (h : s.get .rip = start + 2) :
    ((regTarget w b s).toNat : Int)
      = if w = .w64 then ((s.get b).toNat : Int) else (start.toNat + signedLow w (s.get b)) % 2 ^ 64 := by
  rw [regTarget]
  split
  · rfl
  · rw [State.start_of_rip h, toNat_relativeTarget, signedLow_low]

/-- A jump to a target changes RIP alone, and RIP is the target. -/
theorem jump_spec (target : Word) {z : Int} (h : (target.toNat : Int) = z) :
    OnlyRegs s (s.jump target) [.rip] ∧ (((s.jump target).get .rip).toNat : Int) = z :=
  ⟨s.onlyRegs_set .rip target, by rw [State.jump_get, if_pos rfl, h]⟩

end

/-- Settles O35: the condition selects the jump, whose target is `toNat_immTarget`. -/
theorem immediateJumpsTaken : Obligations.ImmediateJumpsTaken := by
  rintro w a imm start s i hrip (rfl | ⟨rfl, hzero⟩ | ⟨rfl, hzero⟩)
  · exact ⟨_, rfl, jump_spec _ (toNat_immTarget w hrip)⟩
  · exact ⟨_, congrArg Host.Outcome.next (if_pos hzero), jump_spec _ (toNat_immTarget w hrip)⟩
  · exact ⟨_, congrArg Host.Outcome.next (if_neg hzero), jump_spec _ (toNat_immTarget w hrip)⟩

/-- Settles O36: as O35, with the target of `toNat_regTarget`. -/
theorem registerJumpsTaken : Obligations.RegisterJumpsTaken := by
  rintro w a b start s i hrip (rfl | ⟨rfl, hzero⟩ | ⟨rfl, hzero⟩)
  · exact ⟨_, rfl, jump_spec _ (toNat_regTarget w hrip)⟩
  · exact ⟨_, congrArg Host.Outcome.next (if_pos hzero), jump_spec _ (toNat_regTarget w hrip)⟩
  · exact ⟨_, congrArg Host.Outcome.next (if_neg hzero), jump_spec _ (toNat_regTarget w hrip)⟩

/-- Where the exact result is a word, it is the ALU's. -/
theorem aluResult_of_exact {op : AluOp} {w : Width} {x y v : Word} (h : op.exact w x y = v.toNat) : (alu op w x y).result = v := by
  show BitVec.ofInt 64 (op.exact w x y) = v
  rw [h, BitVec.ofInt_natCast, BitVec.ofNat_toNat, BitVec.setWidth_eq]

/-- A bitwise operation writes the low bytes of its result to the left operand, and BUS. -/
theorem bitwiseOp_spec (op : AluOp) (w : Width) (a b : Reg) (s : State) {v : Word}
    (h : op.exact w (s.get a) (s.get b) = v.toNat) :
    OnlyRegs s (bitwiseOp op w a b s) [a]
      ∧ ∀ k, ((bitwiseOp op w a b s).get a).getLsbD k = if k < w.bits then v.getLsbD k else (s.get a).getLsbD k := by
  refine ⟨⟨fun r hr => bitwiseOp_get_of_ne (List.ne_of_not_mem_cons hr), rfl, rfl⟩, fun k => ?_⟩
  rw [bitwiseOp, State.writeLow_get, if_pos rfl, aluResult_of_exact h, getLsbD_mergeLow, State.setBus_get]

/-- Settles O38: each operation is its `BitVec` operation, bit by bit. -/
theorem bitwiseResults : Obligations.BitwiseResults := by
  rintro w a b s i f (⟨rfl, rfl⟩ | ⟨rfl, rfl⟩ | ⟨rfl, rfl⟩ | ⟨rfl, rfl⟩)
  · obtain ⟨hregs, hbits⟩ := bitwiseOp_spec .not w a a s (v := ~~~s.get a) rfl
    exact ⟨_, rfl, hregs, fun k hk => by rw [hbits, BitVec.getLsbD_not, decide_eq_true hk, Bool.true_and]⟩
  · obtain ⟨hregs, hbits⟩ := bitwiseOp_spec .and w a b s (v := s.get a &&& s.get b) rfl
    exact ⟨_, rfl, hregs, fun k _ => by rw [hbits, BitVec.getLsbD_and]⟩
  · obtain ⟨hregs, hbits⟩ := bitwiseOp_spec .or w a b s (v := s.get a ||| s.get b) rfl
    exact ⟨_, rfl, hregs, fun k _ => by rw [hbits, BitVec.getLsbD_or]⟩
  · obtain ⟨hregs, hbits⟩ := bitwiseOp_spec .xor w a b s (v := s.get a ^^^ s.get b) rfl
    exact ⟨_, rfl, hregs, fun k _ => by rw [hbits, BitVec.getLsbD_xor]⟩

/-- Settles O39: `arithmeticOp_spec` with the exact result of each operation. -/
theorem addSubMulResults : Obligations.AddSubMulResults := by
  rintro w a b s i r (⟨rfl, rfl⟩ | ⟨rfl, rfl⟩ | ⟨rfl, rfl⟩)
  · obtain ⟨hregs, hlow, -, hflag⟩ := arithmeticOp_spec .add w a b s
    exact ⟨_, rfl, hregs, hlow, hflag⟩
  · obtain ⟨hregs, hlow, -, hflag⟩ := arithmeticOp_spec .sub w a b s
    exact ⟨_, rfl, hregs, hlow, hflag⟩
  · obtain ⟨hregs, hlow, -, hflag⟩ := arithmeticOp_spec .mul w a b s
    exact ⟨_, rfl, hregs, hlow, hflag⟩

/-- A dividing operation with a divisor other than zero: its result is not negative, so it overflows at the top alone. -/
theorem dividingOp_spec {op : AluOp} {w : Width} {a b : Reg} {s : State} {r : Nat} (hb : s.get b ≠ 0)
    (hr : op.exact w (s.get a) (s.get b) = r) :
    ∃ t, dividingOp op w a b s = .next t ∧ OnlyRegs s t [a, .rpf] ∧ LowReplaced w (s.get a) (t.get a) r
      ∧ (a ≠ .rpf → OnlyFlag s t 1 (decide (2 ^ w.bits ≤ r))) := by
  have hdz : ¬ (alu op w (s.get a) (s.get b)).dz = true := by
    simp only [alu, beq_false_of_ne hb, Bool.and_false, Bool.false_eq_true, not_false_iff]
  have hovf : ((r : Int) < 0 ∨ (2 : Int) ^ w.bits ≤ r) ↔ 2 ^ w.bits ≤ r := by
    rw [or_iff_right (by omega)]
    exact_mod_cast Iff.rfl
  obtain ⟨hregs, hlow, -, hflag⟩ := arithmeticOp_spec op w a b s
  rw [hr] at hlow hflag
  exact ⟨_, if_neg hdz, hregs, hlow, fun ha => decide_eq_decide.mpr hovf ▸ hflag ha⟩

/-- Settles O40: `dividingOp_spec` with the floor quotient and the remainder. -/
theorem divModResults : Obligations.DivModResults := by
  rintro w a b s i r hb (⟨rfl, rfl⟩ | ⟨rfl, rfl⟩)
  · exact dividingOp_spec (op := .div) hb rfl
  · exact dividingOp_spec (op := .mod) hb rfl

/-- Settles O42: the whole register is written, with the ALU's result. -/
theorem incDecResults : Obligations.IncDecResults := by
  rintro a s i r (⟨rfl, rfl⟩ | ⟨rfl, rfl⟩)
  case inl | inr => exact ⟨_, rfl, s.onlyRegs_set a _, by rw [State.get_set, if_pos rfl, toNat_aluResult]; rfl⟩

end Sys2Proof.Machine

/-! # What programs cannot see (10_state R43, R45): latches and BUS, as two projections of the state that every operation
respects -/

namespace Sys2Proof.Machine

/-- A projection `f` of the state, `g` of each device, that hides nothing an instruction reads: the state's operations go through
`f`, and a device's accesses through `g`. -/
structure Hides (f : State → State) (g : Device → Device) : Prop where
  get : ∀ s r, (f s).get r = s.get r
  cfg : ∀ s, (f s).cfg = s.cfg
  set : ∀ s r v, f (s.set r v) = (f s).set r v
  setBus : ∀ {s t} v, f s = f t → f (s.setBus v) = f (t.setBus v)
  device : ∀ s id, (f s).device id = (s.device id).map g
  putDevice : ∀ s id d, f (s.putDevice id d) = (f s).putDevice id (g d)
  bytes : ∀ {d e}, g d = g e → d.cap = e.cap ∧ d.store = e.store
  faulted : ∀ {d e} b, g d = g e → g (d.faulted b) = g (e.faulted b)
  write : ∀ {d e} a w v, g d = g e → g (d.write a w v) = g (e.write a w v)

/-- What a step fetches depends on the bytes of the command device alone. -/
theorem fetched_congr {c e : Device} (hcap : c.cap = e.cap) (hstore : c.store = e.store) (rip : Word) :
    instrAt c rip = instrAt e rip ∧ fetchFaults c rip = fetchFaults e rip := by
  obtain ⟨_, cap, store, _⟩ := c
  obtain rfl : cap = _ := hcap
  obtain rfl : store = _ := hstore
  exact ⟨rfl, rfl⟩

/-- A test whose branches are alike has alike outcomes. -/
theorem ite_alike {f : State → State} {p : Prop} [Decidable p] {s t u v : State} (h : f s = f t) (hu : f u = f v) :
    f (if p then s else u) = f (if p then t else v) := by
  rw [apply_ite f, apply_ite f, h, hu]

namespace Hides

section
variable {f : State → State} {g : Device → Device} (hf : Hides f g) {s t : State} (h : f s = f t)
include hf h

theorem get_congr (r : Reg) : s.get r = t.get r := by
  rw [← hf.get s, h, hf.get]

theorem set_congr (r : Reg) (v : Word) : f (s.set r v) = f (t.set r v) := by
  rw [hf.set, h, hf.set]

theorem datId_congr : s.datId = t.datId := congrArg BitVec.toNat (hf.get_congr h .rdr)
theorem cmdId_congr : s.cmdId = t.cmdId := congrArg BitVec.toNat (hf.get_congr h .rdc)

theorem writeLow_congr (r : Reg) (w : Width) (v : Word) : f (s.writeLow r w v) = f (t.writeLow r w v) := by
  rw [State.writeLow, State.writeLow, hf.get_congr h]
  exact hf.set_congr h ..

theorem setFlag_congr (k : Nat) (b : Bool) : f (s.setFlag k b) = f (t.setFlag k b) := by
  rw [State.setFlag, State.setFlag, hf.get_congr h]
  exact hf.set_congr h ..

theorem putDevice_congr (id : Nat) {d e : Device} (hde : g d = g e) : f (s.putDevice id d) = f (t.putDevice id e) := by
  rw [hf.putDevice, hf.putDevice, h, hde]

/-- Under an id both states have no device, or two devices that are alike. -/
theorem device_cases (id : Nat) :
    s.device id = none ∧ t.device id = none ∨ ∃ d e, s.device id = some d ∧ t.device id = some e ∧ g d = g e := by
  have hmap : (s.device id).map g = (t.device id).map g := by rw [← hf.device, h, hf.device]
  cases hs : s.device id with
  | none => exact .inl ⟨rfl, by simpa [hs] using hmap.symm⟩
  | some d =>
    rw [hs] at hmap
    obtain ⟨e, he, hde⟩ := Option.map_eq_some_iff.mp hmap.symm
    exact .inr ⟨d, e, rfl, he, hde.symm⟩

theorem onReg_congr {a : RegField} {k k' : Reg → Result} (hk : ∀ r, mapNext f (k r) = mapNext f (k' r)) :
    mapNext f (onReg a s k) = mapNext f (onReg a t k') := by
  cases a with
  | none => exact congrArg Host.Outcome.next (hf.setFlag_congr h ..)
  | some r => exact hk r

theorem onRegs_congr {a b : RegField} {k k' : Reg → Reg → Result} (hk : ∀ r q, mapNext f (k r q) = mapNext f (k' r q)) :
    mapNext f (onRegs a b s k) = mapNext f (onRegs a b t k') :=
  hf.onReg_congr h fun r => hf.onReg_congr h fun q => hk r q

theorem loadThen_congr (dat : Nat) (a : Word) (w : Width) {k k' : Word → State → Result}
    (hk : ∀ v u u', f u = f u' → mapNext f (k v u) = mapNext f (k' v u')) :
    mapNext f (loadThen s dat a w k) = mapNext f (loadThen t dat a w k') := by
  obtain ⟨hs, ht⟩ | ⟨d, e, hs, ht, hde⟩ := hf.device_cases h dat
  · rw [loadThen_none hs, loadThen_none ht]
  · obtain ⟨hcap, hstore⟩ := hf.bytes hde
    have hlane : d.lane = e.lane := by funext x; rw [Device.lane, hcap, hstore, Device.lane]
    rw [loadThen_some hs, loadThen_some ht, Device.read_eq, Device.read_eq, hlane, hcap]
    exact hk _ _ _ (hf.putDevice_congr h dat (hf.faulted _ hde))

theorem storeThen_congr (dat : Nat) (a : Word) (w : Width) (v : Word) {k k' : State → Result}
    (hk : ∀ u u', f u = f u' → mapNext f (k u) = mapNext f (k' u')) :
    mapNext f (storeThen s dat a w v k) = mapNext f (storeThen t dat a w v k') := by
  obtain ⟨hs, ht⟩ | ⟨d, e, hs, ht, hde⟩ := hf.device_cases h dat
  · rw [storeThen_none hs, storeThen_none ht]
  · rw [storeThen_some hs, storeThen_some ht]
    exact hk _ _ (hf.putDevice_congr h dat (hf.write a w v hde))

theorem loadReg_congr (r : Reg) (a : Word) (w : Width) : mapNext f (loadReg r a w s) = mapNext f (loadReg r a w t) := by
  rw [loadReg, loadReg, hf.datId_congr h]
  exact hf.loadThen_congr h _ _ _ fun v u u' hu => congrArg Host.Outcome.next (hf.writeLow_congr hu r w v)

theorem storeValue_congr (a : Word) (w : Width) (v : Word) : mapNext f (storeValue a w v s) = mapNext f (storeValue a w v t) := by
  rw [storeValue, storeValue, hf.datId_congr h]
  exact hf.storeThen_congr h _ _ _ _ fun u u' hu => congrArg Host.Outcome.next hu

theorem pushReg_congr (r q : Reg) (w : Width) : mapNext f (pushReg r q w s) = mapNext f (pushReg r q w t) := by
  rw [pushReg, pushReg, hf.datId_congr h, hf.get_congr h, hf.get_congr h]
  exact hf.storeThen_congr h _ _ _ _ fun u u' hu => congrArg Host.Outcome.next (hf.set_congr hu ..)

theorem popReg_congr (r q : Reg) (w : Width) : mapNext f (popReg r q w s) = mapNext f (popReg r q w t) := by
  rw [popReg, popReg, hf.datId_congr h, hf.get_congr h]
  exact hf.loadThen_congr (hf.set_congr h ..) _ _ _ fun v u u' hu => congrArg Host.Outcome.next (hf.writeLow_congr hu r w v)

theorem bitwiseOp_congr (op : AluOp) (w : Width) (a b : Reg) : f (bitwiseOp op w a b s) = f (bitwiseOp op w a b t) := by
  rw [bitwiseOp, bitwiseOp, hf.get_congr h, hf.get_congr h]
  exact hf.writeLow_congr (hf.setBus _ h) ..

theorem arithmeticOp_congr (op : AluOp) (w : Width) (a b : Reg) :
    f (arithmeticOp op w a b s) = f (arithmeticOp op w a b t) := by
  rw [arithmeticOp, arithmeticOp, hf.get_congr h, hf.get_congr h]
  exact hf.writeLow_congr (hf.setFlag_congr (hf.setBus _ h) ..) ..

theorem dividingOp_congr (op : AluOp) (w : Width) (a b : Reg) :
    mapNext f (dividingOp op w a b s) = mapNext f (dividingOp op w a b t) := by
  rw [dividingOp, dividingOp, hf.get_congr h, hf.get_congr h]
  split
  · exact congrArg Host.Outcome.next (hf.setFlag_congr h ..)
  · exact congrArg Host.Outcome.next (hf.arithmeticOp_congr h ..)

theorem jump_immTarget_congr (w : Width) (imm : Word) : f (s.jump (immTarget w imm s)) = f (t.jump (immTarget w imm t)) := by
  rw [immTarget, immTarget, State.start, State.start, hf.get_congr h]
  exact hf.set_congr h ..

theorem jump_regTarget_congr (w : Width) (r : Reg) : f (s.jump (regTarget w r s)) = f (t.jump (regTarget w r t)) := by
  rw [regTarget, regTarget, State.start, State.start, hf.get_congr h, hf.get_congr h]
  exact hf.set_congr h ..

/-- From states alike, every instruction has outcomes alike. -/
theorem exec_congr (i : Instr) : mapNext f (exec i s) = mapNext f (exec i t) := by
  have next : ∀ {u u'}, f u = f u' → mapNext f (.next u) = mapNext f (.next u') := congrArg Host.Outcome.next
  cases i with
  | nop => exact next h
  | halt | reservedBitwise | reservedStack | reservedArithB4 | reservedArithB8 | reservedJump | reservedCat7 | reservedInc15
  | reservedDec15 => exact next (hf.setFlag_congr h ..)
  | bitNot w a => exact hf.onReg_congr h fun r => next (hf.bitwiseOp_congr h ..)
  | bitAnd w a b | bitOr w a b | bitXor w a b => exact hf.onRegs_congr h fun r q => next (hf.bitwiseOp_congr h ..)
  | add w a b | sub w a b | mul w a b => exact hf.onRegs_congr h fun r q => next (hf.arithmeticOp_congr h ..)
  | div w a b | mod w a b => exact hf.onRegs_congr h fun r q => hf.dividingOp_congr h ..
  | inc a | dec a => exact hf.onReg_congr h fun r => next (by rw [hf.get_congr h]; exact hf.set_congr h ..)
  | movRR w a b => exact hf.onRegs_congr h fun r q => next (by rw [hf.get_congr h]; exact hf.writeLow_congr h ..)
  | movRI w a imm => exact hf.onReg_congr h fun r => next (hf.writeLow_congr h ..)
  | movRM w a b => exact hf.onRegs_congr h fun r q => by rw [hf.get_congr h]; exact hf.loadReg_congr h ..
  | movRA w a imm => exact hf.onReg_congr h fun r => hf.loadReg_congr h ..
  | movMR w a b => exact hf.onRegs_congr h fun r q => by rw [hf.get_congr h, hf.get_congr h]; exact hf.storeValue_congr h ..
  | movMI w a imm => exact hf.onReg_congr h fun r => by rw [hf.get_congr h]; exact hf.storeValue_congr h ..
  | movAR w a imm => exact hf.onReg_congr h fun r => by rw [hf.get_congr h]; exact hf.storeValue_congr h ..
  | movMM w a b =>
    refine hf.onRegs_congr h fun r q => ?_
    rw [hf.datId_congr h, hf.get_congr h, hf.get_congr h]
    exact hf.loadThen_congr h _ _ _ fun v u u' hu => hf.storeThen_congr (hf.setBus v hu) _ _ _ _ fun u u' hu => next hu
  | pushs w a => exact hf.onReg_congr h fun r => by rw [← hf.cfg s, h, hf.cfg]; exact hf.pushReg_congr h ..
  | pops w a => exact hf.onReg_congr h fun r => by rw [← hf.cfg s, h, hf.cfg]; exact hf.popReg_congr h ..
  | push w a b => exact hf.onRegs_congr h fun r q => hf.pushReg_congr h ..
  | pop w a b => exact hf.onRegs_congr h fun r q => hf.popReg_congr h ..
  | jmpI w imm => exact next (hf.jump_immTarget_congr h ..)
  | jmpR w a => exact hf.onReg_congr h fun r => next (hf.jump_regTarget_congr h ..)
  | jzI w a imm => exact hf.onReg_congr h fun r => next (by rw [hf.get_congr h]; exact ite_alike (hf.jump_immTarget_congr h ..) h)
  | jzR w a b => exact hf.onRegs_congr h fun r q => next (by rw [hf.get_congr h]; exact ite_alike (hf.jump_regTarget_congr h ..) h)
  | jnzI w a imm => exact hf.onReg_congr h fun r => next (by rw [hf.get_congr h]; exact ite_alike h (hf.jump_immTarget_congr h ..))
  | jnzR w a b => exact hf.onRegs_congr h fun r q => next (by rw [hf.get_congr h]; exact ite_alike h (hf.jump_regTarget_congr h ..))

/-- From states alike, steps have outcomes alike. -/
theorem step_congr : mapNext f (step s) = mapNext f (step t) := by
  have hcmd := hf.cmdId_congr h
  have hdat := hf.datId_congr h
  obtain ⟨hs, ht⟩ | ⟨c, c', hc, hc', hcc⟩ := hf.device_cases h s.cmdId
  · rw [(unmappedStepFaults s).1 hs, (unmappedStepFaults t).1 (hcmd ▸ ht), hcmd]
  · rw [hcmd] at hc'
    obtain ⟨hs, ht⟩ | ⟨d, d', hd, hd', -⟩ := hf.device_cases h s.datId
    · rw [(unmappedStepFaults s).2 c hc hs, (unmappedStepFaults t).2 c' hc' (hdat ▸ ht), hdat]
    · obtain ⟨hcap, hstore⟩ := hf.bytes hcc
      obtain ⟨hinstr, hfault⟩ := fetched_congr hcap hstore (s.get .rip)
      rw [step_eq hc hd, step_eq hc' (hdat ▸ hd'), ← hf.get_congr h .rip, hinstr, hfault, ← hcmd]
      refine hf.exec_congr ?_ _
      have htick : f s.tick = f t.tick := by
        rw [State.tick, State.tick, hf.get_congr h]
        exact hf.set_congr h ..
      have hput := hf.putDevice_congr htick s.cmdId (hf.faulted (fetchFaults c' (s.get .rip)) hcc)
      rw [State.advanceRip, State.advanceRip, hf.get_congr hput]
      exact hf.set_congr hput ..

end

end Hides

theorem hides_withoutBus : Hides State.withoutBus id where
  get _ _ := rfl
  cfg _ := rfl
  set _ _ _ := rfl
  setBus _ h := h
  device _ _ := Option.map_id.symm ▸ rfl
  putDevice _ _ _ := rfl
  bytes h := ⟨congrArg Device.cap h, congrArg Device.store h⟩
  faulted b h := congrArg (Device.faulted · b) h
  write a w v h := congrArg (Device.write · a w v) h

/-- Settles O17: with BUS set or not, the states are alike without BUS. -/
theorem busIsInvisible : Obligations.BusIsInvisible :=
  fun s b => hides_withoutBus.step_congr (s := { s with bus := b }) (t := s) rfl

/-- The device with its latch cleared. -/
def Device.unlatched (d : Device) : Device := { d with fault := false }

theorem Device.unlatched_eq_iff {d e : Device} :
    d.unlatched = e.unlatched ↔ d.kind = e.kind ∧ d.cap = e.cap ∧ d.store = e.store := by
  simp [Device.unlatched]

theorem Device.writeLane_unlatched {d e : Device} (h : d.unlatched = e.unlatched) (x : Nat) (b : Byte) :
    (d.writeLane x b).unlatched = (e.writeLane x b).unlatched := by
  obtain ⟨hkind, hcap, hstore⟩ := Device.unlatched_eq_iff.mp h
  rw [Device.writeLane, Device.writeLane, hcap, hstore]
  split
  · exact Device.unlatched_eq_iff.mpr ⟨hkind, rfl, rfl⟩
  · exact h

theorem Device.writeLanes_unlatched {d e : Device} (h : d.unlatched = e.unlatched) (x n : Nat) (v : Word) :
    (d.writeLanes x n v).unlatched = (e.writeLanes x n v).unlatched := by
  induction n generalizing d e x with
  | zero => exact h
  | succ n ih => exact ih (Device.writeLane_unlatched h x (byteOf v n)) (x + 1)

theorem Device.write_unlatched {d e : Device} (h : d.unlatched = e.unlatched) (a : Word) (w : Width) (v : Word) :
    (d.write a w v).unlatched = (e.write a w v).unlatched := by
  obtain ⟨hkind, hcap, -⟩ := Device.unlatched_eq_iff.mp h
  rw [Device.write, Device.write, hkind, hcap]
  split
  · exact h
  · split
    · exact h
    · exact Device.writeLanes_unlatched h ..

theorem DeviceMap.find_map (g : Device → Device) (m : DeviceMap) (id : Nat) :
    DeviceMap.find (m.map fun e => (e.1, g e.2)) id = (m.find id).map g := by
  induction m with
  | nil => rfl
  | cons e m ih =>
    obtain ⟨k, d⟩ := e
    rw [List.map_cons, DeviceMap.find_cons, DeviceMap.find_cons, ih]
    split <;> rfl

theorem DeviceMap.map_update_map (g : Device → Device) (m : DeviceMap) (id : Nat) (d : Device) :
    (m.update id d).map (fun e => (e.1, g e.2)) = DeviceMap.update (m.map fun e => (e.1, g e.2)) id (g d) := by
  induction m with
  | nil => rfl
  | cons e m ih =>
    obtain ⟨k, d'⟩ := e
    rw [List.map_cons, DeviceMap.update, DeviceMap.update]
    split
    · rfl
    · rw [List.map_cons, ih]

theorem hides_withoutLatches : Hides State.withoutLatches Device.unlatched where
  get _ _ := rfl
  cfg _ := rfl
  set _ _ _ := rfl
  setBus v h := congrArg (State.setBus · v) h
  device s id := DeviceMap.find_map Device.unlatched s.devices id
  putDevice s id d :=
    congrArg (fun m => ({ s with devices := m } : State)) (DeviceMap.map_update_map Device.unlatched s.devices id d)
  bytes h := (Device.unlatched_eq_iff.mp h).2
  faulted _ h := h
  write a w v h := Device.write_unlatched h a w v

theorem State.withoutLatches_idem (s : State) : s.withoutLatches.withoutLatches = s.withoutLatches := by
  simp [State.withoutLatches]

/-- Settles O16: with its latches cleared or not, the state is the same without latches. -/
theorem latchesAreInvisible : Obligations.LatchesAreInvisible :=
  fun s => hides_withoutLatches.step_congr s.withoutLatches_idem.symm

end Sys2Proof.Machine

/-! # The step as its phases (40 R142): from each phase on, the phases run the rest of the step -/

namespace Sys2Proof

theorem decodeParts_of_catField_three {op : Byte} (x : Byte) (imm : Word) (h : catField op = 3) :
    decodeParts op x imm = decodeShort op := by
  have hhalt : ¬ isHalt op = true := fun hh => by simp [beq_iff_eq.mp hh, catField] at h
  rw [decodeParts, if_neg hhalt, h]
  rfl

theorem decodeParts_of_catField_seven {op : Byte} (x : Byte) (imm : Word) (h : catField op = 7) (hhalt : ¬ isHalt op = true) :
    decodeParts op x imm = .reservedCat7 (subField op) (widthField op) := by
  rw [decodeParts, if_neg hhalt, h]
  rfl

/-- Index 15 in a short form is a reserved row (30_encoding R124). -/
theorem reserved_decodeShort {op : Byte} (h : shortField op = none) : (decodeShort op).reserved = true := by
  rw [decodeShort, h]
  cases op.getLsbD 4 <;> rfl

/-- Without an operand byte the category is 000, 011 or 111. -/
theorem catField_of_not_hasOperand {op : Byte} (ho : ¬ hasOperand op = true) :
    catField op = 0 ∨ catField op = 3 ∨ catField op = 7 := by
  rw [hasOperand_eq_catField] at ho
  simp only [Bool.and_eq_true, bne_iff_ne, ne_eq, not_and_or, not_not, or_assoc] at ho
  exact ho

end Sys2Proof

namespace Sys2Proof.Machine

/-- A reserved sub-instruction has no immediate and decodes to a reserved row (30_encoding R121), whatever its operand byte. -/
theorem reserved_of_reservedSub {op : Byte} (h : reservedSub op = true) :
    hasImmediate op = false ∧ ∀ x imm, (decodeParts op x imm).reserved = true := by
  have hop : ∀ op : Byte, reservedSub op = true → hasImmediate op = false ∧ (decodeParts op 0 0).reserved = true := by decide
  obtain ⟨hi, hreserved⟩ := hop op h
  obtain ⟨f, huse, hf⟩ := decodeParts_operandUse op
  refine ⟨hi, fun x imm => ?_⟩
  have hrow : (decodeParts op x imm).row = (decodeParts op 0 0).row := by rw [hf, hf]; exact huse.row ..
  rwa [Instr.reserved, hrow]

theorem State.putDevice_putDevice (s : State) (id : Nat) (d e : Device) :
    (s.putDevice id d).putDevice id e = s.putDevice id e := by
  rw [State.putDevice, State.putDevice, DeviceMap.update_update]
  rfl

theorem State.putDevice_self {s : State} {id : Nat} {d : Device} (h : s.device id = some d) : s.putDevice id d = s := by
  rw [State.putDevice, DeviceMap.update_self h]

theorem State.device_putDevice_self {s : State} {id : Nat} {d : Device} (h : s.device id = some d) (e : Device) :
    (s.putDevice id e).device id = some e := by
  rw [State.putDevice_device, if_pos rfl, h, Option.map_some]

/-- What the fetches so far have left of the command device is overwritten when it is put back after the last one. -/
theorem fetchImmediate_putDevice (c : Device) (op x : Byte) (s : State) (d : Device) :
    fetchImmediate c op x (s.putDevice s.cmdId d) = fetchImmediate c op x s := by
  unfold fetchImmediate
  split
  · exact congrArg (fun u => (_, State.advanceRip u _)) (State.putDevice_putDevice s s.cmdId d _)
  · exact congrArg (Prod.mk _) (State.putDevice_putDevice s s.cmdId d c)

theorem fetchOperand_putDevice (c : Device) (op : Byte) (s : State) (d : Device) :
    fetchOperand c op (s.putDevice s.cmdId d) = fetchOperand c op s := by
  unfold fetchOperand
  split
  · exact fetchImmediate_putDevice _ _ _ (s.advanceRip 1) d
  · exact congrArg (Prod.mk _) (State.putDevice_putDevice s s.cmdId d c)

/-- An outcome of the step as one of its phases: back in IDLE. -/
def toIdle : Result → PhaseResult
  | .next t => .next (.idle, t)
  | .fault f => .fault f
  | .refused r => .refused r

section
variable {s t : State} {c : Device} (k : Nat)

theorem phaseRun_of_idle {p : Phase} (h : phaseStep p s = .next (.idle, t)) : phaseRun (k + 1) p s = .next (.idle, t) := by
  rw [phaseRun, h]

theorem phaseRun_of_next {p q : Phase} (h : phaseStep p s = .next (q, t)) (hq : q ≠ .idle) :
    phaseRun (k + 1) p s = phaseRun k q t := by
  rw [phaseRun, h]
  cases q with
  | idle => exact absurd rfl hq
  | _ => rfl

theorem phaseRun_of_fault {p : Phase} {f : Fault} (h : phaseStep p s = .fault f) : phaseRun (k + 1) p s = .fault f := by
  rw [phaseRun, h]

theorem phaseFetch_eq (hc : s.device s.cmdId = some c) (w : Width) (next : Word → State → PhaseResult) :
    phaseFetch s w next = next (fetchFrom c s w).1 (s.putDevice s.cmdId (fetchFrom c s w).2) := by
  simp only [phaseFetch, hc]

theorem phaseStep_fetchOp (hc : s.device s.cmdId = some c) :
    phaseStep .fetchOp s
      = .next (if isHalt (toByte (fetchFrom c s .w8).1) then .halt else .decode (toByte (fetchFrom c s .w8).1),
        s.putDevice s.cmdId (fetchFrom c s .w8).2) := by
  rw [phaseStep, phaseFetch_eq hc]

theorem phaseStep_fetchOperand (hc : s.device s.cmdId = some c) (op : Byte) :
    phaseStep (.fetchOperand op) s
      = if reservedSub op then .next (.idle, ((s.putDevice s.cmdId (fetchFrom c s .w8).2).advanceRip 1).raise)
        else if hasImmediate op then
          .next (.fetchImm op (toByte (fetchFrom c s .w8).1), (s.putDevice s.cmdId (fetchFrom c s .w8).2).advanceRip 1)
        else .next (.check (decodeParts op (toByte (fetchFrom c s .w8).1) 0),
          (s.putDevice s.cmdId (fetchFrom c s .w8).2).advanceRip 1) := by
  rw [phaseStep, phaseFetch_eq hc]

theorem phaseStep_fetchImm (hc : s.device s.cmdId = some c) (op x : Byte) :
    phaseStep (.fetchImm op x) s
      = .next (.check (decodeParts op x (fetchFrom c s (widthField op)).1),
        (s.putDevice s.cmdId (fetchFrom c s (widthField op)).2).advanceRip (widthField op).bytes) := by
  rw [phaseStep, phaseFetch_eq hc]

theorem phaseRun_exec (i : Instr) (s : State) : phaseRun (k + 1) (.exec i) s = toIdle (exec i s) := by
  rw [phaseRun, phaseStep, execPhase]
  cases exec i s <;> rfl

/-- CHECK raises on index 15 itself, as the effect would. -/
theorem phaseRun_check (i : Instr) (s : State) : phaseRun (k + 2) (.check i) s = toIdle (exec i s) := by
  have hphase : phaseStep (.check i) s = if i.badReg then .next (.idle, s.raise) else .next (.exec i, s) := rfl
  by_cases hbad : i.badReg = true
  · rw [exec_of_badReg hbad]
    exact phaseRun_of_idle _ (hphase.trans (if_pos hbad))
  · exact (phaseRun_of_next _ (hphase.trans (if_neg hbad)) nofun).trans (phaseRun_exec k i s)

theorem phaseRun_fetchImm (hc : s.device s.cmdId = some c) {op : Byte} (hi : hasImmediate op = true) (x : Byte) :
    phaseRun (k + 3) (.fetchImm op x) s = toIdle (exec (fetchImmediate c op x s).1 (fetchImmediate c op x s).2) := by
  rw [fetchImmediate, if_pos hi]
  exact (phaseRun_of_next _ (phaseStep_fetchImm hc op x) nofun).trans (phaseRun_check ..)

/-- FETCH OPERAND raises on a reserved sub-instruction itself, as the effect would. -/
theorem phaseRun_fetchOperand (hc : s.device s.cmdId = some c) {op : Byte} (ho : hasOperand op = true) :
    phaseRun (k + 4) (.fetchOperand op) s = toIdle (exec (fetchOperand c op s).1 (fetchOperand c op s).2) := by
  have hphase := phaseStep_fetchOperand hc op
  have hdev : ∀ d, ((s.putDevice s.cmdId d).advanceRip 1).device s.cmdId = some d := State.device_putDevice_self hc
  rw [fetchOperand, if_pos ho]
  by_cases hsub : reservedSub op = true
  · obtain ⟨hi, hreserved⟩ := reserved_of_reservedSub hsub
    rw [if_pos hsub] at hphase
    rw [fetchImmediate, if_neg (by simp [hi]), exec_of_reserved (hreserved _ _)]
    exact phaseRun_of_idle _ hphase
  · rw [if_neg hsub] at hphase
    by_cases hi : hasImmediate op = true
    · rw [if_pos hi] at hphase
      refine (phaseRun_of_next _ hphase nofun).trans ((phaseRun_fetchImm k (hdev _) hi _).trans ?_)
      exact congrArg (fun p => toIdle (exec p.1 p.2)) (fetchImmediate_putDevice _ _ _ (s.advanceRip 1) _)
    · rw [if_neg hi] at hphase
      rw [fetchImmediate, if_neg hi]
      exact (phaseRun_of_next _ hphase nofun).trans (phaseRun_check ..)

/-- DECODE ends the step of NOP and of a reserved byte itself, as the effect would. -/
theorem phaseRun_decode (hc : s.device s.cmdId = some c) {op : Byte} (hhalt : ¬ isHalt op = true) :
    phaseRun (k + 5) (.decode op) s
      = toIdle (exec (fetchOperand c op (s.advanceRip 1)).1 (fetchOperand c op (s.advanceRip 1)).2) := by
  have hphase : phaseStep (.decode op) s = decodePhase op (s.advanceRip 1) := rfl
  by_cases ho : hasOperand op = true
  · obtain ⟨⟨h0, h3⟩, h7⟩ : (catField op ≠ 0 ∧ catField op ≠ 3) ∧ catField op ≠ 7 := by
      simpa [hasOperand_eq_catField] using ho
    rw [decodePhase, if_neg h0, if_neg h3, if_neg h7] at hphase
    exact (phaseRun_of_next _ hphase nofun).trans (phaseRun_fetchOperand k (s := s.advanceRip 1) hc ho)
  · have hput : (s.advanceRip 1).putDevice (s.advanceRip 1).cmdId c = s.advanceRip 1 := State.putDevice_self hc
    rw [fetchOperand, if_neg ho, hput]
    obtain h | h | h := catField_of_not_hasOperand ho
    · rw [decodeParts_of_catField_zero 0 0 h]
      rw [decodePhase, if_pos h] at hphase
      exact phaseRun_of_idle _ hphase
    · rw [decodePhase, if_neg (by rw [h]; decide), if_pos h] at hphase
      by_cases hreg : shortField op = none
      · rw [if_pos hreg] at hphase
        rw [decodeParts_of_catField_three 0 0 h, exec_of_reserved (reserved_decodeShort hreg)]
        exact phaseRun_of_idle _ hphase
      · rw [if_neg hreg] at hphase
        exact (phaseRun_of_next _ hphase nofun).trans (phaseRun_exec ..)
    · rw [decodePhase, if_neg (by rw [h]; decide), if_neg (by rw [h]; decide), if_pos h] at hphase
      rw [decodeParts_of_catField_seven 0 0 h hhalt]
      exact phaseRun_of_idle _ hphase

theorem phaseRun_fetchOp (hc : s.device s.cmdId = some c) :
    phaseRun (k + 6) .fetchOp s = toIdle (exec (fetchOpcode c s).1 (fetchOpcode c s).2) := by
  have hphase := phaseStep_fetchOp hc
  have hdev : ∀ d, (s.putDevice s.cmdId d).device s.cmdId = some d := State.device_putDevice_self hc
  rw [fetchOpcode]
  by_cases hhalt : isHalt (toByte (fetchFrom c s .w8).1) = true
  · rw [if_pos hhalt] at hphase ⊢
    exact (phaseRun_of_next _ hphase nofun).trans (phaseRun_of_idle _ rfl)
  · rw [if_neg hhalt] at hphase ⊢
    refine (phaseRun_of_next _ hphase nofun).trans ((phaseRun_decode k (hdev _) hhalt).trans ?_)
    exact congrArg (fun p => toIdle (exec p.1 p.2)) (fetchOperand_putDevice _ _ (s.advanceRip 1) _)

end

/-- Settles O12: after IDLE and the tick, which tests both devices as the fetch does, the phases run the step
(`phaseRun_fetchOp`). -/
theorem phasesRunTheStep : Obligations.PhasesRunTheStep := by
  intro s
  show phaseRun 8 .idle s = toIdle (step s)
  rw [phaseRun_of_next (q := .tick) (t := s) 7 rfl nofun]
  cases hc : s.device s.cmdId with
  | none =>
    rw [(unmappedStepFaults s).1 hc]
    exact phaseRun_of_fault 6 (by simp only [phaseStep, hc])
  | some c =>
    cases hd : s.device s.datId with
    | none =>
      rw [(unmappedStepFaults s).2 c hc hd]
      exact phaseRun_of_fault 6 (by simp only [phaseStep, hc, hd])
    | some d =>
      rw [phaseRun_of_next (q := .fetchOp) (t := s.tick) 6 (by simp only [phaseStep, hc, hd]) nofun]
      rw [step, State.fetch, hc, hd]
      exact phaseRun_fetchOp 0 hc

end Sys2Proof.Machine
